-- ==== Sys2Proof/Word.lean ====
section
/-! DEFINITION. The word types of the scanline engine (rules R17, R35): 32-bit words and addresses, bytes. -/

namespace Sys2Proof

/-- A 32-bit value, the spec's "word" (R17); also a byte address, since address arithmetic is modulo 2^32. -/
abbrev Word := BitVec 32

/-- One byte of memory. -/
abbrev Byte := BitVec 8

end Sys2Proof
end

