-- ==== Sys2Proof/Config.lean ====
section
/-! DEFINITION. What the launch fixes for a whole run (rules R8-R14, R320), and the free values: constants without a
body, of which no proof can learn anything. -/

namespace Sys2Proof

/-- The two channels: channel 0 (ping) and channel 1 (pong) (R21, R31). -/
inductive Chan where
  | ch0
  | ch1
  deriving DecidableEq, Repr, Inhabited

/-- The agents of rule R31. -/
inductive Agent where
  | setup
  | controller
  | channel (c : Chan)
  | sink
  deriving DecidableEq, Repr, Inhabited

/-- `FMT` (R9): one byte a pixel or two. -/
inductive PixelFormat where
  | p1
  | p2
  deriving DecidableEq, Repr

/-- `DUP_MODE` (R13, R146): how rows past a half-height asset are mapped. `mirror` is the documented unused variant. -/
inductive DupMode where
  | duplicate
  | mirror
  deriving DecidableEq, Repr

/-- The encoding parameters (R14; 93_implementation_defined.md row 30), their defaults `Encoding.default`: the opcodes of
the five commands that have one of their own (R102), the width of the count field, which the opcode stands above (R101),
the four control symbols by the levels `(C1, C0)` (R105), and the lowest bit of each lane of a control-data word (R104). -/
structure Encoding where
  raw : BitVec 4
  rawRepeat : BitVec 4
  tmds : BitVec 4
  tmdsRepeat : BitVec 4
  nop : BitVec 4
  countWidth : Nat
  ctrl00 : BitVec 10
  ctrl01 : BitVec 10
  ctrl10 : BitVec 10
  ctrl11 : BitVec 10
  lane0 : Nat
  lane1 : Nat
  lane2 : Nat
  deriving DecidableEq, Repr

/-- The implementation parameters of rules R9 and R11-R14. The state holds one of these and no step changes it, so a
statement about every state is a statement about every value of every parameter. -/
structure Config where
  /-- The encoding of command and control-data words (R14). -/
  enc : Encoding
  /-- `FMT` (R9). -/
  fmt : PixelFormat
  /-- `DUP_MODE` (R13). -/
  dupMode : DupMode
  /-- `H_POL` (R13): the level that means hsync asserted; `false` is level 0. -/
  hPol : Bool
  /-- `V_POL` (R13): the level that means vsync asserted. -/
  vPol : Bool
  /-- `BLANK_PAD` (R13, R178): trailing no-ops of each blanking sequence. -/
  blankPad : Nat
  /-- `FIFO_DEPTH` (R13), open. -/
  fifoDepth : Nat
  /-- `ASSET_W` (R11), in pixels. -/
  assetW : Nat
  /-- `ASSET_H` (R11), in rows. -/
  assetH : Nat
  /-- `ROM_VSYNC_BASE` (R12), open. -/
  romVsyncBase : Word
  /-- `ROM_VBLANK_BASE` (R12), open. -/
  romVblankBase : Word
  /-- `ROM_ACTIVE_BASE` (R12), open. -/
  romActiveBase : Word
  /-- `ASSET_BASE` (R11), open. -/
  assetBase : Word
  /-- `SCRATCH_BASE` (R12), open. -/
  scratchBase : Word
  /-- `SINK_ADDR` (R12), open: the one address every channel write goes to (R37). -/
  sinkAddr : Word
  /-- DESIGN CHOICE (log entry 5): the launch wrote every asset byte (first clause of `ASSET_OK`, R295). When true the
  image is the free value `Config.launchImage`; when false it is the bytes the launch listed in memory. -/
  assetWritten : Bool
  deriving DecidableEq, Repr

namespace Config

/-! ## The timing constants (R8) -/

/-- `H_FP`, pixel clocks (R8). -/
def hFp : Nat := 16
/-- `H_SW`, pixel clocks (R8). -/
def hSw : Nat := 96
/-- `H_BP`, pixel clocks (R8). -/
def hBp : Nat := 48
/-- `H_ACT`, pixel clocks (R8). -/
def hAct : Nat := 640
/-- `V_FP`, lines (R8). -/
def vFp : Nat := 10
/-- `V_SW`, lines (R8). -/
def vSw : Nat := 2
/-- `V_BP`, lines (R8). -/
def vBp : Nat := 33
/-- `V_ACT`, lines (R8). -/
def vAct : Nat := 480
/-- `H_TOTAL = H_FP + H_SW + H_BP + H_ACT` (R8). -/
def hTotal : Nat := hFp + hSw + hBp + hAct
/-- `V_TOTAL = V_FP + V_SW + V_BP + V_ACT` (R8). -/
def vTotal : Nat := vFp + vSw + vBp + vAct
/-- `V_ACTIVE_START = V_FP + V_SW + V_BP`, the first active line (R10). -/
def vActiveStart : Nat := vFp + vSw + vBp
/-- `INIT_SCANLINE` (R13, R50). -/
def initScanline : Nat := 2

/-! ## Free values: no body, so a claim holds whatever they are -/

/-- The launch image (93 #21, "any value"): the byte at each offset into the asset, when the launch wrote all of it.
DESIGN CHOICE (log entry 5). -/
opaque launchImage : Nat → Byte

/-- Which agent the platform lets move next (R272: "any enabled step of any agent ... may be the next"), one free value
per step. DESIGN CHOICE (log entry 2). -/
opaque freeAgent : Nat → Agent

/-- `tmds_pixel` (R230): the three 10-bit symbols the sink's encoder makes of a pixel value, left uninterpreted by the
spec; the first argument is the number of bits of the pixel. -/
opaque tmdsPixel : Nat → BitVec 16 → BitVec 30

/-- `PIXEL_CLOCK_HZ` (R320), open; no rule reads it. -/
opaque pixelClockHz : Nat

end Config

end Sys2Proof
end

