-- ==== Sys2Proof/Syntax.lean ====
section
/-! DEFINITION. The words the engine delivers to the sink and the controller's operations (rules R100-R119), one
constructor per row of the opcode table; the sink mode that decides a word's kind; the assembler's lines (R121). -/

namespace Sys2Proof

/-- `sink.mode` (R41): what the sink expects the next word to be. The counts are pixel clocks or pixels still to come. -/
inductive SinkMode where
  | cmd
  | rawData (n : Nat)
  | pixData (n : Nat)
  deriving DecidableEq, Repr

/-- The instructions: every row of spec/opcode_table.json. `n` is the unsigned count of R103, whose
field has 12 bits by default (R14). -/
inductive Instr where
  /-- `RAW N` (R235). -/
  | raw (n : Nat)
  /-- `RAW_REPEAT N` (R232): hold the next word for `N` clocks. -/
  | rawRepeat (n : Nat)
  /-- `TMDS N` (R233): the marker, stream `N` pixels. -/
  | tmds (n : Nat)
  /-- `TMDS_REPEAT N` (R236). -/
  | tmdsRepeat (n : Nat)
  /-- Opcodes 0x4-0x7 (R237); `op` is the low two bits of the opcode. -/
  | reserved47 (op : BitVec 2) (n : Nat)
  /-- Opcodes 0x8-0xB (R237). -/
  | reserved8B (op : BitVec 2) (n : Nat)
  /-- Opcodes 0xC-0xD (R237); `op` is the opcode. Under another encoding (R14) also any reserved opcode that no other row
  has (0x0-0x3 or 0xF). -/
  | reservedCD (op : BitVec 4) (n : Nat)
  /-- Opcode 0xE (R237). -/
  | reservedE (n : Nat)
  /-- `NOP` (R234); its count must be 0, other counts are refused. -/
  | nop (n : Nat)
  /-- A command word with a bit set above bit 15 (R240). -/
  | cmdUpperBits (w : Word)
  /-- The control-data word for vsync level 0, hsync level 0 (R107, R238). -/
  | syncV0H0
  /-- Vsync level 0, hsync level 1. -/
  | syncV0H1
  /-- Vsync level 1, hsync level 0. -/
  | syncV1H0
  /-- Vsync level 1, hsync level 1. -/
  | syncV1H1
  /-- Any other word held as control data (R238). -/
  | ctlData (w : Word)
  /-- A pixel word of four one-byte pixels (R109, R239), highest bits first as the table lists them. -/
  | pixelWordP1 (px3 px2 px1 px0 : BitVec 8)
  /-- A pixel word of two two-byte pixels. -/
  | pixelWordP2 (px1 px0 : BitVec 16)
  /-- `OP_VSYNC(c)` (R142). -/
  | opVsync (c : Chan)
  /-- `OP_VBLANK(c)` (R143). -/
  | opVblank (c : Chan)
  /-- `OP_HDR(c)` (R144). -/
  | opHdr (c : Chan)
  /-- `OP_PIX(c)` (R145). -/
  | opPix (c : Chan)
  deriving DecidableEq, Repr

/-- The four payload kinds the classification chooses among (R21, R140). -/
inductive Payload where
  | vsync
  | vblank
  | hdr
  | pix
  deriving DecidableEq, Repr

/-- A line of the spec's assembler (R121). `hold` is the pseudo-instruction: count, vsync asserted, hsync asserted. -/
inductive AsmLine where
  | rawRepeat (n : Nat)
  | tmds (n : Nat)
  | nop
  | sync (v h : Bool)
  | word (x : Word)
  | raw (n : Nat)
  | tmdsRepeat (n : Nat)
  | hold (n : Nat) (va ha : Bool)
  deriving DecidableEq, Repr

end Sys2Proof
end

