-- ==== Sys2Proof/Decode.lean ====
section
/-! DEFINITION. The decoder (R100-R118, R231), total on every word in every sink mode and encoding; the encoder, written
from the same encoding tables; the assembler (R121). -/

namespace Sys2Proof

/-- The default encoding (R101-R106): the numbers of spec/opcode_table.json, UNVERIFIED (log entry 9). -/
def Encoding.default : Encoding where
  raw := 0x0#4
  rawRepeat := 0x1#4
  tmds := 0x2#4
  tmdsRepeat := 0x3#4
  nop := 0xF#4
  countWidth := 12
  ctrl00 := 0x354#10
  ctrl01 := 0x0AB#10
  ctrl10 := 0x154#10
  ctrl11 := 0x2AB#10
  lane0 := 0
  lane1 := 10
  lane2 := 20

/-! ## Fields of a command word (R101): the count lowest, the opcode above it, the rest zero -/

/-- The count field `N`. -/
def countField (e : Encoding) (w : Word) : Nat := w.toNat % 2 ^ e.countWidth

/-- The opcode field `CMD`. -/
def opcodeField (e : Encoding) (w : Word) : BitVec 4 := BitVec.ofNat 4 (w.toNat / 2 ^ e.countWidth)

/-- The bits `Z` that must be zero (R101, R240). -/
def upperField (e : Encoding) (w : Word) : Nat := w.toNat / 2 ^ (e.countWidth + 4)

/-- A command word from its opcode and count (R101). DESIGN CHOICE (log entry 30): a count that does not fit its field, for
which R103, R113 and R121 give no word, is taken modulo `2 ^ countWidth`. -/
def commandWord (e : Encoding) (op : BitVec 4) (n : Nat) : Word :=
  BitVec.ofNat 32 (op.toNat * 2 ^ e.countWidth + n % 2 ^ e.countWidth)

/-- The opcodes that spell no command of their own (R102, R231: "otherwise"). -/
def reservedOpcode (e : Encoding) (op : BitVec 4) : Bool :=
  op != e.raw && op != e.rawRepeat && op != e.tmds && op != e.tmdsRepeat && op != e.nop

/-! ## Control symbols -/

/-- The control symbol for the levels `(C1, C0)` (R105). -/
def ctrlSymbol (e : Encoding) : Bool → Bool → BitVec 10
  | false, false => e.ctrl00
  | false, true => e.ctrl01
  | true, false => e.ctrl10
  | true, true => e.ctrl11

/-- `SYNC(v, h)` (R104, R106, R107): lane 0 carries the levels, lanes 1 and 2 carry `CTRL_00`. -/
def syncWord (e : Encoding) (v h : Bool) : Word :=
  (ctrlSymbol e v h).setWidth 32 <<< e.lane0 ||| (ctrlSymbol e false false).setWidth 32 <<< e.lane1
    ||| (ctrlSymbol e false false).setWidth 32 <<< e.lane2

/-- The four control-data words that have a row of their own (R107). -/
def isSyncWord (e : Encoding) (w : Word) : Bool :=
  w == syncWord e false false || w == syncWord e false true || w == syncWord e true false || w == syncWord e true true

/-! ## The decoder -/

/-- The reserved row an opcode lies in (R237). -/
def reservedOf (op : BitVec 4) (n : Nat) : Instr :=
  if op.toNat / 4 = 1 then .reserved47 (op.extractLsb' 0 2) n
  else if op.toNat / 4 = 2 then .reserved8B (op.extractLsb' 0 2) n
  else if op = 0xE#4 then .reservedE n
  else .reservedCD op n

/-- The command of an opcode and a count (R102, R117, R231). -/
def commandOf (e : Encoding) (op : BitVec 4) (n : Nat) : Instr :=
  if op = e.raw then .raw n
  else if op = e.rawRepeat then .rawRepeat n
  else if op = e.tmds then .tmds n
  else if op = e.tmdsRepeat then .tmdsRepeat n
  else if op = e.nop then .nop n
  else reservedOf op n

/-- A word popped in mode `CMD` (R116, R231): the upper bits are tested first, then the opcode. -/
def decodeCommand (e : Encoding) (w : Word) : Instr :=
  if upperField e w = 0 then commandOf e (opcodeField e w) (countField e w) else .cmdUpperBits w

/-- A word popped in mode `RAWDATA(n)` (R116, R238): control data whatever its bits. -/
def decodeControl (e : Encoding) (w : Word) : Instr :=
  if w = syncWord e false false then .syncV0H0
  else if w = syncWord e false true then .syncV0H1
  else if w = syncWord e true false then .syncV1H0
  else if w = syncWord e true true then .syncV1H1
  else .ctlData w

/-- A word popped in mode `PIXDATA(n)` (R109, R116): pixels of the run's format. -/
def decodePixel (fmt : PixelFormat) (w : Word) : Instr :=
  match fmt with
  | .p1 => .pixelWordP1 (w.extractLsb' 24 8) (w.extractLsb' 16 8) (w.extractLsb' 8 8) (w.extractLsb' 0 8)
  | .p2 => .pixelWordP2 (w.extractLsb' 16 16) (w.extractLsb' 0 16)

/-- The instruction a word spells; its kind depends only on the sink mode (R100). -/
def decodeWord (e : Encoding) (m : SinkMode) (fmt : PixelFormat) (w : Word) : Instr :=
  match m with
  | .cmd => decodeCommand e w
  | .rawData _ => decodeControl e w
  | .pixData _ => decodePixel fmt w

/-- The payload operation on channel `c`; operations have no encoding and are selected by `classify` (R119, R140). -/
def payloadInstr (k : Payload) (c : Chan) : Instr :=
  match k with
  | .vsync => .opVsync c
  | .vblank => .opVblank c
  | .hdr => .opHdr c
  | .pix => .opPix c

/-! ## Bytes -/

/-- Why a byte string spells no instruction. -/
inductive DecodeError where
  /-- Fewer than the four bytes of a word. -/
  | truncated
  deriving DecidableEq, Repr

/-- A word from its bytes, lowest address first: little-endian (R74). -/
def wordOfBytes (b0 b1 b2 b3 : Byte) : Word := b3 ++ b2 ++ b1 ++ b0

/-- The byte of a word at offset `k` from its lowest address (R74). -/
def byteOfWord (w : Word) (k : Nat) : Byte := w.extractLsb' (8 * k) 8

/-- Decode the first instruction of a byte string, with the bytes that follow it. -/
def decodeBytes (e : Encoding) (m : SinkMode) (fmt : PixelFormat) :
    List Byte → Except DecodeError (Instr × List Byte)
  | b0 :: b1 :: b2 :: b3 :: rest => .ok (decodeWord e m fmt (wordOfBytes b0 b1 b2 b3), rest)
  | _ => .error .truncated

/-! ## The encoder -/

/-- The word of an instruction; an operation has none (R119). -/
def encode (e : Encoding) : Instr → Option Word
  | .raw n => some (commandWord e e.raw n)
  | .rawRepeat n => some (commandWord e e.rawRepeat n)
  | .tmds n => some (commandWord e e.tmds n)
  | .tmdsRepeat n => some (commandWord e e.tmdsRepeat n)
  | .reserved47 op n => some (commandWord e (0b01#2 ++ op) n)
  | .reserved8B op n => some (commandWord e (0b10#2 ++ op) n)
  | .reservedCD op n => some (commandWord e op n)
  | .reservedE n => some (commandWord e 0xE#4 n)
  | .nop n => some (commandWord e e.nop n)
  | .cmdUpperBits w => some w
  | .syncV0H0 => some (syncWord e false false)
  | .syncV0H1 => some (syncWord e false true)
  | .syncV1H0 => some (syncWord e true false)
  | .syncV1H1 => some (syncWord e true true)
  | .ctlData w => some w
  | .pixelWordP1 px3 px2 px1 px0 => some (px3 ++ px2 ++ px1 ++ px0)
  | .pixelWordP2 px1 px0 => some (px1 ++ px0)
  | .opVsync _ => none
  | .opVblank _ => none
  | .opHdr _ => none
  | .opPix _ => none

/-- The number of an operation in event traces (R119). -/
def Payload.traceNumber : Payload → Nat
  | .vsync => 0
  | .vblank => 1
  | .hdr => 2
  | .pix => 3

/-! ## The assembler (R121) -/

/-- `SYNC_LEVELS` (R108): the sync word for asserted or inactive syncs, under the run's polarities. -/
def syncLevels (e : Encoding) (vPol hPol va ha : Bool) : Word := syncWord e (va == vPol) (ha == hPol)

/-- A hold of `n` clocks (R113): the count command and the sync word. -/
def holdWords (e : Encoding) (vPol hPol : Bool) (n : Nat) (va ha : Bool) : List Word :=
  [commandWord e e.rawRepeat n, syncLevels e vPol hPol va ha]

/-- The words of one assembler line (R121). -/
def AsmLine.words (e : Encoding) (vPol hPol : Bool) : AsmLine → List Word
  | .rawRepeat n => [commandWord e e.rawRepeat n]
  | .tmds n => [commandWord e e.tmds n]
  | .nop => [commandWord e e.nop 0]
  | .sync v h => [syncWord e v h]
  | .word x => [x]
  | .raw n => [commandWord e e.raw n]
  | .tmdsRepeat n => [commandWord e e.tmdsRepeat n]
  | .hold n va ha => holdWords e vPol hPol n va ha

/-- The words of a command stream in assembler (R121). -/
def assemble (e : Encoding) (vPol hPol : Bool) (ls : List AsmLine) : List Word := ls.flatMap (AsmLine.words e vPol hPol)

/-! ## The host's table words -/

/-- The sink mode in which a word of the default encoding standing alone is read as its row of the opcode table: the
four `SYNC` words are control data, every other word a command. DESIGN CHOICE (log entry 10). -/
def tableMode (w : Word) : SinkMode := if isSyncWord Encoding.default w then .rawData 1 else .cmd

/-- The operation with a trace number, on channel 0, the channel handled first (R52, R119). -/
def decodeOperation (w : Nat) : Option Instr :=
  match w with
  | 0 => some (.opVsync .ch0)
  | 1 => some (.opVblank .ch0)
  | 2 => some (.opHdr .ch0)
  | 3 => some (.opPix .ch0)
  | _ => none

/-- The four bytes of a word as memory holds it (R74). -/
def wordBytes (w : Word) : List Byte := [byteOfWord w 0, byteOfWord w 1, byteOfWord w 2, byteOfWord w 3]

/-- The instruction the decoder reads from a row's word (host interface; log entry 10): rows shorter than a word are
the operations, numbered as R119 numbers them; every other row is one 32-bit word, laid out little-endian. -/
def decodeTableWord (nbits w : Nat) : Option Instr :=
  if nbits ≤ 8 then decodeOperation w
  else
    match decodeBytes Encoding.default (tableMode (BitVec.ofNat 32 w)) .p2 (wordBytes (BitVec.ofNat 32 w)) with
    | .ok (i, _) => if w < 2 ^ 32 then some i else none
    | .error _ => none

end Sys2Proof
end

