-- ==== Sys2Proof/Machine/Launch.lean ====
section
/-! DEFINITION. The launch parameters that `State.reset` stands for. -/

namespace Sys2Proof

/-- DESIGN CHOICE (log entry 1): the decided parameter values of the spec (R11, R13), the default encoding (R14),
`FMT = P2`, and one placement that satisfies R71. The open parameters have no value in the spec; no statement rests on these. -/
def Config.launch : Config where
  enc := Encoding.default
  fmt := .p2
  dupMode := .duplicate
  hPol := false
  vPol := false
  blankPad := 1
  fifoDepth := 8
  assetW := 640
  assetH := 240
  romVsyncBase := 0x1000#32
  romVblankBase := 0x1100#32
  romActiveBase := 0x1200#32
  assetBase := 0x10000#32
  scratchBase := 0x80000#32
  sinkAddr := 0x90000#32
  assetWritten := true

end Sys2Proof
end

