-- ==== Sys2Proof/Machine/Layout.lean ====
section
/-! DEFINITION. The derived sizes (R10), the command sequence ROM (R170-R178), the regions of system memory (R71), and what
each address holds when memory does not list it (R49). -/

namespace Sys2Proof.Machine

/-! ## Derived sizes (R9, R10) -/

/-- `BPP`, bytes per pixel (R9). -/
def bpp (cfg : Config) : Nat :=
  match cfg.fmt with
  | .p1 => 1
  | .p2 => 2

/-- `PPW`, pixels per word (R10). -/
def ppw (cfg : Config) : Nat := 4 / bpp cfg

/-- `ROW_BYTES` (R10). -/
def rowBytes (cfg : Config) : Nat := Config.hAct * bpp cfg

/-- `ROW_WORDS` (R10). -/
def rowWords (cfg : Config) : Nat := rowBytes cfg / 4

/-- `L_VSYNC = L_VBLANK` (R170, R178). -/
def blankLength (cfg : Config) : Nat := 6 + cfg.blankPad

/-- `L_ACTIVE` (R170). -/
def activeLength : Nat := 9

/-! ## The command sequence ROM -/

/-- `RAW_REPEAT n` and a sync word, at the run's polarities (R108, R113). -/
def hold (cfg : Config) (n : Nat) (va ha : Bool) : List Word :=
  holdWords cfg.enc cfg.vPol cfg.hPol n va ha

/-- The no-op word (R115). -/
def nopWord (cfg : Config) : Word := commandWord cfg.enc cfg.enc.nop 0

/-- The marker word (R114). -/
def markerWord (cfg : Config) : Word := commandWord cfg.enc cfg.enc.tmds Config.hAct

/-- A blanking line (R171, R172): three holds at one vsync level, then the padding no-ops (R178). -/
def blankSequence (cfg : Config) (va : Bool) : List Word :=
  hold cfg Config.hFp va false ++ hold cfg Config.hSw va true ++ hold cfg (Config.hBp + Config.hAct) va false
    ++ List.replicate cfg.blankPad (nopWord cfg)

/-- The `VSYNC` sequence (R171). -/
def romVsync (cfg : Config) : List Word := blankSequence cfg true

/-- The `VBLANK` sequence (R172). -/
def romVblank (cfg : Config) : List Word := blankSequence cfg false

/-- The `HDR` sequence (R173). -/
def romActive (cfg : Config) : List Word :=
  hold cfg Config.hFp false false ++ [nopWord cfg] ++ hold cfg Config.hSw false true ++ [nopWord cfg]
    ++ hold cfg Config.hBp false false ++ [markerWord cfg]

/-! ## Regions (R71) -/

/-- The regions of R71. -/
inductive RegionKind where
  | romVsync
  | romVblank
  | romActive
  | asset
  | scratch
  deriving DecidableEq, Repr

/-- A half-open byte range (R71). -/
structure Region where
  kind : RegionKind
  base : Nat
  size : Nat
  deriving DecidableEq, Repr

/-- The regions of the run's placement; `SCRATCH` exists for `P1` only (R71, R149). -/
def regions (cfg : Config) : List Region :=
  [ ⟨.romVsync, cfg.romVsyncBase.toNat, 4 * blankLength cfg⟩,
    ⟨.romVblank, cfg.romVblankBase.toNat, 4 * blankLength cfg⟩,
    ⟨.romActive, cfg.romActiveBase.toNat, 4 * activeLength⟩,
    ⟨.asset, cfg.assetBase.toNat, cfg.assetW * cfg.assetH * bpp cfg⟩ ]
  ++ (match cfg.fmt with
      | .p1 => [⟨.scratch, cfg.scratchBase.toNat, rowBytes cfg⟩]
      | .p2 => [])

/-- The region holds the `n` bytes from `a`. -/
def Region.holds (r : Region) (a n : Nat) : Bool := decide (r.base ≤ a) && decide (a + n ≤ r.base + r.size)

/-- The region that holds the `n` bytes from `a`, if there is one (R73 (b)). -/
def regionOf (cfg : Config) (a n : Nat) : Option Region := (regions cfg).find? (·.holds a n)

/-! ## One byte -/

/-- The byte of a word list at a byte offset, little-endian (R74). -/
def wordListByte (ws : List Word) (off : Nat) : Option Byte := (ws[off / 4]?).map (byteOfWord · (off % 4))

/-- What an address that memory does not list reads as: the ROM's contents (R49, R176); a byte of the launch image when
the launch wrote the asset (R49, log entry 5); no value for an asset byte the launch did not list and for the scratch
buffer (R49, R73 (c)); no value outside every region. -/
def unlisted (cfg : Config) (a : Nat) : Option Byte :=
  match regionOf cfg a 1 with
  | none => none
  | some r =>
    match r.kind with
    | .romVsync => wordListByte (romVsync cfg) (a - r.base)
    | .romVblank => wordListByte (romVblank cfg) (a - r.base)
    | .romActive => wordListByte (romActive cfg) (a - r.base)
    | .asset => if cfg.assetWritten then some (Config.launchImage (a - r.base)) else none
    | .scratch => none

/-- The addresses memory may list: the scratch buffer, and the asset when the launch lists it. -/
def holdsCell (cfg : Config) (a : Nat) : Bool :=
  match regionOf cfg a 1 with
  | none => false
  | some r =>
    match r.kind with
    | .scratch => true
    | .asset => !cfg.assetWritten
    | .romVsync => false
    | .romVblank => false
    | .romActive => false

/-- An asset byte that the launch lists rather than the launch image gives (R49, log entry 5). -/
def assetCell (cfg : Config) (a : Nat) : Bool :=
  !cfg.assetWritten && (regionOf cfg a 1).map Region.kind == some .asset

end Sys2Proof.Machine
end

