-- ==== Sys2Proof/Machine/State.lean ====
section
/-! DEFINITION. The state of the scanline engine (10_state.md), plain data; the faults and refusals of R268 and R269;
the event record of R16; the state after reset (R49-R52, R290). -/

namespace Sys2Proof.Machine

/-- Who read an unwritten byte (R268, `UNWRITTEN_READ`: "channel or controller"). -/
inductive Reader where
  | channel (c : Chan)
  | controller
  deriving DecidableEq, Repr

/-- The faults of R268 with their recorded values, and the model's own stuck state. Every one stops the machine for
good (R271), so each is safe: a claim about a run that meets one is not proved. -/
inductive Fault where
  /-- Code 1, raised by `trigger` (R191, R197): channel `c` is chain-triggered before it was reprogrammed, the missed
  deadline. Safe. -/
  | underrun (c : Chan)
  /-- Code 2, raised by `trigger` (R191, R197): channel `c` is chain-triggered while busy. Safe. -/
  | chainBusy (c : Chan)
  /-- Code 3, raised by `identify` (R263): the parity flag names a channel with no completion pending; the flag and
  both pending bits are recorded. Safe. -/
  | parityDesync (parity pending0 pending1 : Bool)
  /-- Code 4, raised by `program` (R141): a descriptor write to the busy channel `c`. Safe. -/
  | busyReprogram (c : Chan)
  /-- Code 5, raised by `program` (R141): a descriptor with a word count of 0. Safe. -/
  | zeroCount (c : Chan)
  /-- Code 6, raised by a transfer step (R73, R195): a read at an address that is no multiple of 4. Safe. -/
  | misaligned (c : Chan) (a : Word)
  /-- Code 7, raised by a transfer step (R73, R195) or by the scratch copy (R148): a read of a byte nothing has written;
  `a` is that byte's address (log entry 16). Safe. -/
  | unwrittenRead (who : Reader) (a : Word)
  /-- Code 8, raised by `opPix` (R146): active row `r` maps outside the asset. Safe. -/
  | rowRange (r : Nat)
  /-- Code 9, raised by the scratch copy (R148): it would overwrite bytes busy channel `c` has still to read. Safe. -/
  | scratchRace (c : Chan)
  /-- The model's own (log entry 8), raised by the step when no agent has an enabled step (R270). Safe. -/
  | stuck
  deriving DecidableEq, Repr

/-- The refusals of R269 and the model's own. Each stops the machine for good (R271), so each is safe. -/
inductive Refusal where
  /-- Raised by `CMD_UPPER_BITS` (R240): a command word with a bit set above bit 15. Safe. -/
  | cmdUpperBits
  /-- Raised by `RAW` (R235). Safe. -/
  | rawNotModelled
  /-- Raised by `TMDS_REPEAT` (R236). Safe. -/
  | tmdsRepeatNotModelled
  /-- Raised by the reserved opcodes 0x4-0xE (R237). Safe. -/
  | reservedCmd
  /-- Raised by `RAW_REPEAT` and `TMDS` with a count of 0 (R241). Safe. -/
  | zeroCountCmd
  /-- Raised by `TMDS` with a count that is not a multiple of `PPW` (R233), and by a pixel word when fewer than `PPW`
  pixels are left, the same partial last word (log entry 13). Safe. -/
  | tmdsPartialWord
  /-- Raised by `NOP` with a non-zero count (R234). Safe. -/
  | nopNonzeroCount
  /-- Raised by the scratch copy when a target byte lies in a ROM region (R72). Safe. -/
  | romWrite
  /-- The model's own (log entry 19), raised by the scratch copy when a target byte lies in the asset, which "no step
  of the block writes" (R72). Safe. -/
  | assetWrite
  /-- The model's own (log entry 19), raised by the scratch copy when a target byte lies in no region (R71). Safe. -/
  | unmappedWrite
  /-- The model's own (log entry 12), raised by a data word's or command's meaning outside the sink mode or format in
  which a word spells it (R100); no step reaches it. Safe. -/
  | notInMode
  /-- An instruction with no meaning in the model, by its mnemonic; no arm of `exec` answers it. Safe. -/
  | notModelled (mnemonic : String)
  deriving DecidableEq, Repr

/-- The controller's registers (R32-R34). -/
structure Controller where
  /-- `ctl.scanline` (R32). -/
  scanline : Word
  /-- `ctl.header_posted` (R33). -/
  headerPosted : Bool
  /-- `ctl.parity` (R34); `false` names channel 0. -/
  parity : Bool
  deriving DecidableEq, Repr

/-- One channel's registers (R35). `chain_to` is hard-wired (R36) and has no storage: see `Chan.chainTo`. -/
structure Channel where
  /-- `src`, the descriptor's byte address. -/
  src : Word
  /-- `count`, the descriptor's word count. -/
  count : Word
  /-- `cur`, the live read pointer. -/
  cur : Word
  /-- `remaining`, the words still to move. -/
  remaining : Word
  /-- `busy`, from trigger to completion. -/
  busy : Bool
  /-- `armed` (R38): the descriptor has been written since the channel last started. -/
  armed : Bool
  deriving DecidableEq, Repr

/-- The completion interrupt's bits (R40). -/
structure Irq where
  pending0 : Bool
  pending1 : Bool
  enable0 : Bool
  enable1 : Bool
  deriving DecidableEq, Repr

/-- A clock symbol (R230): one pixel clock of a control-data word, or of a pixel of 8 or 16 bits. -/
inductive Symbol where
  | ctl (w : Word)
  | px8 (p : BitVec 8)
  | px16 (p : BitVec 16)
  deriving DecidableEq, Repr

/-- The sink's state (R41). -/
structure Sink where
  /-- The words in the FIFO, the head first. -/
  fifo : List Word
  mode : SinkMode
  /-- The symbols emitted so far, the oldest first. -/
  out : List Symbol
  deriving DecidableEq, Repr

/-- The events of R16, oldest first in the record. -/
inductive Event where
  /-- A channel started on a descriptor (R191). -/
  | start (c : Chan) (src count : Word)
  /-- A channel moved the word `w` it read at `address` (R194). -/
  | word (c : Chan) (address w : Word)
  /-- A channel completed (R196). -/
  | complete (c : Chan)
  /-- A handler invocation (R160): channel, payload, index and flag before and after. -/
  | handled (c : Chan) (k : Payload) (sBefore : Word) (hpBefore : Bool) (sAfter : Word) (hpAfter : Bool)
  deriving DecidableEq, Repr

/-- How far the setup context is (R294): the step it takes next, or all three done. -/
inductive SetupStage where
  | preload
  | enableIrq
  | start
  | done
  deriving DecidableEq, Repr

/-- The whole machine. -/
structure State where
  /-- The launch parameters (R9, R11-R13); no step writes them. -/
  cfg : Config
  /-- The controller (R32-R34). -/
  ctl : Controller
  /-- Channel 0 (R35). -/
  ch0 : Channel
  /-- Channel 1 (R35). -/
  ch1 : Channel
  /-- The interrupt bits (R40). -/
  irq : Irq
  /-- The sink (R41). -/
  sink : Sink
  /-- The written bytes of the scratch buffer, and of the asset when the launch lists it, addresses strictly rising
  (R42; log entries 5, 6). -/
  mem : List Host.Cell
  /-- The fault mark (R43). -/
  fault : Option Fault
  /-- The refusal mark (R43). -/
  refused : Option Refusal
  /-- Set by `Start` (R43, R293). -/
  started : Bool
  /-- The setup context's progress (R294). -/
  setup : SetupStage
  /-- The event record (R16). -/
  events : List Event
  /-- MODEL'S OWN (log entry 2): the agent that moves next, if it has an enabled step. -/
  turn : Agent
  /-- MODEL'S OWN (log entry 2): how many turns have been drawn. -/
  tick : Nat
  deriving DecidableEq, Repr

/-- A channel at reset (R49). The four registers the spec calls unwritten hold 0, DESIGN CHOICE (log entry 4): nothing
reads them while the channel is neither armed nor busy. -/
def Channel.reset : Channel where
  src := 0#32
  count := 0#32
  cur := 0#32
  remaining := 0#32
  busy := false
  armed := false

/-- The machine after reset (R49-R52, R290) for given launch parameters and the asset bytes the launch lists. Of the
listed cells only those of the asset count: the scratch buffer is unwritten (R49). -/
def State.resetWith (cfg : Config) (image : List Host.Cell) : State where
  cfg := cfg
  ctl := { scanline := BitVec.ofNat 32 Config.initScanline, headerPosted := false, parity := false }
  ch0 := Channel.reset
  ch1 := Channel.reset
  irq := { pending0 := false, pending1 := false, enable0 := false, enable1 := false }
  sink := { fifo := [], mode := .cmd, out := [] }
  mem := image.filter (fun c => assetCell cfg c.1)
  fault := none
  refused := none
  started := false
  setup := .preload
  events := []
  turn := .setup
  tick := 0

/-- The machine right after reset, with nothing listed in memory and the launch of `Config.launch` (log entry 1). -/
def State.reset : State := State.resetWith Config.launch []

end Sys2Proof.Machine
end

