-- ==== Sys2Proof/Machine/Memory.lean ====
section
/-! DEFINITION. Reading and writing system memory (R72-R79), and its canonical form. -/

namespace Sys2Proof.Machine

/-! ## One byte -/

/-- The byte listed at an address. -/
def lookup : List Host.Cell → Nat → Option Byte
  | [], _ => none
  | (k, b) :: rest, a => if k = a then some b else lookup rest a

/-- One byte of system memory; `none` for a byte nothing has written or an address in no region. -/
def readByte (cfg : Config) (m : List Host.Cell) (a : Nat) : Option Byte :=
  if holdsCell cfg a then lookup m a else unlisted cfg a

/-! ## The canonical form -/

/-- Addresses strictly rise, and each is one that memory may list. -/
def Memory.wfFrom (cfg : Config) (lo : Nat) : List Host.Cell → Bool
  | [] => true
  | (k, _) :: rest => decide (lo ≤ k) && holdsCell cfg k && Memory.wfFrom cfg (k + 1) rest

/-- The one canonical form of memory: no entry repeats another or equals what its address reads as unlisted, since a
listed address has no unlisted value. -/
def Memory.wf (cfg : Config) (m : List Host.Cell) : Bool := Memory.wfFrom cfg 0 m

/-! ## A channel's word read (R73) -/

/-- What a channel read finds, in the order R273 tests. -/
inductive WordRead where
  | misaligned
  | notAdmitted
  | unwritten (a : Word)
  | value (w : Word)
  deriving DecidableEq, Repr

/-- `MemRead(a, 4)` under the admission of R73: alignment, one region, every byte written; little-endian (R74). -/
def readWord (cfg : Config) (m : List Host.Cell) (a : Word) : WordRead :=
  if a.toNat % 4 ≠ 0 then .misaligned
  else if (regionOf cfg a.toNat 4).isNone then .notAdmitted
  else
    match readByte cfg m a.toNat, readByte cfg m (a.toNat + 1), readByte cfg m (a.toNat + 2),
      readByte cfg m (a.toNat + 3) with
    | none, _, _, _ => .unwritten a
    | some _, none, _, _ => .unwritten (a + 1#32)
    | some _, some _, none, _ => .unwritten (a + 2#32)
    | some _, some _, some _, none => .unwritten (a + 3#32)
    | some b0, some b1, some b2, some b3 => .value (wordOfBytes b0 b1 b2 b3)

/-! ## Writing a byte (R72, R148) -/

/-- The refusal a write of the byte at `a` meets: only the scratch buffer may be written (R71, R72). -/
def writeRefusal (cfg : Config) (a : Word) : Option Refusal :=
  match (regionOf cfg a.toNat 1).map Region.kind with
  | some .scratch => none
  | some .asset => some .assetWrite
  | some .romVsync => some .romWrite
  | some .romVblank => some .romWrite
  | some .romActive => some .romWrite
  | none => some .unmappedWrite

/-- Write the byte at `a`, keeping the addresses strictly rising. A writable address has no unlisted value, so every
written byte is listed. -/
def writeByte (a : Nat) (b : Byte) : List Host.Cell → List Host.Cell
  | [] => [(a, b)]
  | (k, c) :: rest =>
    if a < k then (a, b) :: (k, c) :: rest
    else if a = k then (a, b) :: rest
    else (k, c) :: writeByte a b rest

end Sys2Proof.Machine
end

