-- ==== Sys2Proof/Machine/Ops.lean ====
section
/-! DEFINITION. The named operations over the state: field accessors and updates, the result of a step with the state a
stop leaves (R18, R271), and the shared operations of the controller and the channels: entering and leaving the
completion handler (R160, R262-R266), programming a channel (R141), triggering one (R191), the scratch copy (R148). -/

namespace Sys2Proof

/-- The other channel, `1 - c`. -/
def Chan.other : Chan → Chan
  | .ch0 => .ch1
  | .ch1 => .ch0

/-- `ch[c].chain_to`, hard-wired to `1 - c` (R36). -/
def Chan.chainTo (c : Chan) : Chan := Chan.other c

end Sys2Proof

namespace Sys2Proof.Machine

/-! ## Results -/

/-- The result of a step or of one of its parts: the state after it, or a stop with the state it leaves, writes made
before the failing assert included (R18, R271). -/
inductive Res where
  | done (s : State)
  | fault (f : Fault) (s : State)
  | refuse (r : Refusal) (s : State)
  deriving DecidableEq, Repr

/-- The outcome of a result: what the host sees of it. -/
def Res.outcome : Res → Host.Outcome State Fault Refusal
  | .done s => .next s
  | .fault f _ => .fault f
  | .refuse r _ => .refused r

/-- One part of a step after another (R19). -/
def Res.andThen (r : Res) (k : State → Res) : Res :=
  match r with
  | .done s => k s
  | .fault f s => .fault f s
  | .refuse r s => .refuse r s

/-- The state of R18 after a step: a stop records its mark and keeps the writes made before it (R43, R271). -/
def Res.marked : Res → State
  | .done s => s
  | .fault f s => { s with fault := some f }
  | .refuse r s => { s with refused := some r }

/-- Apply a state update to an outcome. -/
def mapOutcome (g : State → State) : Host.Outcome State Fault Refusal → Host.Outcome State Fault Refusal
  | .next s => .next (g s)
  | .fault f => .fault f
  | .refused r => .refused r

/-- The code of a fault (R268); the model's own stuck state has none. -/
def Fault.code : Fault → Option Nat
  | .underrun _ => some 1
  | .chainBusy _ => some 2
  | .parityDesync _ _ _ => some 3
  | .busyReprogram _ => some 4
  | .zeroCount _ => some 5
  | .misaligned _ _ => some 6
  | .unwrittenRead _ _ => some 7
  | .rowRange _ => some 8
  | .scratchRace _ => some 9
  | .stuck => none

/-! ## Accessors and updates -/

/-- `ch[c]` (R18). -/
def State.chan (s : State) : Chan → Channel
  | .ch0 => s.ch0
  | .ch1 => s.ch1

/-- Write `ch[c]`. -/
def State.setChan (s : State) (c : Chan) (v : Channel) : State :=
  match c with
  | .ch0 => { s with ch0 := v }
  | .ch1 => { s with ch1 := v }

/-- `irq.pending[c]` (R40). -/
def State.pending (s : State) : Chan → Bool
  | .ch0 => s.irq.pending0
  | .ch1 => s.irq.pending1

/-- Write `irq.pending[c]`. -/
def State.setPending (s : State) (c : Chan) (b : Bool) : State :=
  match c with
  | .ch0 => { s with irq := { s.irq with pending0 := b } }
  | .ch1 => { s with irq := { s.irq with pending1 := b } }

/-- Write the whole interrupt register file. -/
def State.setIrq (s : State) (v : Irq) : State := { s with irq := v }

/-- Write `ctl.scanline`. -/
def State.setScanline (s : State) (v : Word) : State := { s with ctl := { s.ctl with scanline := v } }

/-- Write `ctl.header_posted`. -/
def State.setHeaderPosted (s : State) (b : Bool) : State := { s with ctl := { s.ctl with headerPosted := b } }

/-- Write `ctl.parity`. -/
def State.setParity (s : State) (b : Bool) : State := { s with ctl := { s.ctl with parity := b } }

/-- Write `sink.fifo`. -/
def State.setFifo (s : State) (ws : List Word) : State := { s with sink := { s.sink with fifo := ws } }

/-- Enqueue a word at the tail of `sink.fifo`: the one effect of a write to `SINK_ADDR` (R37, R78). -/
def State.push (s : State) (w : Word) : State := s.setFifo (s.sink.fifo ++ [w])

/-- Write `sink.mode`. -/
def State.setMode (s : State) (m : SinkMode) : State := { s with sink := { s.sink with mode := m } }

/-- Append to `sink.out` (R230). -/
def State.emit (s : State) (l : List Symbol) : State := { s with sink := { s.sink with out := s.sink.out ++ l } }

/-- Write memory. -/
def State.setMem (s : State) (m : List Host.Cell) : State := { s with mem := m }

/-- Write `started`. -/
def State.setStarted (s : State) (b : Bool) : State := { s with started := b }

/-- Write the setup context's progress. -/
def State.setSetup (s : State) (x : SetupStage) : State := { s with setup := x }

/-- Append to the event record (R16). -/
def State.record (s : State) (e : Event) : State := { s with events := s.events ++ [e] }

/-- The next turn is drawn from the free value (log entry 2). -/
def State.passTurn (s : State) : State := { s with turn := Config.freeAgent s.tick, tick := s.tick + 1 }

/-! ## The handler's entry (R262-R265) -/

/-- The channel the parity flag names (R34). -/
def parityChannel (parity : Bool) : Chan := if parity then .ch1 else .ch0

/-- `Identify()` (R263): the parity flag names the channel, whose completion must be pending. -/
def identify (s : State) : Except Fault Chan :=
  if s.pending (parityChannel s.ctl.parity) then .ok (parityChannel s.ctl.parity)
  else .error (.parityDesync s.ctl.parity s.irq.pending0 s.irq.pending1)

/-- `Ack(c)` (R264). -/
def acknowledge (c : Chan) (s : State) : State := s.setPending c false

/-- `Toggle()` (R265). -/
def toggle (s : State) : State := s.setParity (!s.ctl.parity)

/-- Taking the completion interrupt, up to the choice of the payload (R160): `Ack` and `Toggle`. Nothing is saved
(R262). -/
def enterHandler (c : Chan) (s : State) : State := toggle (acknowledge c s)

/-! ## The return from the handler (R150, R160, R266) -/

/-- The index after `s` (R150, R151). -/
def nextScanline (s : Word) : Word := BitVec.ofNat 32 ((s.toNat + 1) % Config.vTotal)

/-- `Advance()` (R150): the index advances unless a header was just posted. -/
def advance (s : State) : State :=
  match s.ctl.headerPosted with
  | true => s
  | false => s.setScanline (nextScanline s.ctl.scanline)

/-- The end of a handler invocation (R160, R266): advance, then record the event. `before` is the state at entry;
nothing is restored. -/
def leaveHandler (before : State) (c : Chan) (k : Payload) (s : State) : State :=
  let t := advance s
  t.record (.handled c k before.ctl.scanline before.ctl.headerPosted t.ctl.scanline t.ctl.headerPosted)

/-! ## Programming and triggering a channel -/

/-- `Program(c, a, n)` (R141): the busy check, then the count check (R273); it starts nothing (R78). -/
def program (c : Chan) (a n : Word) (s : State) : Res :=
  if (s.chan c).busy then .fault (.busyReprogram c) s
  else if n = 0#32 then .fault (.zeroCount c) s
  else .done (s.setChan c { s.chan c with src := a, count := n, armed := true })

/-- `Trigger(c)` (R191): the busy check, then the armed check (R273). -/
def trigger (c : Chan) (s : State) : Res :=
  if (s.chan c).busy then .fault (.chainBusy c) s
  else if (s.chan c).armed then
    .done ((s.setChan c
        { s.chan c with cur := (s.chan c).src, remaining := (s.chan c).count, busy := true, armed := false }).record
      (.start c (s.chan c).src (s.chan c).count))
  else .fault (.underrun c) s

/-! ## The scratch copy (R148) -/

/-- The bytes channel `ch` has still to read overlap the scratch buffer, as address ranges modulo 2^32 (R17, R148). -/
def overlapsScratch (cfg : Config) (ch : Channel) : Bool :=
  decide (0 < ch.remaining.toNat) &&
    (decide ((cfg.scratchBase - ch.cur).toNat < 4 * ch.remaining.toNat) ||
      decide ((ch.cur - cfg.scratchBase).toNat < rowBytes cfg))

/-- The busy channel whose unread bytes overlap the scratch buffer, if there is one (R148). Were both to, `SCRATCH_RACE`
records channel 0: R148's "for each busy channel" gives no order. DESIGN CHOICE (log entry 27). -/
def racingChannel (s : State) : Option Chan :=
  [Chan.ch0, Chan.ch1].find? (fun k => (s.chan k).busy && overlapsScratch s.cfg (s.chan k))

/-- The loop of `ScratchCopy` (R19, R148): `n` bytes from `src` on to `dst` on, one after the other, so that a byte just
written is what a later one reads. `m` is the memory so far. A source byte nothing has written faults, then a target
that may not be written is refused (R72; log entry 17); the bytes copied before a stop stay (R271). -/
def copyBytes (s : State) (src dst : Word) : Nat → List Host.Cell → Res
  | 0, m => .done (s.setMem m)
  | n + 1, m =>
    match readByte s.cfg m src.toNat with
    | none => .fault (.unwrittenRead .controller src) (s.setMem m)
    | some b =>
      match writeRefusal s.cfg dst with
      | some r => .refuse r (s.setMem m)
      | none => copyBytes s (src + 1#32) (dst + 1#32) n (writeByte dst.toNat b m)

/-- `ScratchCopy` (R76, R148) of the row at `a`, in one atomic step: the race check, then the loop. -/
def copyRow (a : Word) (s : State) : Res :=
  match racingChannel s with
  | some k => .fault (.scratchRace k) s
  | none => copyBytes s a s.cfg.scratchBase (rowBytes s.cfg) s.mem

end Sys2Proof.Machine
end

