-- ==== Sys2Proof/Machine/Operands.lean ====
section
/-! DEFINITION. Operand forms: the classification that selects an operation (R140), row sourcing (R146, R147), pixels
of a word and colour packing (R75, R109-R112), the lanes of a symbol (R104, R230), which command counts are admitted
(R117, R233, R241). -/

namespace Sys2Proof.Machine

/-! ## Classification (R140) -/

/-- `classify(s, hp)` (R140). -/
def classify (s : Word) (hp : Bool) : Payload :=
  if Config.vFp ≤ s.toNat ∧ s.toNat < Config.vFp + Config.vSw then .vsync
  else if s.toNat < Config.vActiveStart then .vblank
  else if hp then .pix
  else .hdr

/-- The operation the controller's state selects, on channel `c` (R119, R140). -/
def selectedOp (s : State) (c : Chan) : Instr := payloadInstr (classify s.ctl.scanline s.ctl.headerPosted) c

/-! ## Row sourcing -/

/-- The active-picture row `r = s - V_ACTIVE_START` (R145). -/
def activeRow (s : Word) : Nat := (s - BitVec.ofNat 32 Config.vActiveStart).toNat

/-- `row_map(r)` (R146); `none` is the fault `ROW_RANGE`. -/
def rowMap (cfg : Config) (r : Nat) : Option Nat :=
  if 2 * cfg.assetH ≤ r then none
  else if r < cfg.assetH then some r
  else
    match cfg.dupMode with
    | .duplicate => some (r - cfg.assetH)
    | .mirror => some (2 * cfg.assetH - 1 - r)

/-- `row_addr(a)` (R147), modulo 2^32. DESIGN CHOICE (log entry 29): the stride is R147's first form, `ASSET_W × BPP`, also
where `ASSET_W ≠ H_ACT` and its second form, `ROW_BYTES`, differs. -/
def rowAddr (cfg : Config) (a : Nat) : Word := cfg.assetBase + BitVec.ofNat 32 (a * (cfg.assetW * bpp cfg))

/-! ## Counts -/

/-- `TMDS N` with a whole number of pixel words (R233). -/
def wholeWords (cfg : Config) (n : Nat) : Bool := n % ppw cfg == 0

/-- The row is one of those the sink gives a meaning, with a count it admits (R102, R117, R232-R234, R241). -/
def admitted (cfg : Config) : Instr → Bool
  | .raw _ => false
  | .rawRepeat n => n != 0
  | .tmds n => n != 0 && wholeWords cfg n
  | .tmdsRepeat _ => false
  | .reserved47 _ _ => false
  | .reserved8B _ _ => false
  | .reservedCD _ _ => false
  | .reservedE _ => false
  | .nop n => n == 0
  | .cmdUpperBits _ => false
  | .syncV0H0 => true
  | .syncV0H1 => true
  | .syncV1H0 => true
  | .syncV1H1 => true
  | .ctlData _ => true
  | .pixelWordP1 _ _ _ _ => true
  | .pixelWordP2 _ _ => true
  | .opVsync _ => true
  | .opVblank _ => true
  | .opHdr _ => true
  | .opPix _ => true

/-! ## Pixels and symbols -/

/-- The symbols of a one-byte-pixel word, pixel 0 first (R75, R239). -/
def pixels1 (px3 px2 px1 px0 : BitVec 8) : List Symbol := [.px8 px0, .px8 px1, .px8 px2, .px8 px3]

/-- The symbols of a two-byte-pixel word, pixel 0 first (R75, R239). -/
def pixels2 (px1 px0 : BitVec 16) : List Symbol := [.px16 px0, .px16 px1]

/-- Lane `k` of a clock's three symbols, lane 0 lowest. -/
def laneOf (x : BitVec 30) (k : Nat) : BitVec 10 := x.extractLsb' (10 * k) 10

/-- The three 10-bit symbols of one clock (R104, R230), lane 0 lowest; those of a pixel are the uninterpreted
`tmds_pixel`. -/
def Symbol.lanes (e : Encoding) : Symbol → BitVec 30
  | .ctl w => w.extractLsb' e.lane2 10 ++ w.extractLsb' e.lane1 10 ++ w.extractLsb' e.lane0 10
  | .px8 p => Config.tmdsPixel 8 (p.setWidth 16)
  | .px16 p => Config.tmdsPixel 16 p

/-! ## Colour packing (R110-R112): what the asset's bytes mean; the engine never runs these -/

/-- `pack1(r, g, b)` (R110). -/
def pack1 (r g b : BitVec 8) : BitVec 8 := r.extractLsb' 6 2 ++ g.extractLsb' 5 3 ++ b.extractLsb' 5 3

/-- `unpack1(p)` (R112). -/
def unpack1 (p : BitVec 8) : BitVec 2 × BitVec 3 × BitVec 3 :=
  (p.extractLsb' 6 2, p.extractLsb' 3 3, p.extractLsb' 0 3)

/-- `pack2(r, g, b)` (R111). -/
def pack2 (r g b : BitVec 8) : BitVec 16 := r.extractLsb' 3 5 ++ g.extractLsb' 2 6 ++ b.extractLsb' 3 5

/-- `unpack2(p)` (R112). -/
def unpack2 (p : BitVec 16) : BitVec 5 × BitVec 6 × BitVec 5 :=
  (p.extractLsb' 11 5, p.extractLsb' 5 6, p.extractLsb' 0 5)

end Sys2Proof.Machine
end

