-- ==== Sys2Proof/Machine/Flags.lean ====
section
/-! DEFINITION. The status flags (R46) and the conditions read from them: the interrupt line (R40), the sink's request
signal (R193), what enables each agent's step (R193, R196, R231, R262, R291, R294). -/

namespace Sys2Proof.Machine

/-- `irq.line` (R40). -/
def irqLine (s : State) : Bool := (s.irq.pending0 && s.irq.enable0) || (s.irq.pending1 && s.irq.enable1)

/-- The sink's request signal (R193): the FIFO has room. -/
def fifoHasRoom (s : State) : Bool := decide (s.sink.fifo.length < s.cfg.fifoDepth)

/-- Neither mark is set (R271: a mark ends every agent's steps). -/
def unmarked (s : State) : Bool := s.fault.isNone && s.refused.isNone

/-- Channel `c` may move a word (R193), except that a read outside every region is no step (R73 (b), R195). -/
def transferEnabled (c : Chan) (s : State) : Bool :=
  (s.chan c).busy && (s.chan c).remaining != 0#32 && fifoHasRoom s &&
    readWord s.cfg s.mem (s.chan c).cur != .notAdmitted

/-- Channel `c` may complete (R196). -/
def completeEnabled (c : Chan) (s : State) : Bool := (s.chan c).busy && (s.chan c).remaining == 0#32

/-- The agent has an enabled step, in a state without marks. Before `started` only the setup context has steps, after
it the setup context has none (R43, R294). -/
def enabled (s : State) : Agent → Bool
  | .setup => !s.started && s.setup != .done
  | .controller => s.started && irqLine s
  | .channel c => s.started && (transferEnabled c s || completeEnabled c s)
  | .sink => s.started && !s.sink.fifo.isEmpty

/-- The agents in the order the model falls back on when the turn names one that has no step. -/
def allAgents : List Agent := [.setup, .controller, .channel .ch0, .channel .ch1, .sink]

/-- The agent that moves: the one whose turn it is, if it has a step, else one that has (R272; log entry 2). -/
def mover (s : State) : Option Agent := if enabled s s.turn then some s.turn else allAgents.find? (enabled s)

end Sys2Proof.Machine
end

