-- ==== Sys2Proof/Machine/Commands.lean ====
section
/-! DEFINITION. The command words (R232-R237, R240, R241): what each does once the sink has popped it in mode `CMD`. -/

namespace Sys2Proof.Machine

/-- A command is read only in mode `CMD` (R100). -/
def inCmd (s : State) (r : Res) : Res :=
  match s.sink.mode with
  | .cmd => r
  | .rawData _ => .refuse .notInMode s
  | .pixData _ => .refuse .notInMode s

/-- `RAW N` (R235). -/
def rawRes (_n : Nat) (s : State) : Res := .refuse .rawNotModelled s

/-- `RAW_REPEAT N` (R232, R241). -/
def rawRepeatRes (n : Nat) (s : State) : Res :=
  inCmd s (if n = 0 then .refuse .zeroCountCmd s else .done (s.setMode (.rawData n)))

/-- `TMDS N` (R233, R241): the zero count is tested first. -/
def tmdsRes (n : Nat) (s : State) : Res :=
  inCmd s
    (if n = 0 then .refuse .zeroCountCmd s
     else if wholeWords s.cfg n then .done (s.setMode (.pixData n))
     else .refuse .tmdsPartialWord s)

/-- `TMDS_REPEAT N` (R236). -/
def tmdsRepeatRes (_n : Nat) (s : State) : Res := .refuse .tmdsRepeatNotModelled s

/-- A reserved opcode (R237). -/
def reservedRes (s : State) : Res := .refuse .reservedCmd s

/-- `NOP` (R234). -/
def nopRes (n : Nat) (s : State) : Res :=
  inCmd s (if n = 0 then .done s else .refuse .nopNonzeroCount s)

/-- A command word with an upper bit set (R240). -/
def cmdUpperBitsRes (_w : Word) (s : State) : Res := .refuse .cmdUpperBits s

/-- The meaning of `RAW`. -/
def execRaw (n : Nat) (s : State) : Host.Outcome State Fault Refusal := (rawRes n s).outcome

/-- The meaning of `RAW_REPEAT`. -/
def execRawRepeat (n : Nat) (s : State) : Host.Outcome State Fault Refusal := (rawRepeatRes n s).outcome

/-- The meaning of `TMDS`. -/
def execTmds (n : Nat) (s : State) : Host.Outcome State Fault Refusal := (tmdsRes n s).outcome

/-- The meaning of `TMDS_REPEAT`. -/
def execTmdsRepeat (n : Nat) (s : State) : Host.Outcome State Fault Refusal := (tmdsRepeatRes n s).outcome

/-- The meaning of `RESERVED_4_7`. -/
def execReserved47 (_op : BitVec 2) (_n : Nat) (s : State) : Host.Outcome State Fault Refusal :=
  (reservedRes s).outcome

/-- The meaning of `RESERVED_8_B`. -/
def execReserved8B (_op : BitVec 2) (_n : Nat) (s : State) : Host.Outcome State Fault Refusal :=
  (reservedRes s).outcome

/-- The meaning of `RESERVED_C_D`. -/
def execReservedCD (_op : BitVec 4) (_n : Nat) (s : State) : Host.Outcome State Fault Refusal :=
  (reservedRes s).outcome

/-- The meaning of `RESERVED_E`. -/
def execReservedE (_n : Nat) (s : State) : Host.Outcome State Fault Refusal :=
  (reservedRes s).outcome

/-- The meaning of `NOP`. -/
def execNop (n : Nat) (s : State) : Host.Outcome State Fault Refusal := (nopRes n s).outcome

/-- The meaning of `CMD_UPPER_BITS`. -/
def execCmdUpperBits (w : Word) (s : State) : Host.Outcome State Fault Refusal := (cmdUpperBitsRes w s).outcome

end Sys2Proof.Machine
end

