-- ==== Sys2Proof/Machine/DataWords.lean ====
section
/-! DEFINITION. The control-data words (R238) and the pixel words (R239): what each does once the sink has popped it. -/

namespace Sys2Proof.Machine

/-- `HoldData(n, w)` (R238), `n` from mode `RAWDATA(n)`. -/
def holdData (w : Word) (s : State) : Res :=
  match s.sink.mode with
  | .rawData n => .done ((s.emit (List.replicate n (.ctl w))).setMode .cmd)
  | .cmd => .refuse .notInMode s
  | .pixData _ => .refuse .notInMode s

/-- The sink mode once a pixel word of `k` pixels has been streamed with `n` left (R239). -/
def modeAfterPixels (n k : Nat) : SinkMode := if n - k = 0 then .cmd else .pixData (n - k)

/-- `PixelData(n, w)` (R239), `n` from mode `PIXDATA(n)`, for the pixels of a word of format `fmt`. Fewer than `PPW`
pixels left would be the partial last word that is not modelled (R233; log entry 13). -/
def pixelData (fmt : PixelFormat) (px : List Symbol) (s : State) : Res :=
  match s.sink.mode with
  | .pixData n =>
    if s.cfg.fmt ≠ fmt then .refuse .notInMode s
    else if n < ppw s.cfg then .refuse .tmdsPartialWord s
    else .done ((s.emit px).setMode (modeAfterPixels n (ppw s.cfg)))
  | .cmd => .refuse .notInMode s
  | .rawData _ => .refuse .notInMode s

/-- The meaning of `SYNC_V0_H0`. -/
def execSyncV0H0 (s : State) : Host.Outcome State Fault Refusal := (holdData (syncWord s.cfg.enc false false) s).outcome

/-- The meaning of `SYNC_V0_H1`. -/
def execSyncV0H1 (s : State) : Host.Outcome State Fault Refusal := (holdData (syncWord s.cfg.enc false true) s).outcome

/-- The meaning of `SYNC_V1_H0`. -/
def execSyncV1H0 (s : State) : Host.Outcome State Fault Refusal := (holdData (syncWord s.cfg.enc true false) s).outcome

/-- The meaning of `SYNC_V1_H1`. -/
def execSyncV1H1 (s : State) : Host.Outcome State Fault Refusal := (holdData (syncWord s.cfg.enc true true) s).outcome

/-- The meaning of `CTL_DATA`: any word is held as control data. -/
def execCtlData (w : Word) (s : State) : Host.Outcome State Fault Refusal := (holdData w s).outcome

/-- The meaning of `PIXEL_WORD_P1`. -/
def execPixelWordP1 (px3 px2 px1 px0 : BitVec 8) (s : State) : Host.Outcome State Fault Refusal :=
  (pixelData .p1 (pixels1 px3 px2 px1 px0) s).outcome

/-- The meaning of `PIXEL_WORD_P2`. -/
def execPixelWordP2 (px1 px0 : BitVec 16) (s : State) : Host.Outcome State Fault Refusal :=
  (pixelData .p2 (pixels2 px1 px0) s).outcome

end Sys2Proof.Machine
end

