-- ==== Sys2Proof/Machine/Operations.lean ====
section
/-! DEFINITION. The controller's payload operations (R142-R145). Identifying the channel, the acknowledge, the parity
flag and the advance stand around them in the handler (R160). -/

namespace Sys2Proof.Machine

/-- `OP_VSYNC(c)` (R142). -/
def opVsyncRes (c : Chan) (s : State) : Res :=
  program c s.cfg.romVsyncBase (BitVec.ofNat 32 (blankLength s.cfg)) s

/-- `OP_VBLANK(c)` (R143). -/
def opVblankRes (c : Chan) (s : State) : Res :=
  program c s.cfg.romVblankBase (BitVec.ofNat 32 (blankLength s.cfg)) s

/-- `OP_HDR(c)` (R144). -/
def opHdrRes (c : Chan) (s : State) : Res :=
  (program c s.cfg.romActiveBase (BitVec.ofNat 32 activeLength) s).andThen fun t => .done (t.setHeaderPosted true)

/-- `OP_PIX(c)` (R145): the row range, then for `P1` the scratch copy, then the descriptor (R273). -/
def opPixRes (c : Chan) (s : State) : Res :=
  match rowMap s.cfg (activeRow s.ctl.scanline) with
  | none => .fault (.rowRange (activeRow s.ctl.scanline)) s
  | some a =>
    (match s.cfg.fmt with
      | .p1 =>
        (copyRow (rowAddr s.cfg a) s).andThen
          (program c s.cfg.scratchBase (BitVec.ofNat 32 (rowWords s.cfg)))
      | .p2 => program c (rowAddr s.cfg a) (BitVec.ofNat 32 (rowWords s.cfg)) s).andThen
      fun t => .done (t.setHeaderPosted false)

/-- The meaning of `OP_VSYNC`. -/
def execOpVsync (c : Chan) (s : State) : Host.Outcome State Fault Refusal := (opVsyncRes c s).outcome

/-- The meaning of `OP_VBLANK`. -/
def execOpVblank (c : Chan) (s : State) : Host.Outcome State Fault Refusal := (opVblankRes c s).outcome

/-- The meaning of `OP_HDR`. -/
def execOpHdr (c : Chan) (s : State) : Host.Outcome State Fault Refusal := (opHdrRes c s).outcome

/-- The meaning of `OP_PIX`. -/
def execOpPix (c : Chan) (s : State) : Host.Outcome State Fault Refusal := (opPixRes c s).outcome

end Sys2Proof.Machine
end

