-- ==== Sys2Proof/Machine/Dispatch.lean ====
section
/-! DEFINITION. The meaning of every instruction, one arm per constructor of `Instr`. -/

namespace Sys2Proof.Machine

-- The words (R232-R241) and the controller's operations (R142-R145), each over the state its agent has prepared.
def exec (i : Instr) (s : State) : Host.Outcome State Fault Refusal :=
  match i with
  | .raw n => Sys2Proof.Machine.execRaw n s
  | .rawRepeat n => Sys2Proof.Machine.execRawRepeat n s
  | .tmds n => Sys2Proof.Machine.execTmds n s
  | .tmdsRepeat n => Sys2Proof.Machine.execTmdsRepeat n s
  | .reserved47 op n => Sys2Proof.Machine.execReserved47 op n s
  | .reserved8B op n => Sys2Proof.Machine.execReserved8B op n s
  | .reservedCD op n => Sys2Proof.Machine.execReservedCD op n s
  | .reservedE n => Sys2Proof.Machine.execReservedE n s
  | .nop n => Sys2Proof.Machine.execNop n s
  | .cmdUpperBits w => Sys2Proof.Machine.execCmdUpperBits w s
  | .syncV0H0 => Sys2Proof.Machine.execSyncV0H0 s
  | .syncV0H1 => Sys2Proof.Machine.execSyncV0H1 s
  | .syncV1H0 => Sys2Proof.Machine.execSyncV1H0 s
  | .syncV1H1 => Sys2Proof.Machine.execSyncV1H1 s
  | .ctlData w => Sys2Proof.Machine.execCtlData w s
  | .pixelWordP1 px3 px2 px1 px0 => Sys2Proof.Machine.execPixelWordP1 px3 px2 px1 px0 s
  | .pixelWordP2 px1 px0 => Sys2Proof.Machine.execPixelWordP2 px1 px0 s
  | .opVsync c => Sys2Proof.Machine.execOpVsync c s
  | .opVblank c => Sys2Proof.Machine.execOpVblank c s
  | .opHdr c => Sys2Proof.Machine.execOpHdr c s
  | .opPix c => Sys2Proof.Machine.execOpPix c s

end Sys2Proof.Machine
end

