-- ==== Sys2Proof/Machine/Agents.lean ====
section
/-! DEFINITION. The atomic steps of the agents (R31): the setup context (R291-R293), the channels (R194-R197), the
controller (R160), the sink (R231); and one step of the whole machine with the state a stop leaves. -/

namespace Sys2Proof.Machine

/-! ## The setup context (70_reset_and_hazards.md, section 2) -/

/-- `Preload()` for one channel (R291). -/
def preloadChan (c : Chan) (s : State) : State :=
  s.setChan c { s.chan c with
    src := s.cfg.romVblankBase, count := BitVec.ofNat 32 (blankLength s.cfg), armed := true }

/-- `Preload()` (R291). -/
def preload (s : State) : State := (preloadChan .ch1 (preloadChan .ch0 s)).setSetup .enableIrq

/-- `EnableIrq()` (R292). -/
def enableIrq (s : State) : State :=
  (s.setIrq { pending0 := false, pending1 := false, enable0 := true, enable1 := true }).setSetup .start

/-- `Start()` (R293): `started`, then the trigger of channel 0. -/
def start (s : State) : Res := trigger .ch0 ((s.setStarted true).setSetup .done)

/-- The setup context's next step (R294: each once, in that order). -/
def setupStep (s : State) : Res :=
  match s.setup with
  | .preload => .done (preload s)
  | .enableIrq => .done (enableIrq s)
  | .start => start s
  | .done => .fault .stuck s

/-! ## The channels (42_dma_feeder.md) -/

/-- `TransferStep(c)` (R194), its read admitted by R73 and R195. -/
def transfer (c : Chan) (s : State) : Res :=
  match readWord s.cfg s.mem (s.chan c).cur with
  | .misaligned => .fault (.misaligned c (s.chan c).cur) s
  | .notAdmitted => .fault .stuck s
  | .unwritten a => .fault (.unwrittenRead (.channel c) a) s
  | .value w =>
    .done (((s.push w).setChan c
        { s.chan c with cur := (s.chan c).cur + 4#32, remaining := (s.chan c).remaining - 1#32 }).record
      (.word c (s.chan c).cur w))

/-- The writes of `Complete(c)` before its chain (R196). -/
def completeWrites (c : Chan) (s : State) : State :=
  ((s.setChan c { s.chan c with busy := false }).setPending c true).record (.complete c)

/-- `Complete(c)` (R196) with `Chain(c)` (R197), one atomic step. -/
def complete (c : Chan) (s : State) : Res := trigger c.chainTo (completeWrites c s)

/-- The step of a busy channel: move a word while any is left, else complete (R193, R196). -/
def channelStep (c : Chan) (s : State) : Res :=
  if (s.chan c).remaining = 0#32 then complete c s else transfer c s

/-! ## One instruction, with the state a stop leaves -/

/-- The meaning of an instruction as a result; `exec` is its outcome (Laws/Agents.lean, `exec_eq_outcome`). -/
def perform (i : Instr) (s : State) : Res :=
  match i with
  | .raw n => rawRes n s
  | .rawRepeat n => rawRepeatRes n s
  | .tmds n => tmdsRes n s
  | .tmdsRepeat n => tmdsRepeatRes n s
  | .reserved47 _ _ => reservedRes s
  | .reserved8B _ _ => reservedRes s
  | .reservedCD _ _ => reservedRes s
  | .reservedE _ => reservedRes s
  | .nop n => nopRes n s
  | .cmdUpperBits w => cmdUpperBitsRes w s
  | .syncV0H0 => holdData (syncWord s.cfg.enc false false) s
  | .syncV0H1 => holdData (syncWord s.cfg.enc false true) s
  | .syncV1H0 => holdData (syncWord s.cfg.enc true false) s
  | .syncV1H1 => holdData (syncWord s.cfg.enc true true) s
  | .ctlData w => holdData w s
  | .pixelWordP1 px3 px2 px1 px0 => pixelData .p1 (pixels1 px3 px2 px1 px0) s
  | .pixelWordP2 px1 px0 => pixelData .p2 (pixels2 px1 px0) s
  | .opVsync c => opVsyncRes c s
  | .opVblank c => opVblankRes c s
  | .opHdr c => opHdrRes c s
  | .opPix c => opPixRes c s

/-! ## The sink (R231) -/

/-- `SinkStep()` (R231): pop the head, then run what it spells in the present mode. -/
def sinkStep (s : State) : Res :=
  match s.sink.fifo with
  | [] => .fault .stuck s
  | w :: rest => perform (decodeWord s.cfg.enc s.sink.mode s.cfg.fmt w) (s.setFifo rest)

/-! ## The controller (R160) -/

/-- `HandlerStep()` (R160): identify, enter, run the selected operation, leave. -/
def handlerStep (s : State) : Res :=
  match identify s with
  | .error f => .fault f s
  | .ok c =>
    (perform (selectedOp s c) (enterHandler c s)).andThen fun t =>
      .done (leaveHandler s c (classify s.ctl.scanline s.ctl.headerPosted) t)

/-! ## The whole machine -/

/-- The step of one agent. -/
def agentStep (a : Agent) (s : State) : Res :=
  match a with
  | .setup => setupStep s
  | .controller => handlerStep s
  | .channel c => channelStep c s
  | .sink => sinkStep s

/-- One step of the machine with the state a stop leaves: a marked state stays as it is (R271); otherwise the agent
whose turn it is moves (R272), and the next turn is drawn; with no enabled step the machine is stuck (R270). -/
def stepRes (s : State) : Res :=
  match s.fault with
  | some f => .fault f s
  | none =>
    match s.refused with
    | some r => .refuse r s
    | none =>
      match mover s with
      | none => .fault .stuck s
      | some a => (agentStep a s).andThen fun t => .done t.passTurn

/-- The state after a step as R18, R43 and R271 hold it: a stop sets its mark and keeps the writes made before it. -/
def nextMarked (s : State) : State := (stepRes s).marked

/-! ## Placing an instruction for the host (log entry 10) -/

/-- The state in which the sink's next step pops `w` in the mode in which `w` is its row of the opcode table. -/
def placeWord (s : State) (w : Word) : State :=
  { s with
    sink := { s.sink with
      fifo := w :: s.sink.fifo.tail
      mode := tableMode w }
    fault := none
    refused := none
    started := true
    setup := .done
    turn := .sink }

/-- The scanline and flag at which `classify` selects the operation with a trace number (R119, R140). -/
def placePosition (w : Nat) : Nat × Bool :=
  match w with
  | 0 => (Config.vFp, false)
  | 1 => (0, false)
  | 2 => (Config.vActiveStart, false)
  | _ => (Config.vActiveStart, true)

/-- The state in which the controller's next step handles channel 0's completion and runs the operation with a trace
number. -/
def placeOperation (s : State) (w : Nat) : State :=
  { s with
    ctl := { scanline := BitVec.ofNat 32 (placePosition w).1, headerPosted := (placePosition w).2, parity := false }
    ch0 := { s.ch0 with busy := false }
    irq := { s.irq with pending0 := true, enable0 := true }
    fault := none
    refused := none
    started := true
    setup := .done
    turn := .controller }

/-- The state whose next step runs the instruction of a table row: short rows are operations, others words. -/
def placeInstr (s : State) (nbits w : Nat) : State :=
  if nbits ≤ 8 then placeOperation s w else placeWord s (BitVec.ofNat 32 w)

end Sys2Proof.Machine
end

