-- ==== Sys2Proof/Machine/Step.lean ====
section
/-! DEFINITION. One step of the machine, and the host's placing of an instruction; both only call Machine/Agents.lean. -/

namespace Sys2Proof.Machine

/-- One step (R15, R272): the outcome of `stepRes`. -/
def step (s : State) : Host.Outcome State Fault Refusal := (stepRes s).outcome

/-- The state whose next step runs the instruction with bits `w` (host interface; log entry 10). -/
def State.withFetchWord (s : State) (nbits w : Nat) : State := placeInstr s nbits w

end Sys2Proof.Machine
end

