-- ==== Sys2Proof/WellFormed.lean ====
section
/-! DEFINITION. When a term of `Instr` spells a word of its own row, which encodings are sound, and
the kind of word each row is (R100, R116). -/

namespace Sys2Proof

/-- The kind of an instruction: which sink mode a word of it is popped in (R100, R116), or a controller operation,
which has no encoding (R119). -/
inductive Kind where
  | command
  | controlData
  | pixel (fmt : PixelFormat)
  | operation
  deriving DecidableEq, Repr

/-- The kind of each row (R116, the table's "format"). -/
def Instr.kind : Instr → Kind
  | .raw _ => .command
  | .rawRepeat _ => .command
  | .tmds _ => .command
  | .tmdsRepeat _ => .command
  | .reserved47 _ _ => .command
  | .reserved8B _ _ => .command
  | .reservedCD _ _ => .command
  | .reservedE _ => .command
  | .nop _ => .command
  | .cmdUpperBits _ => .command
  | .syncV0H0 => .controlData
  | .syncV0H1 => .controlData
  | .syncV1H0 => .controlData
  | .syncV1H1 => .controlData
  | .ctlData _ => .controlData
  | .pixelWordP1 _ _ _ _ => .pixel .p1
  | .pixelWordP2 _ _ => .pixel .p2
  | .opVsync _ => .operation
  | .opVblank _ => .operation
  | .opHdr _ => .operation
  | .opPix _ => .operation

/-- The sink mode and pixel format read words of this kind (R100: the kind depends only on the mode). -/
def Kind.readIn (k : Kind) (m : SinkMode) (fmt : PixelFormat) : Bool :=
  match k, m with
  | .command, .cmd => true
  | .controlData, .rawData _ => true
  | .pixel f, .pixData _ => f == fmt
  | _, _ => false

/-- The encodings the spec's tables could have (R14): the five commands have different opcodes, the count field leaves
room for the opcode and holds every count of the ROM (R103), and the four sync codes are distinct (R105). DEDUCED (log
entry 28). -/
def Encoding.ok (e : Encoding) : Bool :=
  decide ([e.raw, e.rawRepeat, e.tmds, e.tmdsRepeat, e.nop].Nodup)
    && decide (10 ≤ e.countWidth) && decide (e.countWidth + 4 ≤ 32)
    && decide ([syncWord e false false, syncWord e false true, syncWord e true false, syncWord e true true].Nodup)

/-- The count fits its field (R103). -/
def countFits (e : Encoding) (n : Nat) : Bool := decide (n < 2 ^ e.countWidth)

/-- A term spells a word of its own row: the count fits, a reserved opcode is one that is not assigned and lies in the
row, `CMD_UPPER_BITS` has an upper bit set (the table's condition "w[31:16] != 0"), and `CTL_DATA` is not one of the
four `SYNC` words, which have rows of their own. -/
def Instr.wf (e : Encoding) : Instr → Bool
  | .raw n => countFits e n
  | .rawRepeat n => countFits e n
  | .tmds n => countFits e n
  | .tmdsRepeat n => countFits e n
  | .reserved47 op n => reservedOpcode e (0b01#2 ++ op) && countFits e n
  | .reserved8B op n => reservedOpcode e (0b10#2 ++ op) && countFits e n
  | .reservedCD op n =>
    reservedOpcode e op && countFits e n && op.toNat / 4 != 1 && op.toNat / 4 != 2 && op != 0xE#4
  | .reservedE n => reservedOpcode e 0xE#4 && countFits e n
  | .nop n => countFits e n
  | .cmdUpperBits w => upperField e w != 0
  | .ctlData w => !isSyncWord e w
  | .syncV0H0 => true
  | .syncV0H1 => true
  | .syncV1H0 => true
  | .syncV1H1 => true
  | .pixelWordP1 _ _ _ _ => true
  | .pixelWordP2 _ _ => true
  | .opVsync _ => true
  | .opVblank _ => true
  | .opHdr _ => true
  | .opPix _ => true

end Sys2Proof
end

