-- ==== Sys2Proof/Safety.lean ====
section
/-! DEFINITION. The terms claims are stated in: the launch premises (R175, R295), safe runs (R271, R327), the invariants
of the engine (R39, R41, R47, R204), and the schedule of payloads (R153). -/

namespace Sys2Proof.Machine

/-! ## Launch premises (R295) -/

/-- Two regions share no byte (R71). -/
def Region.apart (r q : Region) : Bool := decide (r.base + r.size ≤ q.base) || decide (q.base + q.size ≤ r.base)

/-- Every region of the list is apart from every later one. -/
def allApart : List Region → Bool
  | [] => true
  | r :: rest => rest.all (Region.apart r) && allApart rest

/-- `PLACEMENT_OK` (R12, R71, R295): bases are multiples of 4, no region wraps past 2^32, regions are disjoint. -/
def placementOk (cfg : Config) : Bool :=
  [cfg.romVsyncBase, cfg.romVblankBase, cfg.romActiveBase, cfg.assetBase, cfg.scratchBase, cfg.sinkAddr].all
      (fun b => b.toNat % 4 == 0)
    && (regions cfg).all (fun r => decide (r.base + r.size ≤ 2 ^ 32))
    && allApart (regions cfg)

/-- The asset geometry of R11. -/
def assetGeometryOk (cfg : Config) : Bool :=
  cfg.assetW == Config.hAct &&
    (match cfg.fmt with
      | .p1 => cfg.assetH == Config.vAct
      | .p2 => cfg.assetH == Config.vAct / 2)

/-- `ASSET_OK` (R295): the geometry of R11, and every asset byte is written. -/
def assetOk (cfg : Config) (m : List Host.Cell) : Prop :=
  assetGeometryOk cfg = true ∧
    ∀ off, off < cfg.assetW * cfg.assetH * bpp cfg → (readByte cfg m (cfg.assetBase.toNat + off)).isSome = true

/-- `PARAMS_OK` (R295); the values of R8 and the two formats hold of every `Config`. -/
def paramsOk (cfg : Config) : Bool :=
  cfg.dupMode == .duplicate && decide (1 ≤ cfg.blankPad) && decide (1 ≤ cfg.fifoDepth)

/-- `CLEAN_START` (R295): the reset state of R290 for some launch. Memory then lists asset bytes only, so the scratch
buffer is unwritten. -/
def cleanStart (s : State) : Prop := Memory.wf s.cfg s.mem = true ∧ s = State.resetWith s.cfg s.mem

/-- `ROM_PAD_OK(FIFO_DEPTH)` (R175); no step reads it. -/
def romPadOk (cfg : Config) : Bool := decide (cfg.fifoDepth ≤ blankLength cfg) && decide (cfg.fifoDepth ≤ activeLength)

/-! ## Safe runs -/

/-- `n` steps from `s` meet no fault and no refusal (R271); the engine never stops, so a claim is about every prefix
(R327). -/
def runsSafely (n : Nat) (s : State) : Prop := ∃ t, Host.Core.run Sys2Proof.core n s = .next t

/-! ## Invariants -/

/-- R47 (a) and (b). -/
def controllerOk (s : State) : Bool :=
  decide (s.ctl.scanline.toNat < Config.vTotal) &&
    (!s.ctl.headerPosted || decide (Config.vActiveStart ≤ s.ctl.scanline.toNat))

/-- The words that remain to channel `ch` end where the header sequence ends. -/
def insideHeader (cfg : Config) (ch : Channel) : Bool :=
  decide (ch.remaining.toNat ≤ activeLength) &&
    ch.cur + 4#32 * ch.remaining == cfg.romActiveBase + BitVec.ofNat 32 (4 * activeLength)

/-- The feeder's cycle while channel `b` is busy (R39, R47 (c)-(e), R198-R200, R204): the other channel is idle, and
either it is reprogrammed and nothing is pending, with the parity flag naming the busy channel, or its completion is
pending and the parity flag names it. While a header is posted and its pixel row is not, the reprogrammed channel holds
the header's descriptor, or the busy one is moving the header (R312). -/
def feederAt (s : State) (b : Chan) : Bool :=
  (s.chan b).busy && !(s.chan b).armed && !(s.chan b.other).busy && !s.pending b
    && s.irq.enable0 && s.irq.enable1
    && (((s.chan b.other).armed && !s.pending b.other && parityChannel s.ctl.parity == b
          && (!s.ctl.headerPosted
              || ((s.chan b.other).src == s.cfg.romActiveBase
                  && (s.chan b.other).count == BitVec.ofNat 32 activeLength)))
        || (!(s.chan b.other).armed && s.pending b.other
          && parityChannel s.ctl.parity == b.other
          && (!s.ctl.headerPosted || insideHeader s.cfg (s.chan b))))

/-- Channel `k` is busy and has still to read a byte of the `P1` scratch buffer: some byte of its range
`[cur, cur + 4 × remaining)` lies in `[SCRATCH_BASE, SCRATCH_BASE + 640)`, addresses modulo 2^32 (R148). -/
def stillReadsScratch (s : State) (k : Chan) : Prop :=
  (s.chan k).busy = true ∧ ∃ i j, i < 4 * (s.chan k).remaining.toNat ∧ j < 640
    ∧ (s.chan k).cur + BitVec.ofNat 32 i = s.cfg.scratchBase + BitVec.ofNat 32 j

/-- The address of byte `j` of asset row `a` of a `P1` run (R147). -/
def rowByteAddr (cfg : Config) (a j : Nat) : Word :=
  cfg.assetBase + BitVec.ofNat 32 (a * cfg.assetW) + BitVec.ofNat 32 j

/-- Byte `j` of the row is a scratch byte that the copy of the row has written before it reaches `j` (R19, R148). -/
def copiedBefore (cfg : Config) (a j : Nat) : Prop :=
  ∃ i, i < j ∧ rowByteAddr cfg a j = cfg.scratchBase + BitVec.ofNat 32 i

/-- Byte `j` of the row is written when the copy reaches it: before the copy, or by it. -/
def rowByteWritten (s : State) (a j : Nat) : Prop :=
  (readByte s.cfg s.mem (rowByteAddr s.cfg a j).toNat).isSome = true ∨ copiedBefore s.cfg a j

/-- Before the start step: no channel is busy, nothing is pending, the controller is at its first payload, and the
setup steps taken so far have left their effect (R290-R294). -/
def setupPhaseOk (s : State) : Bool :=
  !s.ch0.busy && !s.ch1.busy && !s.irq.pending0 && !s.irq.pending1 && !s.ctl.parity && !s.ctl.headerPosted
    && (match s.setup with
        | .preload => true
        | .enableIrq => s.ch0.armed && s.ch1.armed
        | .start => s.ch0.armed && s.ch1.armed && s.irq.enable0 && s.irq.enable1
        | .done => false)

/-- R47, R39 and R204, with what makes them inductive. -/
def engineOk (s : State) : Bool :=
  controllerOk s && (if s.started then s.setup == .done && (feederAt s .ch0 || feederAt s .ch1) else setupPhaseOk s)

/-- The sink's mode carries a count the commands admit (R103, R232, R233), within the count field, and the FIFO holds at
most `FIFO_DEPTH` words (R41). -/
def sinkOk (s : State) : Bool :=
  decide (s.sink.fifo.length ≤ s.cfg.fifoDepth) &&
    (match s.sink.mode with
      | .cmd => true
      | .rawData n => decide (1 ≤ n) && decide (n < 2 ^ s.cfg.enc.countWidth)
      | .pixData n => decide (1 ≤ n) && decide (n < 2 ^ s.cfg.enc.countWidth) && n % ppw s.cfg == 0)

/-! ## The schedule of payloads (R153, R154) -/

/-- The scanline index and the sub-phase flag. -/
abbrev Position := Word × Bool

/-- The payload chosen at a position (R140). -/
def payloadAt (p : Position) : Payload := classify p.1 p.2

/-- The position after a handler step at `p` (R142-R145, R150). -/
def nextPosition (p : Position) : Position :=
  match payloadAt p with
  | .hdr => (p.1, true)
  | .pix => (nextScanline p.1, false)
  | .vsync => if p.2 then p else (nextScanline p.1, false)
  | .vblank => if p.2 then p else (nextScanline p.1, false)

/-- The position after `n` handler steps. -/
def positionAfter : Nat → Position → Position
  | 0, p => p
  | n + 1, p => positionAfter n (nextPosition p)

/-- The payloads of the next `n` handler steps, each with the index it is chosen at. -/
def schedule : Nat → Position → List (Word × Payload)
  | 0, _ => []
  | n + 1, p => (p.1, payloadAt p) :: schedule n (nextPosition p)

/-- A position the engine can be in (R47 (a), (b)). -/
def validPosition (p : Position) : Bool :=
  decide (p.1.toNat < Config.vTotal) && (!p.2 || decide (Config.vActiveStart ≤ p.1.toNat))

/-- The payloads of one vertical period from index 0 (R153), each with its index. -/
def framePayloads : List (Word × Payload) :=
  (List.range Config.vFp).map (fun s => (BitVec.ofNat 32 s, Payload.vblank))
    ++ (List.range' Config.vFp Config.vSw).map (fun s => (BitVec.ofNat 32 s, Payload.vsync))
    ++ (List.range' (Config.vFp + Config.vSw) Config.vBp).map (fun s => (BitVec.ofNat 32 s, Payload.vblank))
    ++ (List.range' Config.vActiveStart Config.vAct).flatMap
        (fun s => [(BitVec.ofNat 32 s, Payload.hdr), (BitVec.ofNat 32 s, Payload.pix)])

/-- The handler steps of one vertical period (R153). -/
def frameSteps : Nat := Config.vActiveStart + 2 * Config.vAct

/-! ## Several steps of one agent -/

/-- `n` sink steps (R231). -/
def sinkRun : Nat → State → Res
  | 0, s => .done s
  | n + 1, s => (sinkStep s).andThen (sinkRun n)

/-- `n` transfer steps of channel `c` (R194). -/
def transferRun (c : Chan) : Nat → State → Res
  | 0, s => .done s
  | n + 1, s => (transfer c s).andThen (transferRun c n)

/-- The symbols of one pixel word (R75, R239). -/
def wordPixels (fmt : PixelFormat) (w : Word) : List Symbol :=
  match fmt with
  | .p1 => pixels1 (w.extractLsb' 24 8) (w.extractLsb' 16 8) (w.extractLsb' 8 8) (w.extractLsb' 0 8)
  | .p2 => pixels2 (w.extractLsb' 16 16) (w.extractLsb' 0 16)

/-- `n` clocks of a control word with the given syncs asserted (R108). -/
def holdClocks (cfg : Config) (n : Nat) (va ha : Bool) : List Symbol :=
  List.replicate n (.ctl (syncLevels cfg.enc cfg.vPol cfg.hPol va ha))

/-- The 800 symbols of a blanking line (R242). -/
def blankLine (cfg : Config) (va : Bool) : List Symbol :=
  holdClocks cfg Config.hFp va false ++ holdClocks cfg Config.hSw va true
    ++ holdClocks cfg (Config.hBp + Config.hAct) va false

/-- The 160 symbols before the pixels of an active line (R242). -/
def activeBlanking (cfg : Config) : List Symbol :=
  holdClocks cfg Config.hFp false false ++ holdClocks cfg Config.hSw false true
    ++ holdClocks cfg Config.hBp false false

/-- The position of a state's controller. -/
def State.position (s : State) : Position := (s.ctl.scanline, s.ctl.headerPosted)

end Sys2Proof.Machine
end

