-- ==== Sys2Proof/Certificates/Slice0/Obligations.lean ====
section
/-! DEFINITION. The statements for the provers, from the numbered rules of spec/. Each docstring names the rule or the
section it formalises. -/

open Sys2Proof Sys2Proof.Machine

/-! ## Encodings -/

/-- 30_encoding.md sections 1 to 6: under every encoding (00_scope.md section 4; `Encoding.ok`, log entry 28) the decoder
gives back every well-formed instruction from its word, in every mode and format in which such a word is read. -/
def Obligations.DecodeOfEncode : Prop :=
  ∀ (e : Encoding) (i : Instr) (w : Word) (m : SinkMode) (fmt : PixelFormat), e.ok = true →
    i.wf e = true → encode e i = some w → i.kind.readIn m fmt = true → decodeWord e m fmt w = i

/-- 30_encoding.md sections 1 and 6: under every encoding (00_scope.md section 4; the shape a command word then has, the
opcode above a count of any width, is that of log entry 28), every word in every mode spells a well-formed instruction of
that mode, and the instruction's encoding is that word. -/
def Obligations.EncodeOfDecode : Prop :=
  ∀ (e : Encoding) (m : SinkMode) (fmt : PixelFormat) (w : Word),
    encode e (decodeWord e m fmt w) = some w ∧ (decodeWord e m fmt w).wf e = true
      ∧ (decodeWord e m fmt w).kind.readIn m fmt = true

/-- 95_test_vectors.md section 2.4 and spec/opcode_table.json: words written out from the default encodings (log entry 9)
decode to the instructions they stand for. -/
def Obligations.SpecWordsDecode : Prop :=
  decodeWord Encoding.default .cmd .p1 0x00001010#32 = .rawRepeat 16
    ∧ decodeWord Encoding.default .cmd .p2 0x00002280#32 = .tmds 640
    ∧ decodeWord Encoding.default .cmd .p1 0x0000F000#32 = .nop 0
    ∧ decodeWord Encoding.default .cmd .p1 0x0000E123#32 = .reservedE 0x123
    ∧ decodeWord Encoding.default .cmd .p1 0x00011010#32 = .cmdUpperBits 0x00011010#32
    ∧ decodeWord Encoding.default (.rawData 16) .p1 0x354D52AB#32 = .syncV1H1
    ∧ decodeWord Encoding.default (.rawData 16) .p1 0xFFFFFFFF#32 = .ctlData 0xFFFFFFFF#32
    ∧ decodeWord Encoding.default (.pixData 640) .p1 0x44332211#32 = .pixelWordP1 0x44#8 0x33#8 0x22#8 0x11#8
    ∧ decodeWord Encoding.default (.pixData 640) .p2 0x07E0F800#32 = .pixelWordP2 0x07E0#16 0xF800#16

/-- 41_command_rom.md section 2: the words of the three sequences, with both sync polarities at level 0 and one padding
no-op (the values of R13) and the default encoding (log entry 9). -/
def Obligations.RomSequenceWords : Prop :=
  ∀ cfg : Config, cfg.enc = Encoding.default → cfg.hPol = false → cfg.vPol = false → cfg.blankPad = 1 →
    romVsync cfg = [0x00001010#32, 0x354D50AB#32, 0x00001060#32, 0x354D5354#32, 0x000012B0#32, 0x354D50AB#32,
        0x0000F000#32]
      ∧ romVblank cfg = [0x00001010#32, 0x354D52AB#32, 0x00001060#32, 0x354D5154#32, 0x000012B0#32, 0x354D52AB#32,
        0x0000F000#32]
      ∧ romActive cfg = [0x00001010#32, 0x354D52AB#32, 0x0000F000#32, 0x00001060#32, 0x354D5154#32, 0x0000F000#32,
        0x00001030#32, 0x354D52AB#32, 0x00002280#32]

/-- R176: whatever memory holds, a channel's read of word `i` of a sequence gives that word. -/
def Obligations.RomReadsItsWords : Prop :=
  ∀ (cfg : Config) (m : List Host.Cell) (i : Nat) (w : Word), placementOk cfg = true →
    ((romVsync cfg)[i]? = some w → readWord cfg m (cfg.romVsyncBase + BitVec.ofNat 32 (4 * i)) = .value w)
      ∧ ((romVblank cfg)[i]? = some w → readWord cfg m (cfg.romVblankBase + BitVec.ofNat 32 (4 * i)) = .value w)
      ∧ ((romActive cfg)[i]? = some w → readWord cfg m (cfg.romActiveBase + BitVec.ofNat 32 (4 * i)) = .value w)

/-- 30_encoding.md section 4 (the source's round-trip property of the two colour packings). -/
def Obligations.ColourRoundTrip : Prop :=
  ∀ r g b : BitVec 8,
    unpack1 (pack1 r g b) = (r.extractLsb' 6 2, g.extractLsb' 5 3, b.extractLsb' 5 3)
      ∧ unpack2 (pack2 r g b) = (r.extractLsb' 3 5, g.extractLsb' 2 6, b.extractLsb' 3 5)

/-! ## The timing generator -/

/-- R140: the four classes; the clauses exclude each other by their conditions. -/
def Obligations.ClassifyByIndex : Prop :=
  ∀ (s : Word) (hp : Bool),
    (10 ≤ s.toNat ∧ s.toNat < 12 → classify s hp = .vsync)
      ∧ (s.toNat < 10 ∨ (12 ≤ s.toNat ∧ s.toNat < 45) → classify s hp = .vblank)
      ∧ (45 ≤ s.toNat → hp = false → classify s hp = .hdr)
      ∧ (45 ≤ s.toNat → hp = true → classify s hp = .pix)

/-- 40_timing_generator.md section 7 (the frame schedule): the 1005 payloads of one vertical period from index 0. -/
def Obligations.FrameSchedule : Prop := schedule frameSteps (0#32, false) = framePayloads

/-- 40_timing_generator.md section 7 (the period): from every valid position, 1005 handler steps come back to it. -/
def Obligations.SchedulePeriodic : Prop :=
  ∀ p : Position, validPosition p = true → positionAfter frameSteps p = p

/-- 40_timing_generator.md section 7 (two invocations a line): from an active line's first invocation, the first
selects the header and keeps the index, the second selects the pixel row and only then the index advances. -/
def Obligations.TwoInvocationsPerActiveLine : Prop :=
  ∀ s : Word, 45 ≤ s.toNat → s.toNat < 525 →
    schedule 2 (s, false) = [(s, .hdr), (s, .pix)]
      ∧ positionAfter 1 (s, false) = (s, true)
      ∧ positionAfter 2 (s, false) = (BitVec.ofNat 32 ((s.toNat + 1) % 525), false)

/-- 40_timing_generator.md sections 5 and 6, R264, R265: a completed controller step moves the position as the schedule
says, clears the pending bit of the channel the parity flag named, leaves the other's, and toggles the flag. -/
def Obligations.HandlerFollowsSchedule : Prop :=
  ∀ s t : State, mover s = some .controller → step s = .next t →
    t.position = nextPosition s.position
      ∧ t.pending (parityChannel s.ctl.parity) = false
      ∧ t.pending (parityChannel s.ctl.parity).other = s.pending (parityChannel s.ctl.parity).other
      ∧ t.ctl.parity = !s.ctl.parity

/-- R150: the advance after the payload operation, for every state the operation leaves. -/
def Obligations.AdvanceUnlessHeaderPosted : Prop :=
  ∀ s : State,
    (s.ctl.headerPosted = true → advance s = s)
      ∧ (s.ctl.headerPosted = false →
          advance s = s.setScanline (BitVec.ofNat 32 ((s.ctl.scanline.toNat + 1) % 525)))

/-- R141: `Program` in every case; it writes the descriptor and the mark and nothing else. -/
def Obligations.ProgramWritesDescriptor : Prop :=
  ∀ (c : Chan) (a n : Word) (s : State),
    ((s.chan c).busy = true → (program c a n s).outcome = .fault (.busyReprogram c))
      ∧ ((s.chan c).busy = false → n = 0#32 → (program c a n s).outcome = .fault (.zeroCount c))
      ∧ ((s.chan c).busy = false → n ≠ 0#32 →
          (program c a n s).outcome
            = .next (s.setChan c { s.chan c with src := a, count := n, armed := true }))

/-- R142: `OP_VSYNC` completes on an idle channel and faults on a busy one; it is selected at indices 10 and 11. -/
def Obligations.OpVsyncProgramsVsync : Prop :=
  ∀ (c : Chan) (s : State), blankLength s.cfg < 2 ^ 32 →
    ((s.chan c).busy = false →
        exec (.opVsync c) s = .next (s.setChan c
          { s.chan c with src := s.cfg.romVsyncBase, count := BitVec.ofNat 32 (blankLength s.cfg), armed := true }))
      ∧ ((s.chan c).busy = true → exec (.opVsync c) s = .fault (.busyReprogram c))
      ∧ (selectedOp s c = .opVsync c ↔ s.ctl.scanline.toNat = 10 ∨ s.ctl.scanline.toNat = 11)

/-- R143: `OP_VBLANK` completes on an idle channel and faults on a busy one; it is selected at 0-9 and 12-44. -/
def Obligations.OpVblankProgramsVblank : Prop :=
  ∀ (c : Chan) (s : State), blankLength s.cfg < 2 ^ 32 →
    ((s.chan c).busy = false →
        exec (.opVblank c) s = .next (s.setChan c
          { s.chan c with src := s.cfg.romVblankBase, count := BitVec.ofNat 32 (blankLength s.cfg), armed := true }))
      ∧ ((s.chan c).busy = true → exec (.opVblank c) s = .fault (.busyReprogram c))
      ∧ (selectedOp s c = .opVblank c
          ↔ s.ctl.scanline.toNat < 10 ∨ (12 ≤ s.ctl.scanline.toNat ∧ s.ctl.scanline.toNat < 45))

/-- R144: `OP_HDR` completes on an idle channel, posts the header and keeps the index. -/
def Obligations.OpHdrPostsHeader : Prop :=
  ∀ (c : Chan) (s : State),
    ((s.chan c).busy = false →
        exec (.opHdr c) s = .next ((s.setChan c
          { s.chan c with src := s.cfg.romActiveBase, count := 9#32, armed := true }).setHeaderPosted true))
      ∧ ((s.chan c).busy = true → exec (.opHdr c) s = .fault (.busyReprogram c))
      ∧ (selectedOp s c = .opHdr c ↔ 45 ≤ s.ctl.scanline.toNat ∧ s.ctl.headerPosted = false)

/-- 40_timing_generator.md sections 3 and 4: for `P2`, `OP_PIX` on an idle channel hands over the asset row itself, with no
copy; on a busy channel it faults; there is no scratch buffer. The active-picture row of index `45 + r` is `r`. The row
stride is `ASSET_W × BPP`, the model's choice where `ASSET_W` is not 640 (log entry 29). -/
def Obligations.OpPixP2ReadsAsset : Prop :=
  ∀ (c : Chan) (s : State) (r a : Nat), s.cfg.fmt = .p2 →
    s.ctl.scanline.toNat = 45 + r → rowMap s.cfg r = some a →
    ((s.chan c).busy = false →
        exec (.opPix c) s = .next ((s.setChan c
          { s.chan c with src := s.cfg.assetBase + BitVec.ofNat 32 (a * (s.cfg.assetW * 2)), count := 320#32,
                          armed := true }).setHeaderPosted false))
      ∧ ((s.chan c).busy = true → exec (.opPix c) s = .fault (.busyReprogram c))
      ∧ ∀ q ∈ regions s.cfg, q.kind ≠ .scratch

/-- 40_timing_generator.md sections 3 and 4 (`OP_PIX` and `ScratchCopy` for `P1`): at index `45 + r`, on an idle channel,
with every byte of the asset row written when the copy reaches it and no busy channel with scratch bytes still to read
(addresses modulo 2^32, log entry 18), it copies the row byte for byte, in order, hands over the scratch buffer, clears the
flag, and leaves every other byte of memory alone. Where the row runs into the scratch buffer, a byte the copy has written
is copied on. The row stride is `ASSET_W × BPP`, the model's choice where `ASSET_W` is not 640 (log entry 29). -/
def Obligations.OpPixP1CopiesRow : Prop :=
  ∀ (c : Chan) (s : State) (r a : Nat), s.cfg.fmt = .p1 → placementOk s.cfg = true → (s.chan c).busy = false →
    s.ctl.scanline.toNat = 45 + r → rowMap s.cfg r = some a →
    (∀ k, ¬ stillReadsScratch s k) → (∀ j, j < 640 → rowByteWritten s a j) →
    ∃ m : List Host.Cell,
      exec (.opPix c) s = .next (((s.setMem m).setChan c
          { s.chan c with src := s.cfg.scratchBase, count := 160#32, armed := true }).setHeaderPosted false)
        ∧ (∀ j, j < 640 →
            (¬ copiedBefore s.cfg a j →
                readByte s.cfg m (s.cfg.scratchBase.toNat + j)
                  = readByte s.cfg s.mem (rowByteAddr s.cfg a j).toNat)
              ∧ (∀ i, i < j → rowByteAddr s.cfg a j = s.cfg.scratchBase + BitVec.ofNat 32 i →
                readByte s.cfg m (s.cfg.scratchBase.toNat + j) = readByte s.cfg m (s.cfg.scratchBase.toNat + i)))
        ∧ (∀ x, ¬ (s.cfg.scratchBase.toNat ≤ x ∧ x < s.cfg.scratchBase.toNat + 640) →
            readByte s.cfg m x = readByte s.cfg s.mem x)

/-- R146: the asset row of an active row; past the second half `OP_PIX` faults `ROW_RANGE` at that row's index `45 + r`,
which an asset of at least half the active height excludes. -/
def Obligations.RowMapRule : Prop :=
  ∀ (cfg : Config) (r : Nat),
    (2 * cfg.assetH ≤ r → rowMap cfg r = none)
      ∧ (r < cfg.assetH → rowMap cfg r = some r)
      ∧ (cfg.assetH ≤ r → r < 2 * cfg.assetH → cfg.dupMode = .duplicate → rowMap cfg r = some (r - cfg.assetH))
      ∧ (cfg.assetH ≤ r → r < 2 * cfg.assetH → cfg.dupMode = .mirror →
          rowMap cfg r = some ((2 * cfg.assetH - 1) - r))
      ∧ (∀ (c : Chan) (s : State), s.cfg = cfg → s.ctl.scanline.toNat = 45 + r → 2 * cfg.assetH ≤ r →
          exec (.opPix c) s = .fault (.rowRange r))
      ∧ (r < 480 → 240 ≤ cfg.assetH → rowMap cfg r ≠ none)

/-- 40_timing_generator.md sections 3 and 4, 20_memory.md section 1, 00_scope.md section 6 and 60_exceptions.md section 4
(order of faults): where the `P1` row operation stops. A busy channel with scratch bytes still to read makes it fault
`SCRATCH_RACE` on such a channel; the ranges are compared modulo 2^32, also where one wraps (log entry 18). Then the copy
stops at its first byte that stops: a source byte nothing has written faults `UNWRITTEN_READ`; a target that is no scratch
byte is refused, `ROM_WRITE` where it lies in a ROM sequence, and in the asset or outside every region by the model's own
names, once its source byte is read (log entries 17, 19). Then a busy channel faults `BUSY_REPROGRAM`. The row stride is
the model's choice where `ASSET_W` is not 640 (log entry 29). -/
def Obligations.OpPixP1Stops : Prop :=
  ∀ (c : Chan) (s : State) (r a : Nat), s.cfg.fmt = .p1 →
    s.ctl.scanline.toNat = 45 + r → rowMap s.cfg r = some a →
    ((∃ k, stillReadsScratch s k) → ∃ k, stillReadsScratch s k ∧ exec (.opPix c) s = .fault (.scratchRace k))
      ∧ ((∀ k, ¬ stillReadsScratch s k) →
          ∀ n, n < 640 → s.cfg.scratchBase.toNat + 640 ≤ 2 ^ 32 → (∀ j, j ≤ n → rowByteWritten s a j) →
          (∀ j, j < n → ∀ q ∈ regions s.cfg, q.kind ≠ .scratch →
            ¬ (q.base ≤ s.cfg.scratchBase.toNat + j ∧ s.cfg.scratchBase.toNat + j < q.base + q.size)) →
          ((∃ q ∈ regions s.cfg, (q.kind = .romVsync ∨ q.kind = .romVblank ∨ q.kind = .romActive)
              ∧ q.base ≤ s.cfg.scratchBase.toNat + n ∧ s.cfg.scratchBase.toNat + n < q.base + q.size) →
            exec (.opPix c) s = .refused .romWrite)
          ∧ ((∀ q ∈ regions s.cfg, q.kind = .romVsync ∨ q.kind = .romVblank ∨ q.kind = .romActive →
                ¬ (q.base ≤ s.cfg.scratchBase.toNat + n ∧ s.cfg.scratchBase.toNat + n < q.base + q.size)) →
              (∃ q ∈ regions s.cfg, q.kind = .asset
                ∧ q.base ≤ s.cfg.scratchBase.toNat + n ∧ s.cfg.scratchBase.toNat + n < q.base + q.size) →
              exec (.opPix c) s = .refused .assetWrite))
      ∧ ((∀ k, ¬ stillReadsScratch s k) → ∀ n f, n < 640 → (∀ j, j ≤ n → rowByteWritten s a j) →
          (∀ j, j < n → writeRefusal s.cfg (s.cfg.scratchBase + BitVec.ofNat 32 j) = none) →
          writeRefusal s.cfg (s.cfg.scratchBase + BitVec.ofNat 32 n) = some f →
          exec (.opPix c) s = .refused f)
      ∧ ((∀ k, ¬ stillReadsScratch s k) → ∀ n, n < 640 → ¬ rowByteWritten s a n →
          (∀ j, j < n → writeRefusal s.cfg (s.cfg.scratchBase + BitVec.ofNat 32 j) = none) →
          ∃ e, exec (.opPix c) s = .fault (.unwrittenRead .controller e))
      ∧ ((∀ k, ¬ stillReadsScratch s k) → placementOk s.cfg = true → (∃ j, j < 640 ∧ ¬ rowByteWritten s a j) →
          ∃ e, exec (.opPix c) s = .fault (.unwrittenRead .controller e))
      ∧ ((∀ k, ¬ stillReadsScratch s k) → placementOk s.cfg = true → (s.chan c).busy = true →
          (∀ j, j < 640 → rowByteWritten s a j) →
          exec (.opPix c) s = .fault (.busyReprogram c))

/-! ## The sink -/

/-- R232, R233, R234, R241: the three commands the source describes, popped in mode `CMD`, for every count and both
formats, with their words in the default encoding (log entry 9). -/
def Obligations.CommandsInModeCmd : Prop :=
  ∀ (n : Nat) (m : BitVec 12) (s : State), s.sink.mode = .cmd →
    (n ≠ 0 → exec (.rawRepeat n) s = .next (s.setMode (.rawData n)))
      ∧ (n = 0 → exec (.rawRepeat n) s = .refused .zeroCountCmd)
      ∧ (n ≠ 0 → n % ppw s.cfg = 0 → exec (.tmds n) s = .next (s.setMode (.pixData n)))
      ∧ (n = 0 → exec (.tmds n) s = .refused .zeroCountCmd)
      ∧ (n % ppw s.cfg ≠ 0 → exec (.tmds n) s = .refused .tmdsPartialWord)
      ∧ (n = 0 → exec (.nop n) s = .next s)
      ∧ (n ≠ 0 → exec (.nop n) s = .refused .nopNonzeroCount)
      ∧ (s.cfg.enc = Encoding.default →
          decodeWord s.cfg.enc .cmd s.cfg.fmt (0#16 ++ 0x1#4 ++ m) = .rawRepeat m.toNat
            ∧ decodeWord s.cfg.enc .cmd s.cfg.fmt (0#16 ++ 0x2#4 ++ m) = .tmds m.toNat
            ∧ decodeWord s.cfg.enc .cmd s.cfg.fmt (0#16 ++ 0xF#4 ++ m) = .nop m.toNat)

/-- R235, R236, R237, R240: the commands the source does not describe are refused in every state; so is a command word
with an upper bit set, whatever its opcode. The words are those of the default encoding (log entry 9). -/
def Obligations.UndescribedCommandsRefused : Prop :=
  ∀ (n : Nat) (m : BitVec 12) (op2 : BitVec 2) (op4 : BitVec 4) (w : Word) (fmt : PixelFormat) (s : State),
    exec (.raw n) s = .refused .rawNotModelled
      ∧ exec (.tmdsRepeat n) s = .refused .tmdsRepeatNotModelled
      ∧ exec (.reserved47 op2 n) s = .refused .reservedCmd
      ∧ exec (.reserved8B op2 n) s = .refused .reservedCmd
      ∧ exec (.reservedCD op4 n) s = .refused .reservedCmd
      ∧ exec (.reservedE n) s = .refused .reservedCmd
      ∧ exec (.cmdUpperBits w) s = .refused .cmdUpperBits
      ∧ decodeWord Encoding.default .cmd fmt (0#16 ++ 0x0#4 ++ m) = .raw m.toNat
      ∧ decodeWord Encoding.default .cmd fmt (0#16 ++ 0x3#4 ++ m) = .tmdsRepeat m.toNat
      ∧ (4 ≤ op4.toNat → op4.toNat ≤ 14 →
          exec (decodeWord Encoding.default .cmd fmt (0#16 ++ op4 ++ m)) s = .refused .reservedCmd)
      ∧ (w.extractLsb' 16 16 ≠ 0#16 → decodeWord Encoding.default .cmd fmt w = .cmdUpperBits w)

/-- The model's own stops (log entries 12, 13 and 23), which no step meets: outside the sink mode and format that read
its word, every word is refused; a pixel word with fewer than `PPW` pixels left is the partial last word; `OP_PIX` below
index 45, its row taken modulo 2^32, faults `ROW_RANGE` where that row lies past the asset. -/
def Obligations.WordsRefusedOutsideTheirMode : Prop :=
  (∀ (c : Chan) (s : State), s.ctl.scanline.toNat < 45 →
      2 * s.cfg.assetH ≤ s.ctl.scanline.toNat + (2 ^ 32 - 45) →
      exec (.opPix c) s = .fault (.rowRange (s.ctl.scanline.toNat + (2 ^ 32 - 45))))
  ∧ ∀ (i : Instr) (s : State), i.kind ≠ .operation →
    (i.kind.readIn s.sink.mode s.cfg.fmt = false → ∃ r, exec i s = .refused r)
      ∧ (∀ n, s.sink.mode = .pixData n → n < ppw s.cfg → i.kind = .pixel s.cfg.fmt →
          exec i s = .refused .tmdsPartialWord)

/-- R238: every control-data word in mode `RAWDATA(n)` is held `n` clocks, whatever its bits; the four sync words with
the values of the default encoding (log entry 9). -/
def Obligations.HoldEmitsControlWord : Prop :=
  ∀ (n : Nat) (w : Word) (s : State), s.sink.mode = .rawData n →
    exec .syncV0H0 s = .next ((s.emit (List.replicate n (.ctl (syncWord s.cfg.enc false false)))).setMode .cmd)
      ∧ exec .syncV0H1 s = .next ((s.emit (List.replicate n (.ctl (syncWord s.cfg.enc false true)))).setMode .cmd)
      ∧ exec .syncV1H0 s = .next ((s.emit (List.replicate n (.ctl (syncWord s.cfg.enc true false)))).setMode .cmd)
      ∧ exec .syncV1H1 s = .next ((s.emit (List.replicate n (.ctl (syncWord s.cfg.enc true true)))).setMode .cmd)
      ∧ exec (.ctlData w) s = .next ((s.emit (List.replicate n (.ctl w))).setMode .cmd)
      ∧ exec (decodeWord s.cfg.enc (.rawData n) s.cfg.fmt w) s
          = .next ((s.emit (List.replicate n (.ctl w))).setMode .cmd)
      ∧ (s.cfg.enc = Encoding.default →
          exec .syncV0H0 s = .next ((s.emit (List.replicate n (.ctl 0x354D5354#32))).setMode .cmd)
            ∧ exec .syncV0H1 s = .next ((s.emit (List.replicate n (.ctl 0x354D50AB#32))).setMode .cmd)
            ∧ exec .syncV1H0 s = .next ((s.emit (List.replicate n (.ctl 0x354D5154#32))).setMode .cmd)
            ∧ exec .syncV1H1 s = .next ((s.emit (List.replicate n (.ctl 0x354D52AB#32))).setMode .cmd))

/-- R239: a pixel word in mode `PIXDATA(n)`, with a whole word of pixels left, streams its pixels lowest first and
counts them off. -/
def Obligations.PixelWordStreamsPixels : Prop :=
  ∀ (n : Nat) (s : State), s.sink.mode = .pixData n → ppw s.cfg ≤ n →
    (∀ px3 px2 px1 px0 : BitVec 8, s.cfg.fmt = .p1 →
        exec (.pixelWordP1 px3 px2 px1 px0) s = .next ((s.emit [.px8 px0, .px8 px1, .px8 px2, .px8 px3]).setMode
          (if n = 4 then .cmd else .pixData (n - 4))))
      ∧ (∀ px1 px0 : BitVec 16, s.cfg.fmt = .p2 →
        exec (.pixelWordP2 px1 px0) s = .next ((s.emit [.px16 px0, .px16 px1]).setMode
          (if n = 2 then .cmd else .pixData (n - 2))))

/-- 30_encoding.md section 6 (illegal and reserved encodings): the sink runs exactly the words the spec admits. In mode
`CMD` every word completes or is refused, and it completes just when it is admitted. Under every encoding a word whose
opcode no command has is refused, and so is one with a bit set above its opcode field (log entry 28). -/
def Obligations.SinkAdmitsExactly : Prop :=
  ∀ (w : Word) (s : State), s.sink.mode = .cmd →
    (admitted s.cfg (decodeWord s.cfg.enc .cmd s.cfg.fmt w) = true →
        ∃ t, exec (decodeWord s.cfg.enc .cmd s.cfg.fmt w) s = .next t)
      ∧ (admitted s.cfg (decodeWord s.cfg.enc .cmd s.cfg.fmt w) = false →
        ∃ r, exec (decodeWord s.cfg.enc .cmd s.cfg.fmt w) s = .refused r)
      ∧ (upperField s.cfg.enc w = 0 → reservedOpcode s.cfg.enc (opcodeField s.cfg.enc w) = true →
          exec (decodeWord s.cfg.enc .cmd s.cfg.fmt w) s = .refused .reservedCmd)
      ∧ (upperField s.cfg.enc w ≠ 0 → exec (decodeWord s.cfg.enc .cmd s.cfg.fmt w) s = .refused .cmdUpperBits)

/-- 43_sink_commands.md section 5 (per-line output): a blanking sequence at the head of the FIFO, popped in mode
`CMD`, emits the 800 symbols of its line and leaves mode `CMD`, under every encoding that `Encoding.ok` admits
(00_scope.md section 4; log entry 28). The whole sequence stands in the FIFO at once. -/
def Obligations.BlankingLineEmits800 : Prop :=
  ∀ (va : Bool) (rest : List Word) (s : State), s.cfg.enc.ok = true → s.sink.mode = .cmd →
    s.sink.fifo = blankSequence s.cfg va ++ rest →
    sinkRun (blankLength s.cfg) s = .done ((s.setFifo rest).emit (blankLine s.cfg va))
      ∧ (blankLine s.cfg va).length = 800

/-- 43_sink_commands.md section 5 (per-line output): a header sequence followed by any row of `ROW_WORDS` words emits
160 blanking symbols and the row's 640 pixels in order, and leaves mode `CMD`, under every encoding that `Encoding.ok`
admits (00_scope.md section 4; log entry 28). The whole line, 169 or 329 words, stands in the FIFO at once, which within
`FIFO_DEPTH` needs a depth that large. -/
def Obligations.ActiveLineEmits800 : Prop :=
  ∀ (row rest : List Word) (s : State), s.cfg.enc.ok = true → s.sink.mode = .cmd → row.length = rowWords s.cfg →
    s.sink.fifo = romActive s.cfg ++ row ++ rest →
    sinkRun (activeLength + rowWords s.cfg) s
        = .done ((s.setFifo rest).emit (activeBlanking s.cfg ++ row.flatMap (wordPixels s.cfg.fmt)))
      ∧ (activeBlanking s.cfg).length = 160
      ∧ (row.flatMap (wordPixels s.cfg.fmt)).length = 640

/-! ## Frames -/

/-- 43_sink_commands.md section 2 ("State written" of each command): a completed command writes `sink.mode` at most. -/
def Obligations.CommandFrame : Prop :=
  ∀ (i : Instr) (n : Nat) (s t : State), i = .rawRepeat n ∨ i = .tmds n ∨ i = .nop n → exec i s = .next t →
    t.cfg = s.cfg ∧ t.ctl = s.ctl ∧ t.ch0 = s.ch0 ∧ t.ch1 = s.ch1 ∧ t.irq = s.irq
      ∧ t.sink.fifo = s.sink.fifo ∧ t.sink.out = s.sink.out
      ∧ (i = .nop n → t.sink.mode = s.sink.mode)
      ∧ t.fault = s.fault ∧ t.refused = s.refused ∧ t.started = s.started ∧ t.setup = s.setup
      ∧ t.events = s.events ∧ t.turn = s.turn ∧ t.tick = s.tick
      ∧ (∀ a, readByte t.cfg t.mem a = readByte s.cfg s.mem a)

/-- 43_sink_commands.md section 4 ("State written" of the data words): a completed data word writes `sink.out`, by
appending, and `sink.mode`, and nothing else. -/
def Obligations.DataWordFrame : Prop :=
  ∀ (i : Instr) (s t : State), i.kind = .controlData ∨ i.kind = .pixel .p1 ∨ i.kind = .pixel .p2 → exec i s = .next t →
    t.cfg = s.cfg ∧ t.ctl = s.ctl ∧ t.ch0 = s.ch0 ∧ t.ch1 = s.ch1 ∧ t.irq = s.irq
      ∧ t.sink.fifo = s.sink.fifo ∧ s.sink.out <+: t.sink.out
      ∧ t.fault = s.fault ∧ t.refused = s.refused ∧ t.started = s.started ∧ t.setup = s.setup
      ∧ t.events = s.events ∧ t.turn = s.turn ∧ t.tick = s.tick
      ∧ (∀ a, readByte t.cfg t.mem a = readByte s.cfg s.mem a)

/-- 40_timing_generator.md section 3 ("Flags written" of the payload operations): a completed operation on channel `c`
writes that channel's descriptor and mark and the sub-phase flag; the flag only where the operation says so; `OP_PIX`
stores into the scratch buffer alone, and only for `P1`. -/
def Obligations.OperationFrame : Prop :=
  ∀ (i : Instr) (c : Chan) (s t : State),
    i = .opVsync c ∨ i = .opVblank c ∨ i = .opHdr c ∨ i = .opPix c → exec i s = .next t →
    t.cfg = s.cfg ∧ t.ctl.scanline = s.ctl.scanline ∧ t.ctl.parity = s.ctl.parity
      ∧ (i = .opVsync c ∨ i = .opVblank c → t.ctl.headerPosted = s.ctl.headerPosted)
      ∧ (t.chan c).cur = (s.chan c).cur ∧ (t.chan c).remaining = (s.chan c).remaining
      ∧ (t.chan c).busy = (s.chan c).busy ∧ t.chan c.other = s.chan c.other
      ∧ t.irq = s.irq ∧ t.sink = s.sink
      ∧ t.fault = s.fault ∧ t.refused = s.refused ∧ t.started = s.started ∧ t.setup = s.setup
      ∧ t.events = s.events ∧ t.turn = s.turn ∧ t.tick = s.tick
      ∧ (∀ a, ¬ (i = .opPix c ∧ s.cfg.fmt = .p1 ∧ s.cfg.scratchBase.toNat ≤ a
              ∧ a < s.cfg.scratchBase.toNat + rowBytes s.cfg) →
          readByte t.cfg t.mem a = readByte s.cfg s.mem a)

/-! ## The handler -/

/-- 43_sink_commands.md section 1: when the sink moves, the step pops the head of the FIFO and is `exec` of the
instruction the decoder reads from the word's bytes in the present mode; then the next turn is drawn (log entry 2). -/
def Obligations.StepRunsDecodedWord : Prop :=
  ∀ (s : State) (w : Word) (rest : List Word) (i : Instr), unmarked s = true → mover s = some .sink →
    s.sink.fifo = w :: rest → decodeBytes s.cfg.enc s.sink.mode s.cfg.fmt (wordBytes w) = .ok (i, []) →
    step s = mapOutcome State.passTurn (exec i (s.setFifo rest))

/-- 40_timing_generator.md section 6: when the controller moves and the channel its parity flag names has completed, the
step acknowledges and toggles, is `exec` of the operation `classify` selects, advances, and records the channel, the
payload, and the index and flag before and after (00_scope.md section 5); then the next turn is drawn (log entries 2,
11). -/
def Obligations.StepRunsSelectedOperation : Prop :=
  ∀ (s : State) (c : Chan), unmarked s = true → mover s = some .controller → c = parityChannel s.ctl.parity →
    s.pending c = true →
    step s = mapOutcome
      (fun t => State.passTurn ((advance t).record
        (.handled c (classify s.ctl.scanline s.ctl.headerPosted) s.ctl.scanline s.ctl.headerPosted
          (advance t).ctl.scanline (advance t).ctl.headerPosted)))
      (exec (payloadInstr (classify s.ctl.scanline s.ctl.headerPosted) c)
        ((s.setPending c false).setParity (!s.ctl.parity)))

/-- R263: the parity flag names the channel, whose completion must be pending; a controller step that finds none
faults `PARITY_DESYNC`, recording the flag and both bits. -/
def Obligations.IdentifyByParity : Prop :=
  ∀ s : State,
    (s.ctl.parity = false → s.irq.pending0 = true → identify s = .ok .ch0)
      ∧ (s.ctl.parity = true → s.irq.pending1 = true → identify s = .ok .ch1)
      ∧ (unmarked s = true → mover s = some .controller → s.ctl.parity = false → s.irq.pending0 = false →
          step s = .fault (.parityDesync false false s.irq.pending1))
      ∧ (unmarked s = true → mover s = some .controller → s.ctl.parity = true → s.irq.pending1 = false →
          step s = .fault (.parityDesync true s.irq.pending0 false))

/-- R73: the admission of a channel read, in the order the faults are tested. -/
def Obligations.ReadAdmission : Prop :=
  ∀ (cfg : Config) (m : List Host.Cell) (a : Word),
    (a.toNat % 4 ≠ 0 → readWord cfg m a = .misaligned)
      ∧ (a.toNat % 4 = 0 → (∀ r ∈ regions cfg, ¬ (r.base ≤ a.toNat ∧ a.toNat + 4 ≤ r.base + r.size)) →
          readWord cfg m a = .notAdmitted)
      ∧ (a.toNat % 4 = 0 → (∃ r ∈ regions cfg, r.base ≤ a.toNat ∧ a.toNat + 4 ≤ r.base + r.size) →
          (∃ k, k < 4 ∧ readByte cfg m (a.toNat + k) = none) → ∃ e, readWord cfg m a = .unwritten e)
      ∧ (a.toNat % 4 = 0 → (∃ r ∈ regions cfg, r.base ≤ a.toNat ∧ a.toNat + 4 ≤ r.base + r.size) →
          ∀ b0 b1 b2 b3 : Byte, readByte cfg m a.toNat = some b0 → readByte cfg m (a.toNat + 1) = some b1 →
            readByte cfg m (a.toNat + 2) = some b2 → readByte cfg m (a.toNat + 3) = some b3 →
            readWord cfg m a = .value (b3 ++ b2 ++ b1 ++ b0))

/-- 10_state.md section 7, 60_exceptions.md section 2, R193, R195, R196, R231: when each agent has a step, in a state
without marks, which alone has steps (R262, R271; `MarksAreFinal`). Before the
start only the setup context has one, after it the setup context has none; the controller follows the interrupt line,
a pending bit that is enabled, of either channel; a busy channel has a completion step with no word left, else a
transfer step exactly while the FIFO has room and its read does not lie outside every region; the sink has one while
the FIFO holds a word. -/
def Obligations.AgentsEnabled : Prop :=
  ∀ s : State, unmarked s = true →
    (enabled s .setup = true ↔ s.started = false ∧ s.setup ≠ .done)
      ∧ (enabled s .controller = true ↔
          s.started = true
            ∧ ((s.irq.pending0 = true ∧ s.irq.enable0 = true) ∨ (s.irq.pending1 = true ∧ s.irq.enable1 = true)))
      ∧ (∀ c, enabled s (.channel c) = true ↔
          s.started = true ∧ (s.chan c).busy = true
            ∧ ((s.chan c).remaining = 0#32
                ∨ (s.sink.fifo.length < s.cfg.fifoDepth
                    ∧ readWord s.cfg s.mem (s.chan c).cur ≠ .notAdmitted)))
      ∧ (enabled s .sink = true ↔ s.started = true ∧ s.sink.fifo ≠ [])
      ∧ (s.started = false → ∀ a, mover s = some a → a = .setup)
      ∧ (s.started = true → mover s ≠ some .setup)

/-- 42_dma_feeder.md section 3: a channel's step with words left moves the word it reads into the FIFO, and nothing else;
then the next turn is drawn (the model's own, log entry 2). -/
def Obligations.TransferMovesOneWord : Prop :=
  ∀ (c : Chan) (s : State) (w : Word), unmarked s = true → mover s = some (.channel c) →
    (s.chan c).remaining ≠ 0#32 → readWord s.cfg s.mem (s.chan c).cur = .value w →
    step s = .next ((((s.setFifo (s.sink.fifo ++ [w])).setChan c
      { s.chan c with cur := (s.chan c).cur + 4#32, remaining := (s.chan c).remaining - 1#32 }).record
        (.word c (s.chan c).cur w)).passTurn)

/-- R195: a transfer step at a misaligned address faults `MISALIGNED`; one that reads a byte nothing has written faults
`UNWRITTEN_READ`; outside every region the channel has no step. -/
def Obligations.TransferReadFaults : Prop :=
  ∀ (c : Chan) (s : State), unmarked s = true → (s.chan c).remaining ≠ 0#32 →
    (mover s = some (.channel c) → readWord s.cfg s.mem (s.chan c).cur = .misaligned →
        step s = .fault (.misaligned c (s.chan c).cur))
      ∧ (∀ a, mover s = some (.channel c) → readWord s.cfg s.mem (s.chan c).cur = .unwritten a →
        ∃ e, step s = .fault (.unwrittenRead (.channel c) e))
      ∧ (readWord s.cfg s.mem (s.chan c).cur = .notAdmitted → enabled s (.channel c) = false)

/-- R191: `Trigger` in every case. -/
def Obligations.TriggerStartsArmedChannel : Prop :=
  ∀ (c : Chan) (s : State),
    ((s.chan c).busy = true → (trigger c s).outcome = .fault (.chainBusy c))
      ∧ ((s.chan c).busy = false → (s.chan c).armed = false → (trigger c s).outcome = .fault (.underrun c))
      ∧ ((s.chan c).busy = false → (s.chan c).armed = true →
          (trigger c s).outcome = .next ((s.setChan c
            { s.chan c with cur := (s.chan c).src, remaining := (s.chan c).count, busy := true,
                            armed := false }).record (.start c (s.chan c).src (s.chan c).count)))

/-- R196, R197: the step of a channel with no word left completes it, raises its interrupt and triggers the other
channel, all in one step; it faults when the other channel is busy or was not reprogrammed. -/
def Obligations.CompletionChainsOther : Prop :=
  ∀ (c : Chan) (s : State), unmarked s = true → mover s = some (.channel c) → (s.chan c).remaining = 0#32 →
    ((s.chan c.other).busy = true → step s = .fault (.chainBusy c.other))
      ∧ ((s.chan c.other).busy = false → (s.chan c.other).armed = false →
          step s = .fault (.underrun c.other))
      ∧ ((s.chan c.other).busy = false → (s.chan c.other).armed = true →
          ∃ t, step s = .next t
            ∧ t.chan c = { s.chan c with busy := false }
            ∧ t.pending c = true ∧ t.pending c.other = s.pending c.other
            ∧ t.irq.enable0 = s.irq.enable0 ∧ t.irq.enable1 = s.irq.enable1
            ∧ t.chan c.other = { s.chan c.other with
                cur := (s.chan c.other).src, remaining := (s.chan c.other).count, busy := true,
                armed := false }
            ∧ t.events = s.events ++ [.complete c,
                .start c.other (s.chan c.other).src (s.chan c.other).count]
            ∧ t.ctl = s.ctl ∧ t.sink = s.sink ∧ t.mem = s.mem)

/-- 42_dma_feeder.md section 5 (the word stream): `n` transfer steps of a channel push, in order, the words read at
`cur`, `cur + 4`, and so on. -/
def Obligations.TransferRunPushesWords : Prop :=
  ∀ (c : Chan) (ws : List Word) (s : State),
    (∀ i, i < ws.length →
        (ws[i]?).map WordRead.value = some (readWord s.cfg s.mem ((s.chan c).cur + BitVec.ofNat 32 (4 * i)))) →
    ∃ t, transferRun c ws.length s = .done t
      ∧ t.sink.fifo = s.sink.fifo ++ ws
      ∧ (t.chan c).cur = (s.chan c).cur + BitVec.ofNat 32 (4 * ws.length)
      ∧ (t.chan c).remaining = (s.chan c).remaining - BitVec.ofNat 32 ws.length
      ∧ t.chan c.other = s.chan c.other ∧ t.ctl = s.ctl ∧ t.irq = s.irq ∧ t.mem = s.mem
      ∧ t.sink.mode = s.sink.mode ∧ t.sink.out = s.sink.out

/-! ## Reset and start-up -/

/-- R50, R51, R52 and the other values the tables of 10_state.md section 11 give, for every launch, whatever it lists; of
memory, under a correct placement, the ROM's contents and the scratch buffer, where no byte is written. The four channel
registers the spec calls unwritten are left out: their reset values are the model's choice (log entry 4); the asset is in
`ResetMeetsInvariants`. -/
def Obligations.ResetValues : Prop :=
  ∀ (cfg : Config) (image : List Host.Cell) (s : State), s = State.resetWith cfg image →
    s.ctl.scanline = 2#32 ∧ s.ctl.headerPosted = false ∧ s.ctl.parity = false
      ∧ (∀ c, (s.chan c).busy = false ∧ (s.chan c).armed = false ∧ c.chainTo = c.other
          ∧ s.pending c = false)
      ∧ s.irq.enable0 = false ∧ s.irq.enable1 = false
      ∧ s.sink.fifo = [] ∧ s.sink.mode = .cmd ∧ s.sink.out = []
      ∧ s.fault = none ∧ s.refused = none ∧ s.started = false
      ∧ (placementOk cfg = true →
          (∀ (i k : Nat) (w : Word), k < 4 →
            ((romVsync cfg)[i]? = some w →
                readByte cfg s.mem (cfg.romVsyncBase.toNat + 4 * i + k) = some (byteOfWord w k))
              ∧ ((romVblank cfg)[i]? = some w →
                readByte cfg s.mem (cfg.romVblankBase.toNat + 4 * i + k) = some (byteOfWord w k))
              ∧ ((romActive cfg)[i]? = some w →
                readByte cfg s.mem (cfg.romActiveBase.toNat + 4 * i + k) = some (byteOfWord w k)))
            ∧ (cfg.fmt = .p1 → ∀ j, j < 640 → readByte cfg s.mem (cfg.scratchBase.toNat + j) = none))

/-- R291: the first setup step queues the `VBLANK` sequence in both channels. -/
def Obligations.PreloadQueuesVblank : Prop :=
  ∀ s : State, unmarked s = true → s.started = false → s.setup = .preload →
    ∃ t, step s = .next t
      ∧ (∀ c, t.chan c = { s.chan c with
            src := s.cfg.romVblankBase, count := BitVec.ofNat 32 (blankLength s.cfg), armed := true })
      ∧ t.ctl = s.ctl ∧ t.irq = s.irq ∧ t.sink = s.sink ∧ t.mem = s.mem ∧ t.started = false
      ∧ t.setup = .enableIrq

/-- R292: the second setup step clears both pending bits and sets both enables. -/
def Obligations.EnableIrqSetsEnables : Prop :=
  ∀ s : State, unmarked s = true → s.started = false → s.setup = .enableIrq →
    ∃ t, step s = .next t
      ∧ t.irq = { pending0 := false, pending1 := false, enable0 := true, enable1 := true }
      ∧ t.ctl = s.ctl ∧ t.ch0 = s.ch0 ∧ t.ch1 = s.ch1 ∧ t.sink = s.sink ∧ t.mem = s.mem ∧ t.started = false
      ∧ t.setup = .start

/-- R293: the last setup step starts the engine and triggers channel 0 alone. -/
def Obligations.StartTriggersChannelZero : Prop :=
  ∀ s : State, unmarked s = true → s.started = false → s.setup = .start → s.ch0.busy = false → s.ch0.armed = true →
    ∃ t, step s = .next t
      ∧ t.started = true ∧ t.setup = .done
      ∧ t.ch0 = { s.ch0 with cur := s.ch0.src, remaining := s.ch0.count, busy := true, armed := false }
      ∧ t.ch1 = s.ch1 ∧ t.ctl = s.ctl ∧ t.irq = s.irq ∧ t.sink = s.sink ∧ t.mem = s.mem
      ∧ t.events = s.events ++ [.start .ch0 s.ch0.src s.ch0.count]

/-- 70_reset_and_hazards.md section 2 (the state just after `Start`), for every launch: three steps from reset. -/
def Obligations.StateAfterStart : Prop :=
  ∀ (cfg : Config) (image : List Host.Cell),
    ∃ t, Host.Core.run Sys2Proof.core 3 (State.resetWith cfg image) = .next t
      ∧ t.started = true
      ∧ t.ch0.busy = true ∧ t.ch0.cur = cfg.romVblankBase
      ∧ t.ch0.remaining = BitVec.ofNat 32 (blankLength cfg) ∧ t.ch0.armed = false
      ∧ t.ch1.busy = false ∧ t.ch1.armed = true ∧ t.ch1.src = cfg.romVblankBase
      ∧ t.ch1.count = BitVec.ofNat 32 (blankLength cfg)
      ∧ t.irq.pending0 = false ∧ t.irq.pending1 = false
      ∧ t.ctl = { scanline := 2#32, headerPosted := false, parity := false }

/-! ## The whole machine -/

/-- 10_state.md sections 10 and 11 and 70_reset_and_hazards.md section 1: the reset state of every launch meets the
invariants, its memory the canonical form where the launch lists memory in that form (log entry 6), and the asset holds
the launch image, in the model's two forms of it (log entry 5). -/
def Obligations.ResetMeetsInvariants : Prop :=
  ∀ (cfg : Config) (image : List Host.Cell),
    engineOk (State.resetWith cfg image) = true ∧ sinkOk (State.resetWith cfg image) = true
      ∧ (Memory.wf cfg image = true → Memory.wf cfg (State.resetWith cfg image).mem = true)
      ∧ (placementOk cfg = true → ∀ off, off < cfg.assetW * cfg.assetH * bpp cfg →
          readByte cfg (State.resetWith cfg image).mem (cfg.assetBase.toNat + off)
            = if cfg.assetWritten then some (Config.launchImage off) else lookup image (cfg.assetBase.toNat + off))

/-- 10_state.md section 10 (with what makes it inductive): every step keeps the engine's invariant, from every state
that has it. -/
def Obligations.StepKeepsEngineOk : Prop :=
  ∀ s t : State, engineOk s = true → step s = .next t → engineOk t = true

/-- 10_state.md section 10, (a) to (e): what the invariant says after start. -/
def Obligations.EngineOkGivesTheFive : Prop :=
  ∀ s : State, engineOk s = true → s.started = true →
    s.ctl.scanline.toNat < 525
      ∧ (s.ctl.headerPosted = true → 45 ≤ s.ctl.scanline.toNat)
      ∧ ¬ (s.irq.pending0 = true ∧ s.irq.pending1 = true)
      ∧ ¬ (s.ch0.busy = true ∧ s.ch1.busy = true)
      ∧ (s.ch0.busy = true ∨ s.ch1.busy = true)
      ∧ (irqLine s = true → (s.chan (parityChannel s.ctl.parity)).busy = false)

/-- 42_dma_feeder.md section 5: from every state with the invariant, no step reprograms or chain-triggers a busy
channel, and the parity flag never loses its channel. -/
def Obligations.EngineNeverDesyncs : Prop :=
  ∀ s : State, engineOk s = true → s.fault = none →
    (∀ c, step s ≠ .fault (.busyReprogram c)) ∧ (∀ c, step s ≠ .fault (.chainBusy c))
      ∧ (∀ p a b, step s ≠ .fault (.parityDesync p a b))

/-- 70_reset_and_hazards.md section 4 (the scratch-buffer hazard): with a correct placement, no step from a state with
the invariant faults `SCRATCH_RACE`. -/
def Obligations.ScratchRaceUnreachable : Prop :=
  ∀ (s : State) (k : Chan), engineOk s = true → placementOk s.cfg = true → s.fault = none →
    step s ≠ .fault (.scratchRace k)

/-- 70_reset_and_hazards.md section 4 (the lead-time hazard): when the busy channel completes while the other one's
completion has not been handled, the step faults `UNDERRUN` on the other. -/
def Obligations.MissedDeadlineFaults : Prop :=
  ∀ (s : State) (b : Chan), engineOk s = true → unmarked s = true → mover s = some (.channel b) →
    (s.chan b).remaining = 0#32 → s.pending b.other = true →
    step s = .fault (.underrun b.other)

/-- 60_exceptions.md section 3 (no deadlock): after start, with the invariant, no mark, a FIFO of some depth and the read
of a busy channel with words left inside a region, some agent has a step. -/
def Obligations.SomeAgentCanMove : Prop :=
  ∀ s : State, engineOk s = true → unmarked s = true → s.started = true → 1 ≤ s.cfg.fifoDepth →
    (∀ c, (s.chan c).busy = true → (s.chan c).remaining ≠ 0#32 → readWord s.cfg s.mem (s.chan c).cur ≠ .notAdmitted) →
    (mover s).isSome = true

/-- 10_state.md section 5 and 43_sink_commands.md sections 2 and 4: every step keeps the FIFO within its depth and the
sink's count one the commands admit, within the count field (of any width, log entry 28). -/
def Obligations.StepKeepsSinkOk : Prop :=
  ∀ s t : State, sinkOk s = true → step s = .next t → sinkOk t = true

/-- The model's canonical form of memory (log entry 6): every step keeps it. -/
def Obligations.StepKeepsMemoryCanonical : Prop :=
  ∀ s t : State, Memory.wf s.cfg s.mem = true → step s = .next t → Memory.wf t.cfg t.mem = true

/-- R72: no step changes a byte outside the scratch buffer, the ROM's and the asset's among them; the launch parameters
never change. -/
def Obligations.OnlyScratchIsWritten : Prop :=
  ∀ s t : State, step s = .next t →
    t.cfg = s.cfg
      ∧ ∀ a, (regionOf s.cfg a 1).map Region.kind ≠ some .scratch →
          readByte t.cfg t.mem a = readByte s.cfg s.mem a

/-- 10_state.md section 8 (ownership): after start, a step of another agent than the controller leaves the controller's
registers, the descriptors and memory alone, sets no `armed` mark (a trigger clears one) and clears no pending bit; a
channel's step writes, of the sink, the FIFO alone, by appending, and sets no other channel's pending bit; a controller
step leaves the channels' live fields and the sink alone. -/
def Obligations.ControllerIsSingleWriter : Prop :=
  ∀ s t : State, s.started = true → step s = .next t →
    (mover s ≠ some .controller →
        t.ctl = s.ctl ∧ t.mem = s.mem
          ∧ ∀ c, (t.chan c).src = (s.chan c).src ∧ (t.chan c).count = (s.chan c).count
              ∧ ((t.chan c).armed = true → (s.chan c).armed = true)
              ∧ (s.pending c = true → t.pending c = true))
      ∧ (∀ c, mover s = some (.channel c) →
          s.sink.fifo <+: t.sink.fifo ∧ t.sink.mode = s.sink.mode ∧ t.sink.out = s.sink.out
            ∧ t.pending c.other = s.pending c.other)
      ∧ (mover s = some .controller →
          t.sink = s.sink
            ∧ ∀ c, (t.chan c).cur = (s.chan c).cur ∧ (t.chan c).remaining = (s.chan c).remaining
                ∧ (t.chan c).busy = (s.chan c).busy)

/-- 00_scope.md section 5 (the observation): no step takes back an emitted symbol or a recorded event. -/
def Obligations.ObservationOnlyGrows : Prop :=
  ∀ s t : State, step s = .next t → s.sink.out <+: t.sink.out ∧ s.events <+: t.events

/-- 60_exceptions.md section 3 (R271): a marked state answers its mark for ever, and no step clears it; a stop sets the mark
in the state `nextMarked` gives, the model's form of the state after a stop (log entry 7). -/
def Obligations.MarksAreFinal : Prop :=
  ∀ s : State,
    (∀ f, s.fault = some f → step s = .fault f ∧ nextMarked s = s)
      ∧ (∀ r, s.fault = none → s.refused = some r → step s = .refused r ∧ nextMarked s = s)
      ∧ (∀ f, step s = .fault f → (nextMarked s).fault = some f)
      ∧ (∀ r, step s = .refused r → (nextMarked s).refused = some r)

/-- R272, in the model's form (log entry 2): whichever agent the turn names moves, if it has an enabled step. -/
def Obligations.AnyEnabledAgentMayMove : Prop :=
  ∀ s : State, unmarked s = true → enabled s s.turn = true →
    step s = mapOutcome State.passTurn (agentStep s.turn s).outcome
end

