-- ==== Sys2Proof/Laws/State.lean ====
section
/-! SUPPORT. What each update of the state writes and leaves: one lemma per field and update, all by unfolding the
record once, so that no later proof unfolds a record update. -/

namespace Sys2Proof.Machine

variable (s : State)

/-! ## The two channels -/

@[simp] theorem Chan.other_other (c : Chan) : Chan.other c.other = c := by cases c <;> rfl
@[simp] theorem Chan.other_ch0 : Chan.other .ch0 = .ch1 := rfl
@[simp] theorem Chan.other_ch1 : Chan.other .ch1 = .ch0 := rfl
@[simp] theorem Chan.other_ne (c : Chan) : Chan.other c ≠ c := by cases c <;> decide
@[simp] theorem Chan.ne_other (c : Chan) : c ≠ Chan.other c := by cases c <;> decide
theorem Chan.eq_or_other (c d : Chan) : d = c ∨ d = Chan.other c := by cases c <;> cases d <;> decide
@[simp] theorem Chan.chainTo_eq (c : Chan) : c.chainTo = c.other := rfl
@[simp] theorem parityChannel_not (b : Bool) : parityChannel (!b) = Chan.other (parityChannel b) := by
  cases b <;> rfl

theorem State.chan_ch0 : s.chan .ch0 = s.ch0 := rfl
theorem State.chan_ch1 : s.chan .ch1 = s.ch1 := rfl
@[simp] theorem State.setChan_chan_self (c : Chan) (v : Channel) : (s.setChan c v).chan c = v := by cases c <;> rfl
@[simp] theorem State.setChan_chan_other (c : Chan) (v : Channel) :
    (s.setChan c v).chan c.other = s.chan c.other := by cases c <;> rfl
@[simp] theorem State.setChan_other_chan (c : Chan) (v : Channel) :
    (s.setChan c.other v).chan c = s.chan c := by cases c <;> rfl
theorem State.setChan_chan_of_ne {c d : Chan} (h : d ≠ c) (v : Channel) : (s.setChan c v).chan d = s.chan d := by
  cases c <;> cases d <;> first | rfl | exact absurd rfl h
@[simp] theorem State.setPending_pending_self (c : Chan) (b : Bool) : (s.setPending c b).pending c = b := by
  cases c <;> rfl
@[simp] theorem State.setPending_pending_other (c : Chan) (b : Bool) :
    (s.setPending c b).pending c.other = s.pending c.other := by cases c <;> rfl
@[simp] theorem State.setPending_other_pending (c : Chan) (b : Bool) :
    (s.setPending c.other b).pending c = s.pending c := by cases c <;> rfl
theorem State.setPending_pending_of_ne {c d : Chan} (h : d ≠ c) (b : Bool) :
    (s.setPending c b).pending d = s.pending d := by
  cases c <;> cases d <;> first | rfl | exact absurd rfl h

@[simp] theorem State.setChan_ch0_chan_ch1 (v : Channel) : (s.setChan .ch0 v).chan .ch1 = s.chan .ch1 := rfl
@[simp] theorem State.setChan_ch1_chan_ch0 (v : Channel) : (s.setChan .ch1 v).chan .ch0 = s.chan .ch0 := rfl
@[simp] theorem State.setChan_ch0_ch0 (v : Channel) : (s.setChan .ch0 v).ch0 = v := rfl
@[simp] theorem State.setChan_ch0_ch1 (v : Channel) : (s.setChan .ch0 v).ch1 = s.ch1 := rfl
@[simp] theorem State.setChan_ch1_ch0 (v : Channel) : (s.setChan .ch1 v).ch0 = s.ch0 := rfl
@[simp] theorem State.setChan_ch1_ch1 (v : Channel) : (s.setChan .ch1 v).ch1 = v := rfl
@[simp] theorem State.setPending_ch0_pending_ch1 (b : Bool) : (s.setPending .ch0 b).pending .ch1 = s.pending .ch1 := rfl
@[simp] theorem State.setPending_ch1_pending_ch0 (b : Bool) : (s.setPending .ch1 b).pending .ch0 = s.pending .ch0 := rfl

/-! ## `State.setChan` -/

@[simp] theorem State.setChan_cfg (c : Chan) (v : Channel) : (s.setChan c v).cfg = s.cfg := by cases c <;> rfl
@[simp] theorem State.setChan_ctl (c : Chan) (v : Channel) : (s.setChan c v).ctl = s.ctl := by cases c <;> rfl
@[simp] theorem State.setChan_irq (c : Chan) (v : Channel) : (s.setChan c v).irq = s.irq := by cases c <;> rfl
@[simp] theorem State.setChan_sink (c : Chan) (v : Channel) : (s.setChan c v).sink = s.sink := by cases c <;> rfl
@[simp] theorem State.setChan_mem (c : Chan) (v : Channel) : (s.setChan c v).mem = s.mem := by cases c <;> rfl
@[simp] theorem State.setChan_fault (c : Chan) (v : Channel) : (s.setChan c v).fault = s.fault := by cases c <;> rfl
@[simp] theorem State.setChan_refused (c : Chan) (v : Channel) : (s.setChan c v).refused = s.refused := by cases c <;> rfl
@[simp] theorem State.setChan_started (c : Chan) (v : Channel) : (s.setChan c v).started = s.started := by cases c <;> rfl
@[simp] theorem State.setChan_setup (c : Chan) (v : Channel) : (s.setChan c v).setup = s.setup := by cases c <;> rfl
@[simp] theorem State.setChan_events (c : Chan) (v : Channel) : (s.setChan c v).events = s.events := by cases c <;> rfl
@[simp] theorem State.setChan_turn (c : Chan) (v : Channel) : (s.setChan c v).turn = s.turn := by cases c <;> rfl
@[simp] theorem State.setChan_tick (c : Chan) (v : Channel) : (s.setChan c v).tick = s.tick := by cases c <;> rfl
@[simp] theorem State.setChan_pending (c : Chan) (v : Channel) (d : Chan) : (s.setChan c v).pending d = s.pending d := by cases c <;> cases d <;> rfl

/-! ## `State.setPending` -/

@[simp] theorem State.setPending_cfg (c : Chan) (b : Bool) : (s.setPending c b).cfg = s.cfg := by cases c <;> rfl
@[simp] theorem State.setPending_ctl (c : Chan) (b : Bool) : (s.setPending c b).ctl = s.ctl := by cases c <;> rfl
@[simp] theorem State.setPending_ch0 (c : Chan) (b : Bool) : (s.setPending c b).ch0 = s.ch0 := by cases c <;> rfl
@[simp] theorem State.setPending_ch1 (c : Chan) (b : Bool) : (s.setPending c b).ch1 = s.ch1 := by cases c <;> rfl
@[simp] theorem State.setPending_sink (c : Chan) (b : Bool) : (s.setPending c b).sink = s.sink := by cases c <;> rfl
@[simp] theorem State.setPending_mem (c : Chan) (b : Bool) : (s.setPending c b).mem = s.mem := by cases c <;> rfl
@[simp] theorem State.setPending_fault (c : Chan) (b : Bool) : (s.setPending c b).fault = s.fault := by cases c <;> rfl
@[simp] theorem State.setPending_refused (c : Chan) (b : Bool) : (s.setPending c b).refused = s.refused := by cases c <;> rfl
@[simp] theorem State.setPending_started (c : Chan) (b : Bool) : (s.setPending c b).started = s.started := by cases c <;> rfl
@[simp] theorem State.setPending_setup (c : Chan) (b : Bool) : (s.setPending c b).setup = s.setup := by cases c <;> rfl
@[simp] theorem State.setPending_events (c : Chan) (b : Bool) : (s.setPending c b).events = s.events := by cases c <;> rfl
@[simp] theorem State.setPending_turn (c : Chan) (b : Bool) : (s.setPending c b).turn = s.turn := by cases c <;> rfl
@[simp] theorem State.setPending_tick (c : Chan) (b : Bool) : (s.setPending c b).tick = s.tick := by cases c <;> rfl
@[simp] theorem State.setPending_irq_enable0 (c : Chan) (b : Bool) :
    (s.setPending c b).irq.enable0 = s.irq.enable0 := by cases c <;> rfl
@[simp] theorem State.setPending_irq_enable1 (c : Chan) (b : Bool) :
    (s.setPending c b).irq.enable1 = s.irq.enable1 := by cases c <;> rfl
@[simp] theorem State.setPending_chan (c : Chan) (b : Bool) (d : Chan) : (s.setPending c b).chan d = s.chan d := by cases c <;> cases d <;> rfl

/-! ## `State.setIrq` -/

@[simp] theorem State.setIrq_cfg (v : Irq) : (s.setIrq v).cfg = s.cfg := rfl
@[simp] theorem State.setIrq_ctl (v : Irq) : (s.setIrq v).ctl = s.ctl := rfl
@[simp] theorem State.setIrq_ch0 (v : Irq) : (s.setIrq v).ch0 = s.ch0 := rfl
@[simp] theorem State.setIrq_ch1 (v : Irq) : (s.setIrq v).ch1 = s.ch1 := rfl
@[simp] theorem State.setIrq_sink (v : Irq) : (s.setIrq v).sink = s.sink := rfl
@[simp] theorem State.setIrq_mem (v : Irq) : (s.setIrq v).mem = s.mem := rfl
@[simp] theorem State.setIrq_fault (v : Irq) : (s.setIrq v).fault = s.fault := rfl
@[simp] theorem State.setIrq_refused (v : Irq) : (s.setIrq v).refused = s.refused := rfl
@[simp] theorem State.setIrq_started (v : Irq) : (s.setIrq v).started = s.started := rfl
@[simp] theorem State.setIrq_setup (v : Irq) : (s.setIrq v).setup = s.setup := rfl
@[simp] theorem State.setIrq_events (v : Irq) : (s.setIrq v).events = s.events := rfl
@[simp] theorem State.setIrq_turn (v : Irq) : (s.setIrq v).turn = s.turn := rfl
@[simp] theorem State.setIrq_tick (v : Irq) : (s.setIrq v).tick = s.tick := rfl
@[simp] theorem State.setIrq_irq (v : Irq) :
    (s.setIrq v).irq = v := rfl
@[simp] theorem State.setIrq_chan (v : Irq) (d : Chan) : (s.setIrq v).chan d = s.chan d := by cases d <;> rfl

/-! ## `State.setScanline` -/

@[simp] theorem State.setScanline_cfg (v : Word) : (s.setScanline v).cfg = s.cfg := rfl
@[simp] theorem State.setScanline_ch0 (v : Word) : (s.setScanline v).ch0 = s.ch0 := rfl
@[simp] theorem State.setScanline_ch1 (v : Word) : (s.setScanline v).ch1 = s.ch1 := rfl
@[simp] theorem State.setScanline_irq (v : Word) : (s.setScanline v).irq = s.irq := rfl
@[simp] theorem State.setScanline_sink (v : Word) : (s.setScanline v).sink = s.sink := rfl
@[simp] theorem State.setScanline_mem (v : Word) : (s.setScanline v).mem = s.mem := rfl
@[simp] theorem State.setScanline_fault (v : Word) : (s.setScanline v).fault = s.fault := rfl
@[simp] theorem State.setScanline_refused (v : Word) : (s.setScanline v).refused = s.refused := rfl
@[simp] theorem State.setScanline_started (v : Word) : (s.setScanline v).started = s.started := rfl
@[simp] theorem State.setScanline_setup (v : Word) : (s.setScanline v).setup = s.setup := rfl
@[simp] theorem State.setScanline_events (v : Word) : (s.setScanline v).events = s.events := rfl
@[simp] theorem State.setScanline_turn (v : Word) : (s.setScanline v).turn = s.turn := rfl
@[simp] theorem State.setScanline_tick (v : Word) : (s.setScanline v).tick = s.tick := rfl
@[simp] theorem State.setScanline_ctl_scanline (v : Word) :
    (s.setScanline v).ctl.scanline = v := rfl
@[simp] theorem State.setScanline_ctl_headerPosted (v : Word) :
    (s.setScanline v).ctl.headerPosted = s.ctl.headerPosted := rfl
@[simp] theorem State.setScanline_ctl_parity (v : Word) :
    (s.setScanline v).ctl.parity = s.ctl.parity := rfl
@[simp] theorem State.setScanline_chan (v : Word) (d : Chan) : (s.setScanline v).chan d = s.chan d := by cases d <;> rfl
@[simp] theorem State.setScanline_pending (v : Word) (d : Chan) : (s.setScanline v).pending d = s.pending d := by cases d <;> rfl

/-! ## `State.setHeaderPosted` -/

@[simp] theorem State.setHeaderPosted_cfg (b : Bool) : (s.setHeaderPosted b).cfg = s.cfg := rfl
@[simp] theorem State.setHeaderPosted_ch0 (b : Bool) : (s.setHeaderPosted b).ch0 = s.ch0 := rfl
@[simp] theorem State.setHeaderPosted_ch1 (b : Bool) : (s.setHeaderPosted b).ch1 = s.ch1 := rfl
@[simp] theorem State.setHeaderPosted_irq (b : Bool) : (s.setHeaderPosted b).irq = s.irq := rfl
@[simp] theorem State.setHeaderPosted_sink (b : Bool) : (s.setHeaderPosted b).sink = s.sink := rfl
@[simp] theorem State.setHeaderPosted_mem (b : Bool) : (s.setHeaderPosted b).mem = s.mem := rfl
@[simp] theorem State.setHeaderPosted_fault (b : Bool) : (s.setHeaderPosted b).fault = s.fault := rfl
@[simp] theorem State.setHeaderPosted_refused (b : Bool) : (s.setHeaderPosted b).refused = s.refused := rfl
@[simp] theorem State.setHeaderPosted_started (b : Bool) : (s.setHeaderPosted b).started = s.started := rfl
@[simp] theorem State.setHeaderPosted_setup (b : Bool) : (s.setHeaderPosted b).setup = s.setup := rfl
@[simp] theorem State.setHeaderPosted_events (b : Bool) : (s.setHeaderPosted b).events = s.events := rfl
@[simp] theorem State.setHeaderPosted_turn (b : Bool) : (s.setHeaderPosted b).turn = s.turn := rfl
@[simp] theorem State.setHeaderPosted_tick (b : Bool) : (s.setHeaderPosted b).tick = s.tick := rfl
@[simp] theorem State.setHeaderPosted_ctl_scanline (b : Bool) :
    (s.setHeaderPosted b).ctl.scanline = s.ctl.scanline := rfl
@[simp] theorem State.setHeaderPosted_ctl_headerPosted (b : Bool) :
    (s.setHeaderPosted b).ctl.headerPosted = b := rfl
@[simp] theorem State.setHeaderPosted_ctl_parity (b : Bool) :
    (s.setHeaderPosted b).ctl.parity = s.ctl.parity := rfl
@[simp] theorem State.setHeaderPosted_chan (b : Bool) (d : Chan) : (s.setHeaderPosted b).chan d = s.chan d := by cases d <;> rfl
@[simp] theorem State.setHeaderPosted_pending (b : Bool) (d : Chan) : (s.setHeaderPosted b).pending d = s.pending d := by cases d <;> rfl

/-! ## `State.setParity` -/

@[simp] theorem State.setParity_cfg (b : Bool) : (s.setParity b).cfg = s.cfg := rfl
@[simp] theorem State.setParity_ch0 (b : Bool) : (s.setParity b).ch0 = s.ch0 := rfl
@[simp] theorem State.setParity_ch1 (b : Bool) : (s.setParity b).ch1 = s.ch1 := rfl
@[simp] theorem State.setParity_irq (b : Bool) : (s.setParity b).irq = s.irq := rfl
@[simp] theorem State.setParity_sink (b : Bool) : (s.setParity b).sink = s.sink := rfl
@[simp] theorem State.setParity_mem (b : Bool) : (s.setParity b).mem = s.mem := rfl
@[simp] theorem State.setParity_fault (b : Bool) : (s.setParity b).fault = s.fault := rfl
@[simp] theorem State.setParity_refused (b : Bool) : (s.setParity b).refused = s.refused := rfl
@[simp] theorem State.setParity_started (b : Bool) : (s.setParity b).started = s.started := rfl
@[simp] theorem State.setParity_setup (b : Bool) : (s.setParity b).setup = s.setup := rfl
@[simp] theorem State.setParity_events (b : Bool) : (s.setParity b).events = s.events := rfl
@[simp] theorem State.setParity_turn (b : Bool) : (s.setParity b).turn = s.turn := rfl
@[simp] theorem State.setParity_tick (b : Bool) : (s.setParity b).tick = s.tick := rfl
@[simp] theorem State.setParity_ctl_scanline (b : Bool) :
    (s.setParity b).ctl.scanline = s.ctl.scanline := rfl
@[simp] theorem State.setParity_ctl_headerPosted (b : Bool) :
    (s.setParity b).ctl.headerPosted = s.ctl.headerPosted := rfl
@[simp] theorem State.setParity_ctl_parity (b : Bool) :
    (s.setParity b).ctl.parity = b := rfl
@[simp] theorem State.setParity_chan (b : Bool) (d : Chan) : (s.setParity b).chan d = s.chan d := by cases d <;> rfl
@[simp] theorem State.setParity_pending (b : Bool) (d : Chan) : (s.setParity b).pending d = s.pending d := by cases d <;> rfl

/-! ## `State.setFifo` -/

@[simp] theorem State.setFifo_cfg (ws : List Word) : (s.setFifo ws).cfg = s.cfg := rfl
@[simp] theorem State.setFifo_ctl (ws : List Word) : (s.setFifo ws).ctl = s.ctl := rfl
@[simp] theorem State.setFifo_ch0 (ws : List Word) : (s.setFifo ws).ch0 = s.ch0 := rfl
@[simp] theorem State.setFifo_ch1 (ws : List Word) : (s.setFifo ws).ch1 = s.ch1 := rfl
@[simp] theorem State.setFifo_irq (ws : List Word) : (s.setFifo ws).irq = s.irq := rfl
@[simp] theorem State.setFifo_mem (ws : List Word) : (s.setFifo ws).mem = s.mem := rfl
@[simp] theorem State.setFifo_fault (ws : List Word) : (s.setFifo ws).fault = s.fault := rfl
@[simp] theorem State.setFifo_refused (ws : List Word) : (s.setFifo ws).refused = s.refused := rfl
@[simp] theorem State.setFifo_started (ws : List Word) : (s.setFifo ws).started = s.started := rfl
@[simp] theorem State.setFifo_setup (ws : List Word) : (s.setFifo ws).setup = s.setup := rfl
@[simp] theorem State.setFifo_events (ws : List Word) : (s.setFifo ws).events = s.events := rfl
@[simp] theorem State.setFifo_turn (ws : List Word) : (s.setFifo ws).turn = s.turn := rfl
@[simp] theorem State.setFifo_tick (ws : List Word) : (s.setFifo ws).tick = s.tick := rfl
@[simp] theorem State.setFifo_sink_fifo (ws : List Word) :
    (s.setFifo ws).sink.fifo = ws := rfl
@[simp] theorem State.setFifo_sink_mode (ws : List Word) :
    (s.setFifo ws).sink.mode = s.sink.mode := rfl
@[simp] theorem State.setFifo_sink_out (ws : List Word) :
    (s.setFifo ws).sink.out = s.sink.out := rfl
@[simp] theorem State.setFifo_chan (ws : List Word) (d : Chan) : (s.setFifo ws).chan d = s.chan d := by cases d <;> rfl
@[simp] theorem State.setFifo_pending (ws : List Word) (d : Chan) : (s.setFifo ws).pending d = s.pending d := by cases d <;> rfl

/-! ## `State.push` -/

@[simp] theorem State.push_cfg (w : Word) : (s.push w).cfg = s.cfg := rfl
@[simp] theorem State.push_ctl (w : Word) : (s.push w).ctl = s.ctl := rfl
@[simp] theorem State.push_ch0 (w : Word) : (s.push w).ch0 = s.ch0 := rfl
@[simp] theorem State.push_ch1 (w : Word) : (s.push w).ch1 = s.ch1 := rfl
@[simp] theorem State.push_irq (w : Word) : (s.push w).irq = s.irq := rfl
@[simp] theorem State.push_mem (w : Word) : (s.push w).mem = s.mem := rfl
@[simp] theorem State.push_fault (w : Word) : (s.push w).fault = s.fault := rfl
@[simp] theorem State.push_refused (w : Word) : (s.push w).refused = s.refused := rfl
@[simp] theorem State.push_started (w : Word) : (s.push w).started = s.started := rfl
@[simp] theorem State.push_setup (w : Word) : (s.push w).setup = s.setup := rfl
@[simp] theorem State.push_events (w : Word) : (s.push w).events = s.events := rfl
@[simp] theorem State.push_turn (w : Word) : (s.push w).turn = s.turn := rfl
@[simp] theorem State.push_tick (w : Word) : (s.push w).tick = s.tick := rfl
@[simp] theorem State.push_sink_fifo (w : Word) :
    (s.push w).sink.fifo = s.sink.fifo ++ [w] := rfl
@[simp] theorem State.push_sink_mode (w : Word) :
    (s.push w).sink.mode = s.sink.mode := rfl
@[simp] theorem State.push_sink_out (w : Word) :
    (s.push w).sink.out = s.sink.out := rfl
@[simp] theorem State.push_chan (w : Word) (d : Chan) : (s.push w).chan d = s.chan d := by cases d <;> rfl
@[simp] theorem State.push_pending (w : Word) (d : Chan) : (s.push w).pending d = s.pending d := by cases d <;> rfl

/-! ## `State.setMode` -/

@[simp] theorem State.setMode_cfg (m : SinkMode) : (s.setMode m).cfg = s.cfg := rfl
@[simp] theorem State.setMode_ctl (m : SinkMode) : (s.setMode m).ctl = s.ctl := rfl
@[simp] theorem State.setMode_ch0 (m : SinkMode) : (s.setMode m).ch0 = s.ch0 := rfl
@[simp] theorem State.setMode_ch1 (m : SinkMode) : (s.setMode m).ch1 = s.ch1 := rfl
@[simp] theorem State.setMode_irq (m : SinkMode) : (s.setMode m).irq = s.irq := rfl
@[simp] theorem State.setMode_mem (m : SinkMode) : (s.setMode m).mem = s.mem := rfl
@[simp] theorem State.setMode_fault (m : SinkMode) : (s.setMode m).fault = s.fault := rfl
@[simp] theorem State.setMode_refused (m : SinkMode) : (s.setMode m).refused = s.refused := rfl
@[simp] theorem State.setMode_started (m : SinkMode) : (s.setMode m).started = s.started := rfl
@[simp] theorem State.setMode_setup (m : SinkMode) : (s.setMode m).setup = s.setup := rfl
@[simp] theorem State.setMode_events (m : SinkMode) : (s.setMode m).events = s.events := rfl
@[simp] theorem State.setMode_turn (m : SinkMode) : (s.setMode m).turn = s.turn := rfl
@[simp] theorem State.setMode_tick (m : SinkMode) : (s.setMode m).tick = s.tick := rfl
@[simp] theorem State.setMode_sink_fifo (m : SinkMode) :
    (s.setMode m).sink.fifo = s.sink.fifo := rfl
@[simp] theorem State.setMode_sink_mode (m : SinkMode) :
    (s.setMode m).sink.mode = m := rfl
@[simp] theorem State.setMode_sink_out (m : SinkMode) :
    (s.setMode m).sink.out = s.sink.out := rfl
@[simp] theorem State.setMode_chan (m : SinkMode) (d : Chan) : (s.setMode m).chan d = s.chan d := by cases d <;> rfl
@[simp] theorem State.setMode_pending (m : SinkMode) (d : Chan) : (s.setMode m).pending d = s.pending d := by cases d <;> rfl

/-! ## `State.emit` -/

@[simp] theorem State.emit_cfg (l : List Symbol) : (s.emit l).cfg = s.cfg := rfl
@[simp] theorem State.emit_ctl (l : List Symbol) : (s.emit l).ctl = s.ctl := rfl
@[simp] theorem State.emit_ch0 (l : List Symbol) : (s.emit l).ch0 = s.ch0 := rfl
@[simp] theorem State.emit_ch1 (l : List Symbol) : (s.emit l).ch1 = s.ch1 := rfl
@[simp] theorem State.emit_irq (l : List Symbol) : (s.emit l).irq = s.irq := rfl
@[simp] theorem State.emit_mem (l : List Symbol) : (s.emit l).mem = s.mem := rfl
@[simp] theorem State.emit_fault (l : List Symbol) : (s.emit l).fault = s.fault := rfl
@[simp] theorem State.emit_refused (l : List Symbol) : (s.emit l).refused = s.refused := rfl
@[simp] theorem State.emit_started (l : List Symbol) : (s.emit l).started = s.started := rfl
@[simp] theorem State.emit_setup (l : List Symbol) : (s.emit l).setup = s.setup := rfl
@[simp] theorem State.emit_events (l : List Symbol) : (s.emit l).events = s.events := rfl
@[simp] theorem State.emit_turn (l : List Symbol) : (s.emit l).turn = s.turn := rfl
@[simp] theorem State.emit_tick (l : List Symbol) : (s.emit l).tick = s.tick := rfl
@[simp] theorem State.emit_sink_fifo (l : List Symbol) :
    (s.emit l).sink.fifo = s.sink.fifo := rfl
@[simp] theorem State.emit_sink_mode (l : List Symbol) :
    (s.emit l).sink.mode = s.sink.mode := rfl
@[simp] theorem State.emit_sink_out (l : List Symbol) :
    (s.emit l).sink.out = s.sink.out ++ l := rfl
@[simp] theorem State.emit_chan (l : List Symbol) (d : Chan) : (s.emit l).chan d = s.chan d := by cases d <;> rfl
@[simp] theorem State.emit_pending (l : List Symbol) (d : Chan) : (s.emit l).pending d = s.pending d := by cases d <;> rfl

/-! ## `State.setMem` -/

@[simp] theorem State.setMem_cfg (m : List Host.Cell) : (s.setMem m).cfg = s.cfg := rfl
@[simp] theorem State.setMem_ctl (m : List Host.Cell) : (s.setMem m).ctl = s.ctl := rfl
@[simp] theorem State.setMem_ch0 (m : List Host.Cell) : (s.setMem m).ch0 = s.ch0 := rfl
@[simp] theorem State.setMem_ch1 (m : List Host.Cell) : (s.setMem m).ch1 = s.ch1 := rfl
@[simp] theorem State.setMem_irq (m : List Host.Cell) : (s.setMem m).irq = s.irq := rfl
@[simp] theorem State.setMem_sink (m : List Host.Cell) : (s.setMem m).sink = s.sink := rfl
@[simp] theorem State.setMem_fault (m : List Host.Cell) : (s.setMem m).fault = s.fault := rfl
@[simp] theorem State.setMem_refused (m : List Host.Cell) : (s.setMem m).refused = s.refused := rfl
@[simp] theorem State.setMem_started (m : List Host.Cell) : (s.setMem m).started = s.started := rfl
@[simp] theorem State.setMem_setup (m : List Host.Cell) : (s.setMem m).setup = s.setup := rfl
@[simp] theorem State.setMem_events (m : List Host.Cell) : (s.setMem m).events = s.events := rfl
@[simp] theorem State.setMem_turn (m : List Host.Cell) : (s.setMem m).turn = s.turn := rfl
@[simp] theorem State.setMem_tick (m : List Host.Cell) : (s.setMem m).tick = s.tick := rfl
@[simp] theorem State.setMem_mem (m : List Host.Cell) :
    (s.setMem m).mem = m := rfl
@[simp] theorem State.setMem_chan (m : List Host.Cell) (d : Chan) : (s.setMem m).chan d = s.chan d := by cases d <;> rfl
@[simp] theorem State.setMem_pending (m : List Host.Cell) (d : Chan) : (s.setMem m).pending d = s.pending d := by cases d <;> rfl

/-! ## `State.setStarted` -/

@[simp] theorem State.setStarted_cfg (b : Bool) : (s.setStarted b).cfg = s.cfg := rfl
@[simp] theorem State.setStarted_ctl (b : Bool) : (s.setStarted b).ctl = s.ctl := rfl
@[simp] theorem State.setStarted_ch0 (b : Bool) : (s.setStarted b).ch0 = s.ch0 := rfl
@[simp] theorem State.setStarted_ch1 (b : Bool) : (s.setStarted b).ch1 = s.ch1 := rfl
@[simp] theorem State.setStarted_irq (b : Bool) : (s.setStarted b).irq = s.irq := rfl
@[simp] theorem State.setStarted_sink (b : Bool) : (s.setStarted b).sink = s.sink := rfl
@[simp] theorem State.setStarted_mem (b : Bool) : (s.setStarted b).mem = s.mem := rfl
@[simp] theorem State.setStarted_fault (b : Bool) : (s.setStarted b).fault = s.fault := rfl
@[simp] theorem State.setStarted_refused (b : Bool) : (s.setStarted b).refused = s.refused := rfl
@[simp] theorem State.setStarted_setup (b : Bool) : (s.setStarted b).setup = s.setup := rfl
@[simp] theorem State.setStarted_events (b : Bool) : (s.setStarted b).events = s.events := rfl
@[simp] theorem State.setStarted_turn (b : Bool) : (s.setStarted b).turn = s.turn := rfl
@[simp] theorem State.setStarted_tick (b : Bool) : (s.setStarted b).tick = s.tick := rfl
@[simp] theorem State.setStarted_started (b : Bool) :
    (s.setStarted b).started = b := rfl
@[simp] theorem State.setStarted_chan (b : Bool) (d : Chan) : (s.setStarted b).chan d = s.chan d := by cases d <;> rfl
@[simp] theorem State.setStarted_pending (b : Bool) (d : Chan) : (s.setStarted b).pending d = s.pending d := by cases d <;> rfl

/-! ## `State.setSetup` -/

@[simp] theorem State.setSetup_cfg (x : SetupStage) : (s.setSetup x).cfg = s.cfg := rfl
@[simp] theorem State.setSetup_ctl (x : SetupStage) : (s.setSetup x).ctl = s.ctl := rfl
@[simp] theorem State.setSetup_ch0 (x : SetupStage) : (s.setSetup x).ch0 = s.ch0 := rfl
@[simp] theorem State.setSetup_ch1 (x : SetupStage) : (s.setSetup x).ch1 = s.ch1 := rfl
@[simp] theorem State.setSetup_irq (x : SetupStage) : (s.setSetup x).irq = s.irq := rfl
@[simp] theorem State.setSetup_sink (x : SetupStage) : (s.setSetup x).sink = s.sink := rfl
@[simp] theorem State.setSetup_mem (x : SetupStage) : (s.setSetup x).mem = s.mem := rfl
@[simp] theorem State.setSetup_fault (x : SetupStage) : (s.setSetup x).fault = s.fault := rfl
@[simp] theorem State.setSetup_refused (x : SetupStage) : (s.setSetup x).refused = s.refused := rfl
@[simp] theorem State.setSetup_started (x : SetupStage) : (s.setSetup x).started = s.started := rfl
@[simp] theorem State.setSetup_events (x : SetupStage) : (s.setSetup x).events = s.events := rfl
@[simp] theorem State.setSetup_turn (x : SetupStage) : (s.setSetup x).turn = s.turn := rfl
@[simp] theorem State.setSetup_tick (x : SetupStage) : (s.setSetup x).tick = s.tick := rfl
@[simp] theorem State.setSetup_setup (x : SetupStage) :
    (s.setSetup x).setup = x := rfl
@[simp] theorem State.setSetup_chan (x : SetupStage) (d : Chan) : (s.setSetup x).chan d = s.chan d := by cases d <;> rfl
@[simp] theorem State.setSetup_pending (x : SetupStage) (d : Chan) : (s.setSetup x).pending d = s.pending d := by cases d <;> rfl

/-! ## `State.record` -/

@[simp] theorem State.record_cfg (e : Event) : (s.record e).cfg = s.cfg := rfl
@[simp] theorem State.record_ctl (e : Event) : (s.record e).ctl = s.ctl := rfl
@[simp] theorem State.record_ch0 (e : Event) : (s.record e).ch0 = s.ch0 := rfl
@[simp] theorem State.record_ch1 (e : Event) : (s.record e).ch1 = s.ch1 := rfl
@[simp] theorem State.record_irq (e : Event) : (s.record e).irq = s.irq := rfl
@[simp] theorem State.record_sink (e : Event) : (s.record e).sink = s.sink := rfl
@[simp] theorem State.record_mem (e : Event) : (s.record e).mem = s.mem := rfl
@[simp] theorem State.record_fault (e : Event) : (s.record e).fault = s.fault := rfl
@[simp] theorem State.record_refused (e : Event) : (s.record e).refused = s.refused := rfl
@[simp] theorem State.record_started (e : Event) : (s.record e).started = s.started := rfl
@[simp] theorem State.record_setup (e : Event) : (s.record e).setup = s.setup := rfl
@[simp] theorem State.record_turn (e : Event) : (s.record e).turn = s.turn := rfl
@[simp] theorem State.record_tick (e : Event) : (s.record e).tick = s.tick := rfl
@[simp] theorem State.record_events (e : Event) :
    (s.record e).events = s.events ++ [e] := rfl
@[simp] theorem State.record_chan (e : Event) (d : Chan) : (s.record e).chan d = s.chan d := by cases d <;> rfl
@[simp] theorem State.record_pending (e : Event) (d : Chan) : (s.record e).pending d = s.pending d := by cases d <;> rfl

/-! ## `State.passTurn` -/

@[simp] theorem State.passTurn_cfg : (s.passTurn).cfg = s.cfg := rfl
@[simp] theorem State.passTurn_ctl : (s.passTurn).ctl = s.ctl := rfl
@[simp] theorem State.passTurn_ch0 : (s.passTurn).ch0 = s.ch0 := rfl
@[simp] theorem State.passTurn_ch1 : (s.passTurn).ch1 = s.ch1 := rfl
@[simp] theorem State.passTurn_irq : (s.passTurn).irq = s.irq := rfl
@[simp] theorem State.passTurn_sink : (s.passTurn).sink = s.sink := rfl
@[simp] theorem State.passTurn_mem : (s.passTurn).mem = s.mem := rfl
@[simp] theorem State.passTurn_fault : (s.passTurn).fault = s.fault := rfl
@[simp] theorem State.passTurn_refused : (s.passTurn).refused = s.refused := rfl
@[simp] theorem State.passTurn_started : (s.passTurn).started = s.started := rfl
@[simp] theorem State.passTurn_setup : (s.passTurn).setup = s.setup := rfl
@[simp] theorem State.passTurn_events : (s.passTurn).events = s.events := rfl
@[simp] theorem State.passTurn_turn :
    (s.passTurn).turn = Config.freeAgent s.tick := rfl
@[simp] theorem State.passTurn_tick :
    (s.passTurn).tick = s.tick + 1 := rfl
@[simp] theorem State.passTurn_chan (d : Chan) : (s.passTurn).chan d = s.chan d := by cases d <;> rfl
@[simp] theorem State.passTurn_pending (d : Chan) : (s.passTurn).pending d = s.pending d := by cases d <;> rfl

end Sys2Proof.Machine
end

