-- ==== Sys2Proof/Laws/Memory.lean ====
section
/-! SUPPORT. Memory: what a written block reads as, what it leaves alone, and that writing keeps the canonical form. -/

namespace Sys2Proof.Machine

/-! ## Lookup -/

theorem lookup_append (l₁ l₂ : List Host.Cell) (a : Nat) :
    lookup (l₁ ++ l₂) a = (lookup l₁ a).or (lookup l₂ a) := by
  induction l₁ with
  | nil => simp [lookup]
  | cons c l ih =>
    obtain ⟨k, b⟩ := c
    by_cases h : k = a <;> simp [lookup, h, ih]

theorem lookup_filter_addr (p : Nat → Bool) (m : List Host.Cell) (a : Nat) :
    lookup (m.filter (fun c => p c.1)) a = if p a then lookup m a else none := by
  induction m with
  | nil => simp [lookup]
  | cons c l ih =>
    obtain ⟨k, b⟩ := c
    by_cases hk : k = a
    · subst hk
      cases hp : p k <;> simp [lookup, hp, ih]
    · cases hp : p k <;> simp [lookup, hp, ih, hk]

/-- A written byte reads as it was written, every other address as before. -/
theorem lookup_writeByte (a : Nat) (b : Byte) (m : List Host.Cell) (x : Nat) :
    lookup (writeByte a b m) x = if x = a then some b else lookup m x := by
  simp only [eq_comm (a := x)]
  induction m with
  | nil => rfl
  | cons c m ih =>
    obtain ⟨k, d⟩ := c
    unfold writeByte
    split
    · rfl
    · split
      · rename_i hk
        subst hk
        by_cases h : a = x <;> simp [lookup, h]
      · rename_i hk
        rw [lookup, ih, lookup]
        by_cases h : k = x
        · subst h; simp [hk]
        · simp [h]

/-! ## One byte -/

/-- Reading the byte just written gives it, where memory may list it. -/
theorem readByte_writeByte_self {cfg : Config} {a : Nat} (h : holdsCell cfg a = true) (b : Byte) (m : List Host.Cell) :
    readByte cfg (writeByte a b m) a = some b := by simp [readByte, h, lookup_writeByte]

/-- A write of one byte leaves every other byte alone. -/
theorem readByte_writeByte_other {cfg : Config} {a x : Nat} (h : x ≠ a) (b : Byte) (m : List Host.Cell) :
    readByte cfg (writeByte a b m) x = readByte cfg m x := by simp [readByte, h, lookup_writeByte]

/-- Where memory may list nothing, a byte reads as its unlisted value, whatever memory holds (R72, R176). -/
theorem readByte_of_not_holdsCell {cfg : Config} {a : Nat} (h : holdsCell cfg a = false) (m : List Host.Cell) :
    readByte cfg m a = unlisted cfg a := by simp [readByte, h]

/-! ## The canonical form -/

theorem wfFrom_iff (cfg : Config) (lo : Nat) (m : List Host.Cell) :
    Memory.wfFrom cfg lo m = true ↔
      m.Pairwise (fun c d => c.1 < d.1) ∧ ∀ c ∈ m, lo ≤ c.1 ∧ holdsCell cfg c.1 = true := by
  induction m generalizing lo with
  | nil => simp [Memory.wfFrom]
  | cons c m ih =>
    obtain ⟨k, b⟩ := c
    simp only [Memory.wfFrom, Bool.and_eq_true, decide_eq_true_eq, ih, List.pairwise_cons, List.forall_mem_cons]
    constructor
    · rintro ⟨⟨h1, h2⟩, h3, h4⟩
      exact ⟨⟨fun d hd => (h4 d hd).1, h3⟩, ⟨h1, h2⟩, fun d hd => ⟨by have := (h4 d hd).1; omega, (h4 d hd).2⟩⟩
    · rintro ⟨⟨h1, h2⟩, ⟨h3, h4⟩, h5⟩
      exact ⟨⟨h3, h4⟩, h2, fun d hd => ⟨h1 d hd, (h5 d hd).2⟩⟩

theorem wf_iff (cfg : Config) (m : List Host.Cell) :
    Memory.wf cfg m = true ↔ m.Pairwise (fun c d => c.1 < d.1) ∧ ∀ c ∈ m, holdsCell cfg c.1 = true := by
  simp [Memory.wf, wfFrom_iff]

theorem mem_writeByte {a : Nat} {b : Byte} {m : List Host.Cell} {c : Host.Cell} (h : c ∈ writeByte a b m) :
    c = (a, b) ∨ c ∈ m := by
  induction m with
  | nil => simpa [writeByte] using h
  | cons d m ih =>
    obtain ⟨k, e⟩ := d
    unfold writeByte at h
    split at h
    · simpa using h
    · split at h
      · rcases List.mem_cons.1 h with h | h <;> simp [h]
      · rcases List.mem_cons.1 h with h | h
        · simp [h]
        · rcases ih h with h | h <;> simp [h]

/-- Writing a byte at an address memory may list keeps the canonical form. -/
theorem wf_writeByte {cfg : Config} {a : Nat} {m : List Host.Cell} (hm : Memory.wf cfg m = true)
    (hc : holdsCell cfg a = true) (b : Byte) : Memory.wf cfg (writeByte a b m) = true := by
  rw [wf_iff] at hm ⊢
  obtain ⟨hp, ha⟩ := hm
  refine ⟨?_, fun c h => (mem_writeByte h).elim (fun h => h ▸ hc) (ha c)⟩
  clear ha
  induction m with
  | nil => simp [writeByte]
  | cons d m ih =>
    obtain ⟨k, e⟩ := d
    obtain ⟨hk, hp⟩ := List.pairwise_cons.1 hp
    unfold writeByte
    split
    · rename_i hlt
      refine List.pairwise_cons.2 ⟨fun c h => ?_, List.pairwise_cons.2 ⟨hk, hp⟩⟩
      rcases List.mem_cons.1 h with rfl | h
      · exact hlt
      · exact Nat.lt_trans hlt (hk c h)
    · split
      · rename_i he
        exact List.pairwise_cons.2 ⟨fun c h => he ▸ hk c h, hp⟩
      · refine List.pairwise_cons.2 ⟨fun c h => ?_, ih hp⟩
        rcases mem_writeByte h with rfl | h
        · simp only; omega
        · exact hk c h

/-! ## Regions -/

theorem regionOf_mem {cfg : Config} {a n : Nat} {r : Region} (h : regionOf cfg a n = some r) :
    r ∈ regions cfg ∧ r.holds a n = true :=
  ⟨List.mem_of_find?_eq_some h, by simpa using List.find?_some h⟩

theorem Region.holds_iff (r : Region) (a n : Nat) :
    r.holds a n = true ↔ r.base ≤ a ∧ a + n ≤ r.base + r.size := by simp [Region.holds]

/-- The only scratch region is the one of `P1` (R71, R149). -/
theorem scratch_region {cfg : Config} {r : Region} (h : r ∈ regions cfg) (hk : r.kind = .scratch) :
    cfg.fmt = .p1 ∧ r = ⟨.scratch, cfg.scratchBase.toNat, rowBytes cfg⟩ := by
  cases hf : cfg.fmt <;> simp only [regions, hf, List.mem_append, List.mem_cons, List.not_mem_nil, or_false] at h
  · refine ⟨rfl, ?_⟩
    rcases h with (rfl | rfl | rfl | rfl) | rfl <;> first | rfl | cases hk
  · rcases h with rfl | rfl | rfl | rfl <;> cases hk

/-- A byte the scratch copy may write: memory may list it, and it lies in the scratch buffer. -/
theorem scratch_byte {cfg : Config} {a : Nat} (h : (regionOf cfg a 1).map Region.kind = some .scratch) :
    holdsCell cfg a = true ∧ cfg.scratchBase.toNat ≤ a ∧ a < cfg.scratchBase.toNat + rowBytes cfg := by
  cases hr : regionOf cfg a 1 with
  | none => simp [hr] at h
  | some r =>
    have hk : r.kind = .scratch := by simpa [hr] using h
    have hm := regionOf_mem hr
    obtain ⟨-, rfl⟩ := scratch_region hm.1 hk
    have := (Region.holds_iff _ _ _).1 hm.2
    exact ⟨by simp [holdsCell, hr], by simp only at this; omega, by simp only at this; omega⟩

/-- A byte is written without a refusal exactly when it lies in the scratch buffer first of all regions. -/
theorem writeRefusal_none {cfg : Config} {a : Word} :
    writeRefusal cfg a = none ↔ (regionOf cfg a.toNat 1).map Region.kind = some .scratch := by
  unfold writeRefusal
  split <;> rename_i h <;> simp [h]

theorem rowBytes_le (cfg : Config) : rowBytes cfg ≤ 1280 := by
  simp only [rowBytes, bpp, Config.hAct]; split <;> omega

/-- The empty memory, which `State.reset` has, is in canonical form. -/
theorem wf_nil (cfg : Config) : Memory.wf cfg [] = true := rfl

theorem wf_reset_mem : Memory.wf State.reset.cfg State.reset.mem = true := wf_nil _

/-! ## Memory at reset (R49) -/

/-- Reset keeps the canonical form of what the launch lists. -/
theorem wf_resetWith {cfg : Config} {image : List Host.Cell} (h : Memory.wf cfg image = true) :
    Memory.wf cfg (State.resetWith cfg image).mem = true := by
  rw [wf_iff] at h ⊢
  exact ⟨h.1.sublist List.filter_sublist, fun c hc => h.2 c (List.mem_filter.1 hc).1⟩

/-- Of what the launch lists, reset keeps the asset's bytes. -/
theorem lookup_resetWith (cfg : Config) (image : List Host.Cell) (a : Nat) :
    lookup (State.resetWith cfg image).mem a = if assetCell cfg a then lookup image a else none :=
  lookup_filter_addr (assetCell cfg) image a

/-- Nothing has written a scratch byte at reset, whatever the launch lists (R49). -/
theorem readByte_resetWith_scratch {cfg : Config} {a : Nat} (image : List Host.Cell)
    (h : (regionOf cfg a 1).map Region.kind = some .scratch) :
    readByte cfg (State.resetWith cfg image).mem a = none := by
  rw [readByte, if_pos (scratch_byte h).1, lookup_resetWith, if_neg]
  simp [assetCell, h]

end Sys2Proof.Machine
end

