-- ==== Sys2Proof/Laws/Ops.lean ====
section
/-! SUPPORT. What each shared operation can do, said once: results, the handler's entry and return (R150, R160,
R263-R266), `Program` (R141), `Trigger` (R191), the scratch copy (R148). -/

namespace Sys2Proof.Machine

/-! ## Results -/

theorem both_eq_swap {α β : Type} {a b : α} {x y : β} : (a = b ∧ x = y) ↔ (y = x ∧ b = a) :=
  ⟨fun h => ⟨h.2.symm, h.1.symm⟩, fun h => ⟨h.2.symm, h.1.symm⟩⟩

@[simp] theorem Res.outcome_done (s : State) : (Res.done s).outcome = .next s := rfl
@[simp] theorem Res.outcome_fault (f : Fault) (s : State) : (Res.fault f s).outcome = .fault f := rfl
@[simp] theorem Res.outcome_refuse (r : Refusal) (s : State) : (Res.refuse r s).outcome = .refused r := rfl
@[simp] theorem Res.done_andThen (s : State) (k : State → Res) : (Res.done s).andThen k = k s := rfl
@[simp] theorem Res.fault_andThen (f : Fault) (s : State) (k : State → Res) :
    (Res.fault f s).andThen k = .fault f s := rfl
@[simp] theorem Res.refuse_andThen (r : Refusal) (s : State) (k : State → Res) :
    (Res.refuse r s).andThen k = .refuse r s := rfl

theorem Res.outcome_eq_next {r : Res} {t : State} : r.outcome = .next t ↔ r = .done t := by
  cases r <;> simp [Res.outcome]

/-- A composed result is done only if both parts are. -/
theorem Res.andThen_eq_done {r : Res} {k : State → Res} {t : State} :
    r.andThen k = .done t ↔ ∃ u, r = .done u ∧ k u = .done t := by
  cases r <;> simp [Res.andThen]

/-- A composed result faults in one of its parts. -/
theorem Res.andThen_eq_fault {r : Res} {k : State → Res} {f : Fault} {t : State} :
    r.andThen k = .fault f t ↔ r = .fault f t ∨ ∃ u, r = .done u ∧ k u = .fault f t := by
  cases r <;> simp [Res.andThen]

/-- Finishing a done part with an update is the same as updating its outcome. -/
theorem Res.outcome_andThen_done (r : Res) (g : State → State) :
    (r.andThen fun t => .done (g t)).outcome = mapOutcome g r.outcome := by cases r <;> rfl

theorem mapOutcome_next {g : State → State} {o : Host.Outcome State Fault Refusal} {t : State}
    (h : mapOutcome g o = .next t) : ∃ u, o = .next u ∧ t = g u := by
  cases o <;> simp_all [mapOutcome]

/-! ## The handler's entry and return -/

theorem identify_ok {s : State} {c : Chan} :
    identify s = .ok c ↔ c = parityChannel s.ctl.parity ∧ s.pending c = true := by
  unfold identify
  split
  · rename_i h
    exact ⟨fun e => (by cases e; exact ⟨rfl, h⟩), fun e => (by rw [e.1])⟩
  · rename_i h
    exact ⟨fun e => (by cases e), fun e => absurd (e.1 ▸ e.2) h⟩

theorem identify_error {s : State} {f : Fault} :
    identify s = .error f ↔ s.pending (parityChannel s.ctl.parity) = false ∧
      f = .parityDesync s.ctl.parity s.irq.pending0 s.irq.pending1 := by
  unfold identify
  split
  · rename_i h
    exact ⟨fun e => (by cases e), fun e => absurd (h.symm.trans e.1) (by decide)⟩
  · rename_i h
    exact ⟨fun e => (by cases e; exact ⟨by simpa using h, rfl⟩), fun e => (by rw [e.2])⟩

theorem parityChannel_eq (s : State) (c : Chan) :
    parityChannel s.ctl.parity = c ↔ s.ctl.parity = (match c with | .ch0 => false | .ch1 => true) := by
  cases c <;> cases s.ctl.parity <;> simp [parityChannel]

variable (c : Chan) (s : State)

@[simp] theorem enterHandler_scanline : (enterHandler c s).ctl.scanline = s.ctl.scanline := by
  simp [enterHandler, toggle, acknowledge]
@[simp] theorem enterHandler_headerPosted : (enterHandler c s).ctl.headerPosted = s.ctl.headerPosted := by
  simp [enterHandler, toggle, acknowledge]
@[simp] theorem enterHandler_parity : (enterHandler c s).ctl.parity = !s.ctl.parity := by
  simp [enterHandler, toggle, acknowledge]
@[simp] theorem enterHandler_pending_self : (enterHandler c s).pending c = false := by
  simp [enterHandler, toggle, acknowledge]
@[simp] theorem enterHandler_pending_other :
    (enterHandler c s).pending c.other = s.pending c.other := by simp [enterHandler, toggle, acknowledge]
@[simp] theorem enterHandler_other_pending : (enterHandler c.other s).pending c = s.pending c := by
  simp [enterHandler, toggle, acknowledge]
@[simp] theorem enterHandler_chan (d : Chan) : (enterHandler c s).chan d = s.chan d := by
  simp [enterHandler, toggle, acknowledge]
@[simp] theorem enterHandler_cfg : (enterHandler c s).cfg = s.cfg := by simp [enterHandler, toggle, acknowledge]
@[simp] theorem enterHandler_sink : (enterHandler c s).sink = s.sink := by simp [enterHandler, toggle, acknowledge]
@[simp] theorem enterHandler_mem : (enterHandler c s).mem = s.mem := by simp [enterHandler, toggle, acknowledge]
@[simp] theorem enterHandler_fault : (enterHandler c s).fault = s.fault := by simp [enterHandler, toggle, acknowledge]
@[simp] theorem enterHandler_refused : (enterHandler c s).refused = s.refused := by simp [enterHandler, toggle, acknowledge]
@[simp] theorem enterHandler_started : (enterHandler c s).started = s.started := by simp [enterHandler, toggle, acknowledge]
@[simp] theorem enterHandler_setup : (enterHandler c s).setup = s.setup := by simp [enterHandler, toggle, acknowledge]
@[simp] theorem enterHandler_events : (enterHandler c s).events = s.events := by simp [enterHandler, toggle, acknowledge]
@[simp] theorem enterHandler_enable0 : (enterHandler c s).irq.enable0 = s.irq.enable0 := by
  simp [enterHandler, toggle, acknowledge]
@[simp] theorem enterHandler_enable1 : (enterHandler c s).irq.enable1 = s.irq.enable1 := by
  simp [enterHandler, toggle, acknowledge]

/-- The index after the advance, from the flag and the index before it (R150). -/
def indexAfter : Bool → Word → Word
  | true, w => w
  | false, w => nextScanline w

@[simp] theorem indexAfter_true (w : Word) : indexAfter true w = w := rfl
@[simp] theorem indexAfter_false (w : Word) : indexAfter false w = nextScanline w := rfl

@[simp] theorem advance_scanline : (advance s).ctl.scanline = indexAfter s.ctl.headerPosted s.ctl.scanline := by
  unfold advance; split <;> rename_i h <;> simp [h]

/-- The advance writes the index and nothing else (R150). -/
theorem advance_eq : advance s = s.setScanline (indexAfter s.ctl.headerPosted s.ctl.scanline) := by
  unfold advance; split <;> rename_i h <;> rw [h] <;> rfl

@[simp] theorem advance_headerPosted : (advance s).ctl.headerPosted = s.ctl.headerPosted := by
  rw [advance_eq]; simp
@[simp] theorem advance_parity : (advance s).ctl.parity = s.ctl.parity := by rw [advance_eq]; simp

/-- The return writes the index and appends one event, nothing else (R150, R160). -/
theorem leaveHandler_eq (b : State) (k : Payload) :
    leaveHandler b c k s = (s.setScanline (indexAfter s.ctl.headerPosted s.ctl.scanline)).record
      (.handled c k b.ctl.scanline b.ctl.headerPosted (indexAfter s.ctl.headerPosted s.ctl.scanline)
        s.ctl.headerPosted) := by
  unfold leaveHandler
  rw [advance_eq s]
  rfl

theorem nextScanline_toNat (w : Word) : (nextScanline w).toNat = (w.toNat + 1) % Config.vTotal := by
  have : Config.vTotal = 525 := rfl
  rw [nextScanline, BitVec.toNat_ofNat, this]
  have := Nat.mod_lt (w.toNat + 1) (y := 525) (by decide)
  omega

theorem nextScanline_lt (w : Word) : (nextScanline w).toNat < Config.vTotal := by
  rw [nextScanline_toNat]; exact Nat.mod_lt _ (by decide)

/-! ## `Program` and `Trigger` -/

/-- `Program` completes exactly on an idle channel with a non-zero count, and writes the descriptor and the mark. -/
theorem program_eq_done {a n : Word} {t : State} :
    program c a n s = .done t ↔ (s.chan c).busy = false ∧ n ≠ 0#32 ∧
      t = s.setChan c { s.chan c with src := a, count := n, armed := true } := by
  unfold program
  cases hb : (s.chan c).busy
  · by_cases hn : n = 0#32
    · simp [hn]
    · simp [hn, eq_comm]
  · simp

theorem program_eq_fault {a n : Word} {f : Fault} {t : State} :
    program c a n s = .fault f t ↔ t = s ∧
      (((s.chan c).busy = true ∧ f = .busyReprogram c) ∨ ((s.chan c).busy = false ∧ n = 0#32 ∧ f = .zeroCount c)) := by
  unfold program
  cases hb : (s.chan c).busy
  · by_cases hn : n = 0#32
    · simpa [hn] using both_eq_swap
    · simp [hn]
  · simpa using both_eq_swap

theorem program_not_refuse {a n : Word} {r : Refusal} {t : State} : program c a n s ≠ .refuse r t := by
  unfold program; split
  · simp
  · split <;> simp

/-- `Trigger` completes exactly on an idle armed channel, and starts it on its descriptor. -/
theorem trigger_eq_done {t : State} :
    trigger c s = .done t ↔ (s.chan c).busy = false ∧ (s.chan c).armed = true ∧
      t = (s.setChan c { s.chan c with
            cur := (s.chan c).src, remaining := (s.chan c).count, busy := true, armed := false }).record
          (.start c (s.chan c).src (s.chan c).count) := by
  unfold trigger
  cases hb : (s.chan c).busy
  · cases ha : (s.chan c).armed
    · simp
    · simp [eq_comm]
  · simp

theorem trigger_eq_fault {f : Fault} {t : State} :
    trigger c s = .fault f t ↔ t = s ∧
      (((s.chan c).busy = true ∧ f = .chainBusy c)
        ∨ ((s.chan c).busy = false ∧ (s.chan c).armed = false ∧ f = .underrun c)) := by
  unfold trigger
  cases hb : (s.chan c).busy
  · cases ha : (s.chan c).armed
    · simpa using both_eq_swap
    · simp
  · simpa using both_eq_swap

theorem trigger_not_refuse {r : Refusal} {t : State} : trigger c s ≠ .refuse r t := by
  unfold trigger; split
  · simp
  · split <;> simp

/-! ## The scratch copy -/

theorem racingChannel_none : racingChannel s = none ↔
    ∀ k, ((s.chan k).busy && overlapsScratch s.cfg (s.chan k)) = false := by
  unfold racingChannel
  constructor
  · intro h k
    rw [List.find?_eq_none] at h
    have := h k (by cases k <;> simp)
    simpa using this
  · intro h
    rw [List.find?_eq_none]
    intro k _
    simp [h k]

theorem racingChannel_some {k : Chan} (h : racingChannel s = some k) :
    (s.chan k).busy = true ∧ overlapsScratch s.cfg (s.chan k) = true := by
  have := List.find?_some h
  simpa using this

theorem add_ofNat_succ (a : Word) (j : Nat) : a + BitVec.ofNat 32 (j + 1) = a + 1#32 + BitVec.ofNat 32 j := by
  rw [Nat.add_comm j 1, BitVec.ofNat_add, BitVec.add_assoc]

variable {s} {src dst : Word} {n : Nat} {m : List Host.Cell} {t : State}

/-- A completed copy writes memory alone; every target lies in the scratch buffer; the canonical form and every byte
that is no target stay. -/
theorem copyBytes_eq_done (h : copyBytes s src dst n m = .done t) :
    ∃ m', t = s.setMem m'
      ∧ (∀ j, j < n → (regionOf s.cfg (dst + BitVec.ofNat 32 j).toNat 1).map Region.kind = some .scratch)
      ∧ (Memory.wf s.cfg m = true → Memory.wf s.cfg m' = true)
      ∧ ∀ x, (∀ j, j < n → x ≠ (dst + BitVec.ofNat 32 j).toNat) → readByte s.cfg m' x = readByte s.cfg m x := by
  induction n generalizing src dst m with
  | zero =>
    cases h
    exact ⟨m, rfl, fun j hj => absurd hj (Nat.not_lt_zero j), id, fun _ _ => rfl⟩
  | succ n ih =>
    unfold copyBytes at h
    split at h
    · cases h
    · split at h
      · cases h
      · rename_i b _ _ hw
        have hr := writeRefusal_none.1 hw
        obtain ⟨m', ht, hs, hwf, hx⟩ := ih h
        refine ⟨m', ht, fun j hj => ?_, fun hm => hwf (wf_writeByte hm (scratch_byte hr).1 b), fun x hne => ?_⟩
        · cases j with
          | zero => simpa using hr
          | succ j => rw [add_ofNat_succ]; exact hs j (by omega)
        · rw [hx x fun j hj => by have := hne (j + 1) (by omega); rwa [add_ofNat_succ] at this]
          have := hne 0 (Nat.succ_pos n)
          exact readByte_writeByte_other (by simpa using this) b m

/-- What a completed copy leaves in its `j`-th target: the source byte as it was, or, where that source is an earlier
target, the byte the copy put there (R19, R148). -/
theorem copyBytes_data (hn : n ≤ 2 ^ 32) {m' : List Host.Cell} (h : copyBytes s src dst n m = .done (s.setMem m'))
    {j : Nat} (hj : j < n) :
    (∀ i, i < j → src + BitVec.ofNat 32 j = dst + BitVec.ofNat 32 i →
        readByte s.cfg m' (dst + BitVec.ofNat 32 j).toNat = readByte s.cfg m' (dst + BitVec.ofNat 32 i).toNat)
      ∧ ((∀ i, i < j → src + BitVec.ofNat 32 j ≠ dst + BitVec.ofNat 32 i) →
        readByte s.cfg m' (dst + BitVec.ofNat 32 j).toNat = readByte s.cfg m (src + BitVec.ofNat 32 j).toNat) := by
  induction n generalizing src dst m j with
  | zero => omega
  | succ n ih =>
    have apart : ∀ i, i < n → dst ≠ dst + BitVec.ofNat 32 (i + 1) := fun i hi he => by
      have := congrArg BitVec.toNat he
      rw [BitVec.toNat_add, BitVec.toNat_ofNat] at this
      have := dst.isLt
      omega
    unfold copyBytes at h
    split at h
    · cases h
    · split at h
      · cases h
      · rename_i b hb _ hw
        have hself := readByte_writeByte_self (scratch_byte (writeRefusal_none.1 hw)).1 b m
        obtain ⟨m₂, he, -, -, hx⟩ := copyBytes_eq_done h
        have he : m' = m₂ := congrArg State.mem he
        subst he
        have h0 : readByte s.cfg m' dst.toNat = some b := by
          rw [hx _ fun i hi he => apart i hi (by rw [add_ofNat_succ]; exact BitVec.eq_of_toNat_eq he), hself]
        cases j with
        | zero => exact ⟨fun i hi => absurd hi (Nat.not_lt_zero i), fun _ => by simpa [hb] using h0⟩
        | succ j =>
          obtain ⟨h1, h2⟩ := ih (by omega) h (Nat.lt_of_succ_lt_succ hj)
          rw [add_ofNat_succ src j, add_ofNat_succ dst j]
          refine ⟨fun i hi e => ?_, fun hne => ?_⟩
          · cases i with
            | succ i =>
              rw [add_ofNat_succ dst i] at e ⊢
              exact h1 i (Nat.lt_of_succ_lt_succ hi) e
            | zero =>
              simp only [BitVec.add_zero] at e ⊢
              rw [h2 fun i hi e' => apart i (by omega) (by rw [add_ofNat_succ dst i, ← e', e]), e, hself, h0]
          · rw [h2 fun i hi => by have := hne (i + 1) (by omega); rwa [add_ofNat_succ dst i] at this]
            have := hne 0 (Nat.succ_pos j)
            refine readByte_writeByte_other (fun e => this ?_) b m
            simpa using BitVec.eq_of_toNat_eq e

/-- The `j`-th source byte is written when the loop reaches it: before the loop, or as one of the targets before it. -/
def writtenWhenReached (cfg : Config) (src dst : Word) (m : List Host.Cell) (j : Nat) : Prop :=
  (readByte cfg m (src + BitVec.ofNat 32 j).toNat).isSome = true
    ∨ ∃ i, i < j ∧ src + BitVec.ofNat 32 j = dst + BitVec.ofNat 32 i

theorem writtenWhenReached_zero {cfg : Config} (h : writtenWhenReached cfg src dst m 0) :
    ∃ b, readByte cfg m src.toNat = some b := by
  rcases h with h | ⟨i, hi, -⟩
  · exact Option.isSome_iff_exists.1 (by simpa using h)
  · exact absurd hi (Nat.not_lt_zero i)

/-- After the loop's first byte, what remains is the loop one byte further. -/
theorem writtenWhenReached_succ {cfg : Config} {b : Byte} {j : Nat} (hd : writeRefusal cfg dst = none) :
    writtenWhenReached cfg src dst m (j + 1)
      ↔ writtenWhenReached cfg (src + 1#32) (dst + 1#32) (writeByte dst.toNat b m) j := by
  have hself := readByte_writeByte_self (scratch_byte (writeRefusal_none.1 hd)).1 b m
  have hex : (∃ i, i < j + 1 ∧ src + 1#32 + BitVec.ofNat 32 j = dst + BitVec.ofNat 32 i)
      ↔ src + 1#32 + BitVec.ofNat 32 j = dst
        ∨ ∃ i, i < j ∧ src + 1#32 + BitVec.ofNat 32 j = dst + 1#32 + BitVec.ofNat 32 i := by
    constructor
    · rintro ⟨i, hi, e⟩
      cases i with
      | zero => exact .inl (by simpa using e)
      | succ i => exact .inr ⟨i, by omega, by rw [← add_ofNat_succ dst]; exact e⟩
    · rintro (e | ⟨i, hi, e⟩)
      · exact ⟨0, by omega, by simpa using e⟩
      · exact ⟨i + 1, by omega, by rw [add_ofNat_succ dst]; exact e⟩
  unfold writtenWhenReached
  rw [add_ofNat_succ src, hex]
  by_cases e : src + 1#32 + BitVec.ofNat 32 j = dst
  · simp [e, hself]
  · rw [readByte_writeByte_other fun e' => e (BitVec.eq_of_toNat_eq e')]
    simp [e]

/-- The copy completes when every target may be written and every source byte is written when it is reached. -/
theorem copyBytes_completes (hw : ∀ j, j < n → writeRefusal s.cfg (dst + BitVec.ofNat 32 j) = none)
    (hr : ∀ j, j < n → writtenWhenReached s.cfg src dst m j) :
    ∃ m', copyBytes s src dst n m = .done (s.setMem m') := by
  induction n generalizing src dst m with
  | zero => exact ⟨m, rfl⟩
  | succ n ih =>
    obtain ⟨b, hb⟩ := writtenWhenReached_zero (hr 0 (Nat.succ_pos n))
    have hd : writeRefusal s.cfg dst = none := by simpa using hw 0 (Nat.succ_pos n)
    simp only [copyBytes, hb, hd]
    exact ih (fun j hj => by rw [← add_ofNat_succ]; exact hw (j + 1) (by omega))
      fun j hj => (writtenWhenReached_succ hd).1 (hr (j + 1) (by omega))

/-- Where the first `n` bytes can be copied, the next one stops the copy: at its source, if nothing has written that, else
at its target, if that may not be written (R148, R72, R73, R273). -/
theorem copyBytes_stops {k : Nat} (hk : n < k) (hw : ∀ j, j < n → writeRefusal s.cfg (dst + BitVec.ofNat 32 j) = none)
    (hr : ∀ j, j < n → writtenWhenReached s.cfg src dst m j) :
    (¬ writtenWhenReached s.cfg src dst m n →
        ∃ t, copyBytes s src dst k m = .fault (.unwrittenRead .controller (src + BitVec.ofNat 32 n)) t)
      ∧ ∀ r, writtenWhenReached s.cfg src dst m n → writeRefusal s.cfg (dst + BitVec.ofNat 32 n) = some r →
        ∃ t, copyBytes s src dst k m = .refuse r t := by
  induction n generalizing src dst m k with
  | zero =>
    obtain ⟨k, rfl⟩ : ∃ l, k = l + 1 := ⟨k - 1, by omega⟩
    refine ⟨fun h => ?_, fun r h hd => ?_⟩
    · have hb : readByte s.cfg m src.toNat = none := by
        simpa [writtenWhenReached, Option.isSome_iff_ne_none] using h
      exact ⟨s.setMem m, by simp [copyBytes, hb]⟩
    · obtain ⟨b, hb⟩ := writtenWhenReached_zero h
      have hd : writeRefusal s.cfg dst = some r := by simpa using hd
      exact ⟨s.setMem m, by simp [copyBytes, hb, hd]⟩
  | succ n ih =>
    obtain ⟨k, rfl⟩ : ∃ l, k = l + 1 := ⟨k - 1, by omega⟩
    obtain ⟨b, hb⟩ := writtenWhenReached_zero (hr 0 (Nat.succ_pos n))
    have hd : writeRefusal s.cfg dst = none := by simpa using hw 0 (Nat.succ_pos n)
    simp only [copyBytes, hb, hd, writtenWhenReached_succ (b := b) hd]
    rw [add_ofNat_succ src n, add_ofNat_succ dst n]
    exact ih (by omega) (fun j hj => by rw [← add_ofNat_succ]; exact hw (j + 1) (by omega))
      fun j hj => (writtenWhenReached_succ hd).1 (hr (j + 1) (by omega))

/-- The loop's one fault is a source byte nothing has written. -/
theorem copyBytes_fault {f : Fault} (h : copyBytes s src dst n m = .fault f t) : ∃ e, f = .unwrittenRead .controller e := by
  induction n generalizing src dst m with
  | zero => cases h
  | succ n ih =>
    unfold copyBytes at h
    split at h
    · cases h; exact ⟨_, rfl⟩
    · split at h
      · cases h
      · exact ih h

/-- The loop keeps the canonical form, also in the state a stop leaves. -/
theorem copyBytes_wf (hm : Memory.wf s.cfg m = true) :
    Memory.wf (copyBytes s src dst n m).marked.cfg (copyBytes s src dst n m).marked.mem = true := by
  induction n generalizing src dst m with
  | zero => exact hm
  | succ n ih =>
    unfold copyBytes
    split
    · exact hm
    · split
      · exact hm
      · rename_i b _ _ hw
        exact ih (wf_writeByte hm (scratch_byte (writeRefusal_none.1 hw)).1 b)

variable (s)

/-- A completed row copy writes memory alone, and of it the scratch buffer, and keeps the canonical form. -/
theorem copyRow_eq_done {a : Word} (h : copyRow a s = .done t) :
    ∃ m', t = s.setMem m' ∧ (Memory.wf s.cfg s.mem = true → Memory.wf s.cfg m' = true)
      ∧ ∀ x, (regionOf s.cfg x 1).map Region.kind ≠ some .scratch → readByte s.cfg m' x = readByte s.cfg s.mem x := by
  unfold copyRow at h
  split at h
  · cases h
  · obtain ⟨m', ht, hs, hwf, hx⟩ := copyBytes_eq_done h
    exact ⟨m', ht, hwf, fun x hne => hx x fun j hj e => hne (e ▸ hs j hj)⟩

/-- The copy faults on a race or at a source byte nothing has written (R148, R273). -/
theorem copyRow_fault {a : Word} {f : Fault} {t : State} (h : copyRow a s = .fault f t) :
    (∃ k, f = .scratchRace k ∧ racingChannel s = some k) ∨ (∃ e, f = .unwrittenRead .controller e) := by
  unfold copyRow at h
  split at h
  · rename_i k hk
    simp only [Res.fault.injEq] at h
    exact .inl ⟨k, h.1.symm, hk⟩
  · exact .inr (copyBytes_fault h)

/-- The copy keeps the canonical form, also in the state a stop leaves. -/
theorem copyRow_wf {a : Word} (hm : Memory.wf s.cfg s.mem = true) :
    Memory.wf (copyRow a s).marked.cfg (copyRow a s).marked.mem = true := by
  unfold copyRow
  split
  · exact hm
  · exact copyBytes_wf hm

end Sys2Proof.Machine
end

