-- ==== Sys2Proof/Laws/Agents.lean ====
section
/-! SUPPORT. What each instruction and each agent's step can do, said once: the meaning of an instruction is the outcome
of its result; the form of the state a completed word, operation, transfer, completion, set-up or handler step leaves;
the cases of a step of the machine. -/

namespace Sys2Proof.Machine

/-- The two readings of a meaning agree: `exec` is the outcome of `perform`. -/
theorem exec_eq_outcome (i : Instr) (s : State) : exec i s = (perform i s).outcome := by cases i <;> rfl

theorem exec_eq_next {i : Instr} {s t : State} : exec i s = .next t ↔ perform i s = .done t := by
  rw [exec_eq_outcome, Res.outcome_eq_next]

/-! ## Words -/

theorem inCmd_of_cmd {s : State} (h : s.sink.mode = .cmd) (r : Res) : inCmd s r = r := by simp [inCmd, h]

theorem inCmd_eq_done {s t : State} {r : Res} : inCmd s r = .done t ↔ s.sink.mode = .cmd ∧ r = .done t := by
  unfold inCmd; split <;> simp_all

theorem rawRepeatRes_eq_done {n : Nat} {s t : State} :
    rawRepeatRes n s = .done t ↔ s.sink.mode = .cmd ∧ n ≠ 0 ∧ t = s.setMode (.rawData n) := by
  unfold rawRepeatRes
  rw [inCmd_eq_done]
  by_cases h : n = 0 <;> simp [h, eq_comm]

theorem tmdsRes_eq_done {n : Nat} {s t : State} :
    tmdsRes n s = .done t ↔ s.sink.mode = .cmd ∧ n ≠ 0 ∧ n % ppw s.cfg = 0 ∧ t = s.setMode (.pixData n) := by
  unfold tmdsRes
  rw [inCmd_eq_done]
  by_cases h : n = 0
  · simp [h]
  · by_cases h' : n % ppw s.cfg = 0
    · simp only [h, h', wholeWords, if_false, beq_self_eq_true, if_true, Res.done.injEq]
      exact ⟨fun e => ⟨e.1, h, trivial, e.2.symm⟩, fun e => ⟨e.1, e.2.2.2.symm⟩⟩
    · simp [h, h', wholeWords]

theorem nopRes_eq_done {n : Nat} {s t : State} :
    nopRes n s = .done t ↔ s.sink.mode = .cmd ∧ n = 0 ∧ t = s := by
  unfold nopRes
  rw [inCmd_eq_done]
  by_cases h : n = 0
  · simp only [h, if_true, Res.done.injEq]
    exact ⟨fun e => ⟨e.1, trivial, e.2.symm⟩, fun e => ⟨e.1, e.2.2.symm⟩⟩
  · simp [h]

theorem holdData_eq_done {w : Word} {s t : State} :
    holdData w s = .done t ↔
      ∃ n, s.sink.mode = .rawData n ∧ t = (s.emit (List.replicate n (.ctl w))).setMode .cmd := by
  unfold holdData
  split <;> rename_i h <;> simp [h, eq_comm]

theorem pixelData_eq_done {fmt : PixelFormat} {px : List Symbol} {s t : State} :
    pixelData fmt px s = .done t ↔
      ∃ n, s.sink.mode = .pixData n ∧ s.cfg.fmt = fmt ∧ ppw s.cfg ≤ n ∧
        t = (s.emit px).setMode (modeAfterPixels n (ppw s.cfg)) := by
  unfold pixelData
  split
  · rename_i n hm
    by_cases hf : s.cfg.fmt = fmt
    · by_cases hn : n < ppw s.cfg
      · simp [hf, hn, hm]
      · have hn' : ppw s.cfg ≤ n := by omega
        rw [if_neg (by simpa using hf), if_neg hn]
        constructor
        · intro e
          cases e
          exact ⟨n, hm, hf, hn', rfl⟩
        · rintro ⟨k, hk, -, -, rfl⟩
          rw [hm] at hk
          cases hk
          rfl
    · simp [hf]
  · rename_i h; simp [h]
  · rename_i h; simp [h]

theorem modeAfterPixels_ne_rawData (n k j : Nat) : modeAfterPixels n k ≠ .rawData j := by
  unfold modeAfterPixels; split <;> simp

theorem modeAfterPixels_eq_pixData {n k j : Nat} :
    modeAfterPixels n k = .pixData j ↔ j = n - k ∧ 0 < j := by
  unfold modeAfterPixels
  split
  · simp; omega
  · simp only [SinkMode.pixData.injEq]; omega

/-- A completed word writes the sink's mode and appends to its output, nothing else. -/
theorem perform_word_done {i : Instr} {s t : State} (hk : i.kind ≠ .operation) (h : perform i s = .done t) :
    ∃ (l : List Symbol) (m : SinkMode), t = (s.emit l).setMode m := by
  have keep : ∀ m, s.setMode m = (s.emit []).setMode m := fun m => by simp [State.emit]
  cases i <;> simp only [perform] at h
  case rawRepeat n => obtain ⟨-, -, rfl⟩ := rawRepeatRes_eq_done.1 h; exact ⟨[], _, keep _⟩
  case tmds n => obtain ⟨-, -, -, rfl⟩ := tmdsRes_eq_done.1 h; exact ⟨[], _, keep _⟩
  case nop n => obtain ⟨-, -, rfl⟩ := nopRes_eq_done.1 h; exact ⟨[], t.sink.mode, by rw [← keep]; rfl⟩
  case pixelWordP1 => obtain ⟨n, -, -, -, rfl⟩ := pixelData_eq_done.1 h; exact ⟨_, _, rfl⟩
  case pixelWordP2 => obtain ⟨n, -, -, -, rfl⟩ := pixelData_eq_done.1 h; exact ⟨_, _, rfl⟩
  all_goals first
    | exact absurd rfl hk
    | (obtain ⟨n, -, rfl⟩ := holdData_eq_done.1 h; exact ⟨_, _, rfl⟩)
    | cases h

/-- Every opcode spells a command. -/
theorem commandOf_kind (e : Encoding) (op : BitVec 4) (n : Nat) : (commandOf e op n).kind = .command := by
  unfold commandOf reservedOf
  repeat' split
  all_goals rfl

/-- The decoder gives words only. -/
theorem decodeWord_kind (e : Encoding) (m : SinkMode) (fmt : PixelFormat) (w : Word) :
    (decodeWord e m fmt w).kind ≠ .operation := by
  cases m with
  | cmd =>
    simp only [decodeWord, decodeCommand]
    split
    · rw [commandOf_kind]; exact Kind.noConfusion
    · exact Kind.noConfusion
  | rawData n =>
    simp only [decodeWord, decodeControl]
    repeat' split
    all_goals simp [Instr.kind]
  | pixData n => cases fmt <;> simp [decodeWord, decodePixel, Instr.kind]

/-! ## Operations -/

/-- The descriptor a completed operation leaves in its channel. -/
def programmed (ch : Channel) (a n : Word) : Channel := { ch with src := a, count := n, armed := true }

/-- The sub-phase flag after an operation (R142-R145). -/
def flagAfter : Payload → Bool → Bool
  | .hdr, _ => true
  | .pix, _ => false
  | .vsync, b => b
  | .vblank, b => b

/-- A completed payload operation on an idle channel: its descriptor, the flag, and for `P1` rows the scratch bytes. -/
theorem perform_op_done {k : Payload} {c : Chan} {s t : State} (h : perform (payloadInstr k c) s = .done t) :
    (s.chan c).busy = false ∧ ∃ (m : List Host.Cell) (a n : Word) (hp : Bool),
      t = ((s.setMem m).setChan c (programmed (s.chan c) a n)).setHeaderPosted hp
        ∧ hp = flagAfter k s.ctl.headerPosted
        ∧ (k = .hdr → a = s.cfg.romActiveBase ∧ n = BitVec.ofNat 32 activeLength)
        ∧ (m = s.mem ∨ k = .pix ∧ s.cfg.fmt = .p1 ∧ (Memory.wf s.cfg s.mem = true → Memory.wf s.cfg m = true)
            ∧ ∀ x, (regionOf s.cfg x 1).map Region.kind ≠ some .scratch →
              readByte s.cfg m x = readByte s.cfg s.mem x) := by
  have keep : ∀ v, s.setChan c v = ((s.setMem s.mem).setChan c v).setHeaderPosted s.ctl.headerPosted := fun v => by
    cases c <;> rfl
  cases k <;> simp only [payloadInstr, perform] at h
  case vsync =>
    obtain ⟨hb, -, rfl⟩ := (program_eq_done _ _).1 h
    exact ⟨hb, s.mem, _, _, _, keep _, rfl, by simp, .inl rfl⟩
  case vblank =>
    obtain ⟨hb, -, rfl⟩ := (program_eq_done _ _).1 h
    exact ⟨hb, s.mem, _, _, _, keep _, rfl, by simp, .inl rfl⟩
  case hdr =>
    obtain ⟨u, hu, ht⟩ := Res.andThen_eq_done.1 h
    obtain ⟨hb, -, rfl⟩ := (program_eq_done _ _).1 hu
    cases ht
    exact ⟨hb, s.mem, _, _, true, by rw [keep]; cases c <;> rfl, rfl, fun _ => ⟨rfl, rfl⟩, .inl rfl⟩
  case pix =>
    simp only [opPixRes] at h
    split at h
    · cases h
    · rename_i row _
      obtain ⟨u, hu, ht⟩ := Res.andThen_eq_done.1 h
      cases ht
      split at hu
      · rename_i hf
        obtain ⟨v, hv, hp⟩ := Res.andThen_eq_done.1 hu
        obtain ⟨m, rfl, hwf, hx⟩ := copyRow_eq_done _ hv
        obtain ⟨hb, -, rfl⟩ := (program_eq_done _ _).1 hp
        rw [State.setMem_chan] at hb ⊢
        exact ⟨hb, _, _, _, false, rfl, rfl, by simp, .inr ⟨rfl, hf, hwf, hx⟩⟩
      · obtain ⟨hb, -, rfl⟩ := (program_eq_done _ _).1 hu
        exact ⟨hb, s.mem, _, _, false, by rw [keep]; cases c <;> rfl, rfl, by simp, .inl rfl⟩

/-- The faults of an operation: a busy channel, a zero count, a row out of range, or a fault of the copy. -/
theorem perform_op_fault {k : Payload} {c : Chan} {s t : State} {f : Fault}
    (h : perform (payloadInstr k c) s = .fault f t) :
    ((s.chan c).busy = true ∧ f = .busyReprogram c) ∨ f = .zeroCount c
      ∨ (k = .pix ∧ rowMap s.cfg (activeRow s.ctl.scanline) = none ∧ f = .rowRange (activeRow s.ctl.scanline))
      ∨ (k = .pix ∧ s.cfg.fmt = .p1 ∧ ∃ j, f = .scratchRace j ∧ racingChannel s = some j)
      ∨ (∃ e, f = .unwrittenRead .controller e) := by
  have prog : ∀ {a n : Word} {u t : State}, (u.chan c).busy = (s.chan c).busy → program c a n u = .fault f t →
      ((s.chan c).busy = true ∧ f = .busyReprogram c) ∨ f = .zeroCount c := fun hu hp => by
    rcases (program_eq_fault _ _).1 hp with ⟨-, ⟨hb, hf⟩ | ⟨-, -, hf⟩⟩
    · exact .inl ⟨hu ▸ hb, hf⟩
    · exact .inr hf
  cases k <;> simp only [payloadInstr, perform] at h
  case vsync => rcases prog rfl h with h | h <;> simp [h]
  case vblank => rcases prog rfl h with h | h <;> simp [h]
  case hdr =>
    rcases Res.andThen_eq_fault.1 h with h | ⟨u, -, h⟩
    · rcases prog rfl h with h | h <;> simp [h]
    · cases h
  case pix =>
    simp only [opPixRes] at h
    split at h
    · rename_i hr
      simp only [Res.fault.injEq] at h
      exact .inr (.inr (.inl ⟨rfl, hr, h.1.symm⟩))
    · rcases Res.andThen_eq_fault.1 h with h | ⟨u, -, h⟩
      · split at h
        · rename_i hf
          rcases Res.andThen_eq_fault.1 h with h | ⟨u, hu, h⟩
          · rcases copyRow_fault _ h with ⟨j, h1, h2⟩ | h
            · exact .inr (.inr (.inr (.inl ⟨rfl, hf, j, h1, h2⟩)))
            · exact .inr (.inr (.inr (.inr h)))
          · obtain ⟨m, rfl, -⟩ := copyRow_eq_done _ hu
            rcases prog (by simp) h with h | h <;> simp [h]
        · rcases prog rfl h with h | h <;> simp [h]
      · cases h

/-! ## Channels -/

/-- A completed transfer step moves the word it read. -/
theorem transfer_eq_done {c : Chan} {s t : State} : transfer c s = .done t ↔
    ∃ w, readWord s.cfg s.mem (s.chan c).cur = .value w ∧
      t = ((s.push w).setChan c
          { s.chan c with cur := (s.chan c).cur + 4#32, remaining := (s.chan c).remaining - 1#32 }).record
        (.word c (s.chan c).cur w) := by
  unfold transfer
  split <;> rename_i h <;> simp [h, eq_comm]

theorem transfer_fault {c : Chan} {s t : State} {f : Fault} (h : transfer c s = .fault f t) :
    f = .misaligned c (s.chan c).cur ∨ f = .stuck ∨ ∃ a, f = .unwrittenRead (.channel c) a := by
  unfold transfer at h
  split at h
  · cases h; exact .inl rfl
  · cases h; exact .inr (.inl rfl)
  · cases h; exact .inr (.inr ⟨_, rfl⟩)
  · cases h

variable (c : Chan) (s : State)

@[simp] theorem completeWrites_chan_self :
    (completeWrites c s).chan c = { s.chan c with busy := false } := by simp [completeWrites]
@[simp] theorem completeWrites_chan_other :
    (completeWrites c s).chan c.other = s.chan c.other := by simp [completeWrites]
@[simp] theorem completeWrites_pending_self : (completeWrites c s).pending c = true := by simp [completeWrites]
@[simp] theorem completeWrites_pending_other :
    (completeWrites c s).pending c.other = s.pending c.other := by simp [completeWrites]
@[simp] theorem completeWrites_enable0 : (completeWrites c s).irq.enable0 = s.irq.enable0 := by simp [completeWrites]
@[simp] theorem completeWrites_enable1 : (completeWrites c s).irq.enable1 = s.irq.enable1 := by simp [completeWrites]
@[simp] theorem completeWrites_ctl : (completeWrites c s).ctl = s.ctl := by simp [completeWrites]
@[simp] theorem completeWrites_cfg : (completeWrites c s).cfg = s.cfg := by simp [completeWrites]
@[simp] theorem completeWrites_sink : (completeWrites c s).sink = s.sink := by simp [completeWrites]
@[simp] theorem completeWrites_mem : (completeWrites c s).mem = s.mem := by simp [completeWrites]
@[simp] theorem completeWrites_started : (completeWrites c s).started = s.started := by simp [completeWrites]
@[simp] theorem completeWrites_setup : (completeWrites c s).setup = s.setup := by simp [completeWrites]
@[simp] theorem completeWrites_events : (completeWrites c s).events = s.events ++ [.complete c] := by
  simp [completeWrites]

/-! ## Steps of the machine -/

theorem mover_enabled {s : State} {a : Agent} (h : mover s = some a) : enabled s a = true := by
  unfold mover at h
  split at h
  · cases h; assumption
  · simpa using List.find?_some h

theorem mem_allAgents (a : Agent) : a ∈ allAgents := by
  cases a with
  | channel c => cases c <;> simp [allAgents]
  | setup => simp [allAgents]
  | controller => simp [allAgents]
  | sink => simp [allAgents]

theorem mover_isSome {s : State} {a : Agent} (h : enabled s a = true) : (mover s).isSome = true := by
  unfold mover
  split
  · rfl
  · rw [List.find?_isSome]
    exact ⟨a, mem_allAgents a, h⟩

/-- In an unmarked state the step is the mover's, and then the next turn is drawn. -/
theorem stepRes_of_mover {s : State} {a : Agent} (hu : unmarked s = true) (hm : mover s = some a) :
    stepRes s = (agentStep a s).andThen fun t => .done t.passTurn := by
  simp only [unmarked, Bool.and_eq_true, Option.isNone_iff_eq_none] at hu
  simp [stepRes, hu.1, hu.2, hm]

theorem step_of_mover {s : State} {a : Agent} (hu : unmarked s = true) (hm : mover s = some a) :
    step s = mapOutcome State.passTurn (agentStep a s).outcome := by
  rw [step, stepRes_of_mover hu hm, Res.outcome_andThen_done]

/-- A completed step is some enabled agent's completed step, followed by the draw of the next turn. -/
theorem step_next {s t : State} (h : step s = .next t) :
    unmarked s = true ∧ ∃ a u, mover s = some a ∧ enabled s a = true ∧ agentStep a s = .done u ∧ t = u.passTurn := by
  rw [step, Res.outcome_eq_next] at h
  unfold stepRes at h
  split at h
  · cases h
  · rename_i hf
    split at h
    · cases h
    · rename_i hr
      split at h
      · cases h
      · rename_i a hm
        obtain ⟨u, hu, ht⟩ := Res.andThen_eq_done.1 h
        cases ht
        exact ⟨by simp [unmarked, hf, hr], a, u, hm, mover_enabled hm, hu, rfl⟩

/-- A fault is the mark, the machine being stuck, or a fault of an enabled agent's step. -/
theorem step_fault {s : State} {f : Fault} (h : step s = .fault f) :
    s.fault = some f ∨ f = .stuck ∨
      ∃ a u, mover s = some a ∧ enabled s a = true ∧ agentStep a s = .fault f u := by
  have hr : ∃ u, stepRes s = .fault f u := by
    unfold step at h
    cases hs : stepRes s with
    | done t => rw [hs] at h; cases h
    | refuse r t => rw [hs] at h; cases h
    | fault g t => rw [hs] at h; cases h; exact ⟨t, rfl⟩
  obtain ⟨u, hr⟩ := hr
  unfold stepRes at hr
  split at hr
  · rename_i g hg
    simp only [Res.fault.injEq] at hr
    exact .inl (by rw [hg, hr.1])
  · split at hr
    · cases hr
    · split at hr
      · simp only [Res.fault.injEq] at hr
        exact .inr (.inl hr.1.symm)
      · rename_i a hm
        rcases Res.andThen_eq_fault.1 hr with h | ⟨v, -, h⟩
        · exact .inr (.inr ⟨a, u, hm, mover_enabled hm, h⟩)
        · cases h

/-- A completed step of an enabled agent is one of five: setup, handler, completion, transfer, sink. -/
theorem agentStep_done {s u : State} {a : Agent} (he : enabled s a = true) (h : agentStep a s = .done u) :
    (a = .setup ∧ s.started = false ∧ setupStep s = .done u)
      ∨ (a = .controller ∧ s.started = true ∧ irqLine s = true ∧ handlerStep s = .done u)
      ∨ (∃ c, a = .channel c ∧ s.started = true ∧ (s.chan c).busy = true ∧ (s.chan c).remaining = 0#32
          ∧ complete c s = .done u)
      ∨ (∃ c, a = .channel c ∧ s.started = true ∧ (s.chan c).busy = true ∧ (s.chan c).remaining ≠ 0#32
          ∧ s.sink.fifo.length < s.cfg.fifoDepth ∧ transfer c s = .done u)
      ∨ (a = .sink ∧ s.started = true ∧ sinkStep s = .done u) := by
  cases a with
  | setup =>
    simp only [enabled, Bool.and_eq_true, Bool.not_eq_true'] at he
    exact .inl ⟨rfl, he.1, h⟩
  | controller =>
    simp only [enabled, Bool.and_eq_true] at he
    exact .inr (.inl ⟨rfl, he.1, he.2, h⟩)
  | sink =>
    simp only [enabled, Bool.and_eq_true] at he
    exact .inr (.inr (.inr (.inr ⟨rfl, he.1, h⟩)))
  | channel c =>
    simp only [enabled, Bool.and_eq_true, Bool.or_eq_true] at he
    simp only [agentStep, channelStep] at h
    split at h
    · rename_i hr
      refine .inr (.inr (.inl ⟨c, rfl, he.1, ?_, hr, h⟩))
      rcases he.2 with hb | hb
      · simp only [transferEnabled, Bool.and_eq_true] at hb; exact hb.1.1.1
      · simp only [completeEnabled, Bool.and_eq_true] at hb; exact hb.1
    · rename_i hr
      rcases he.2 with hb | hb
      · simp only [transferEnabled, Bool.and_eq_true, fifoHasRoom, decide_eq_true_eq] at hb
        exact .inr (.inr (.inr (.inl ⟨c, rfl, he.1, hb.1.1.1, hr, hb.1.2, h⟩)))
      · simp only [completeEnabled, Bool.and_eq_true, beq_iff_eq] at hb; exact absurd hb.2 hr

/-! ## The agents' completed steps -/

/-- A completed sink step pops the head and leaves what its word leaves. -/
theorem sinkStep_done {s t : State} (h : sinkStep s = .done t) :
    ∃ w rest l m, s.sink.fifo = w :: rest ∧ t = ((s.setFifo rest).emit l).setMode m
      ∧ perform (decodeWord s.cfg.enc s.sink.mode s.cfg.fmt w) (s.setFifo rest) = .done t := by
  unfold sinkStep at h
  split at h
  · cases h
  · rename_i w rest hf
    obtain ⟨l, m, rfl⟩ := perform_word_done (decodeWord_kind _ _ _ _) h
    exact ⟨w, rest, l, m, hf, rfl, h⟩

/-- A sink step never faults while the FIFO holds a word. -/
theorem sinkStep_not_fault {s t : State} {f : Fault} (hf : s.sink.fifo ≠ []) : sinkStep s ≠ .fault f t := by
  unfold sinkStep
  split
  · rename_i h; exact absurd h hf
  · rename_i w rest _
    intro h
    have hk := decodeWord_kind s.cfg.enc s.sink.mode s.cfg.fmt w
    generalize decodeWord s.cfg.enc s.sink.mode s.cfg.fmt w = i at h hk
    cases i <;> simp only [perform, rawRes, tmdsRepeatRes, reservedRes, cmdUpperBitsRes, rawRepeatRes, tmdsRes, nopRes,
      inCmd, holdData, pixelData] at h
    all_goals first
      | exact hk rfl
      | cases h
      | (repeat' split at h
         all_goals cases h)

/-- A completed handler step: the channel the parity flag named, the entry, the operation, the return. -/
theorem handlerStep_done {s t : State} (h : handlerStep s = .done t) :
    ∃ c u, c = parityChannel s.ctl.parity ∧ s.pending c = true
      ∧ perform (payloadInstr (classify s.ctl.scanline s.ctl.headerPosted) c) (enterHandler c s) = .done u
      ∧ t = leaveHandler s c (classify s.ctl.scanline s.ctl.headerPosted) u := by
  unfold handlerStep at h
  split at h
  · cases h
  · rename_i c hc
    obtain ⟨u, hu, ht⟩ := Res.andThen_eq_done.1 h
    cases ht
    obtain ⟨h1, h2⟩ := identify_ok.1 hc
    exact ⟨c, u, h1, h2, hu, rfl⟩

/-- A handler step's fault: the parity flag has lost its channel, or the operation faults. -/
theorem handlerStep_fault {s t : State} {f : Fault} (h : handlerStep s = .fault f t) :
    (s.pending (parityChannel s.ctl.parity) = false
        ∧ f = .parityDesync s.ctl.parity s.irq.pending0 s.irq.pending1)
      ∨ ∃ c, c = parityChannel s.ctl.parity ∧ s.pending c = true
        ∧ perform (payloadInstr (classify s.ctl.scanline s.ctl.headerPosted) c) (enterHandler c s) = .fault f t := by
  unfold handlerStep at h
  split at h
  · rename_i g hg
    simp only [Res.fault.injEq] at h
    exact .inl ((h.1 ▸ identify_error.1 hg))
  · rename_i c hc
    obtain ⟨h1, h2⟩ := identify_ok.1 hc
    rcases Res.andThen_eq_fault.1 h with h | ⟨u, -, h⟩
    · exact .inr ⟨c, h1, h2, h⟩
    · cases h

/-- A completed setup step is one of the three, in order (R294). -/
theorem setupStep_done {s t : State} (h : setupStep s = .done t) :
    (s.setup = .preload ∧ t = preload s) ∨ (s.setup = .enableIrq ∧ t = enableIrq s)
      ∨ (s.setup = .start ∧ trigger .ch0 ((s.setStarted true).setSetup .done) = .done t) := by
  unfold setupStep at h
  split at h
  · cases h; exact .inl ⟨by assumption, rfl⟩
  · cases h; exact .inr (.inl ⟨by assumption, rfl⟩)
  · exact .inr (.inr ⟨by assumption, h⟩)
  · cases h

end Sys2Proof.Machine
end

