-- ==== Sys2Proof/Laws/Decode.lean ====
section
/-! SUPPORT. What the fields of a word are, and that a word is the concatenation of its fields. -/

namespace Sys2Proof

/-! ## Command words -/

variable {e : Encoding}

/-- The number of a command word, the opcode above the count. -/
theorem toNat_commandWord (h : e.countWidth + 4 ≤ 32) (op : BitVec 4) (n : Nat) :
    (commandWord e op n).toNat = op.toNat * 2 ^ e.countWidth + n % 2 ^ e.countWidth := by
  have hn : n % 2 ^ e.countWidth < 2 ^ e.countWidth := Nat.mod_lt _ (Nat.two_pow_pos _)
  have hop : op.toNat + 1 ≤ 2 ^ 4 := op.isLt
  have hm : (op.toNat + 1) * 2 ^ e.countWidth ≤ 2 ^ 4 * 2 ^ e.countWidth := Nat.mul_le_mul_right _ hop
  have hp : 2 ^ 4 * 2 ^ e.countWidth ≤ 2 ^ 32 := by
    rw [← Nat.pow_add]
    exact Nat.pow_le_pow_right (by omega) (by omega)
  rw [commandWord, BitVec.toNat_ofNat, Nat.mod_eq_of_lt]
  rw [Nat.add_mul] at hm
  omega

theorem upperField_commandWord (h : e.countWidth + 4 ≤ 32) (op : BitVec 4) (n : Nat) :
    upperField e (commandWord e op n) = 0 := by
  rw [upperField, toNat_commandWord h, Nat.pow_add, ← Nat.div_div_eq_div_mul, Nat.mul_comm,
    Nat.mul_add_div (Nat.two_pow_pos _), Nat.div_eq_of_lt (Nat.mod_lt _ (Nat.two_pow_pos _)), Nat.add_zero]
  exact Nat.div_eq_of_lt op.isLt

theorem opcodeField_commandWord (h : e.countWidth + 4 ≤ 32) (op : BitVec 4) (n : Nat) :
    opcodeField e (commandWord e op n) = op := by
  rw [opcodeField, toNat_commandWord h, Nat.mul_comm, Nat.mul_add_div (Nat.two_pow_pos _),
    Nat.div_eq_of_lt (Nat.mod_lt _ (Nat.two_pow_pos _)), Nat.add_zero]
  rw [BitVec.ofNat_toNat, BitVec.setWidth_eq]

theorem countField_commandWord (h : e.countWidth + 4 ≤ 32) (op : BitVec 4) (n : Nat) :
    countField e (commandWord e op n) = n % 2 ^ e.countWidth := by
  rw [countField, toNat_commandWord h, Nat.mul_comm, Nat.mul_add_mod, Nat.mod_mod]

/-- The count field holds fewer than `2 ^ countWidth` values (R103). -/
theorem countField_lt (w : Word) : countField e w < 2 ^ e.countWidth := Nat.mod_lt _ (Nat.two_pow_pos _)

/-- A word whose upper bits are zero is the command word of its fields. -/
theorem eq_commandWord {w : Word} (h : upperField e w = 0) :
    w = commandWord e (opcodeField e w) (countField e w) := by
  have hd : w.toNat / 2 ^ e.countWidth < 2 ^ 4 := by
    rw [upperField, Nat.pow_add, ← Nat.div_div_eq_div_mul] at h
    exact (Nat.div_eq_zero_iff_lt (by omega)).1 h
  apply BitVec.eq_of_toNat_eq
  rw [commandWord, opcodeField, countField, BitVec.toNat_ofNat, BitVec.toNat_ofNat, Nat.mod_eq_of_lt hd, Nat.mod_mod,
    Nat.div_add_mod', Nat.mod_eq_of_lt w.isLt]

theorem decodeCommand_commandWord (h : e.countWidth + 4 ≤ 32) (op : BitVec 4) (n : Nat) :
    decodeCommand e (commandWord e op n) = commandOf e op (n % 2 ^ e.countWidth) := by
  simp [decodeCommand, upperField_commandWord h, opcodeField_commandWord h, countField_commandWord h]

/-- The default layout of R101: a count of 12 bits, the opcode in bits 12 to 15, sixteen zeros above. -/
theorem commandWord_default (op : BitVec 4) (n : Nat) :
    commandWord Encoding.default op n = 0#16 ++ op ++ BitVec.ofNat 12 n := by
  apply BitVec.eq_of_toNat_eq
  have h12 := (BitVec.ofNat 12 n).isLt
  rw [toNat_commandWord (by decide), BitVec.toNat_append, BitVec.toNat_append, ← Nat.shiftLeft_add_eq_or_of_lt h12,
    ← Nat.shiftLeft_add_eq_or_of_lt op.isLt]
  simp [Encoding.default, Nat.shiftLeft_eq]

/-! ## Pixel words -/

theorem eq_pixels1 (w : Word) :
    w.extractLsb' 24 8 ++ w.extractLsb' 16 8 ++ w.extractLsb' 8 8 ++ w.extractLsb' 0 8 = w := by
  ext i hi
  rw [← BitVec.getLsbD_eq_getElem, ← BitVec.getLsbD_eq_getElem]
  simp only [BitVec.getLsbD_append, BitVec.getLsbD_extractLsb']
  by_cases h1 : i < 8
  · simp [h1]
  · by_cases h2 : i < 16
    · simp [h1, show i - 8 < 8 by omega, show 8 + (i - 8) = i by omega]
    · by_cases h3 : i < 24
      · simp [h1, show ¬ i - 8 < 8 by omega, show i - 8 - 8 < 8 by omega, show 16 + (i - 8 - 8) = i by omega]
      · simp [h1, show ¬ i - 8 < 8 by omega, show ¬ i - 8 - 8 < 8 by omega, show i - 8 - 8 - 8 < 8 by omega,
          show 24 + (i - 8 - 8 - 8) = i by omega]

theorem eq_pixels2 (w : Word) : w.extractLsb' 16 16 ++ w.extractLsb' 0 16 = w := by
  ext i hi
  rw [← BitVec.getLsbD_eq_getElem, ← BitVec.getLsbD_eq_getElem]
  simp only [BitVec.getLsbD_append, BitVec.getLsbD_extractLsb']
  by_cases h1 : i < 16
  · simp [h1]
  · simp [h1, show i - 16 < 16 by omega, show 16 + (i - 16) = i by omega]

theorem decodePixel_p1 (px3 px2 px1 px0 : BitVec 8) :
    decodePixel .p1 (px3 ++ px2 ++ px1 ++ px0) = .pixelWordP1 px3 px2 px1 px0 := by
  simp only [decodePixel, Instr.pixelWordP1.injEq]
  refine ⟨?_, ?_, ?_, ?_⟩ <;> ext i hi <;> simp only [BitVec.getElem_extractLsb', BitVec.getLsbD_append]
  · simp [show ¬ 24 + i < 8 by omega, show ¬ 24 + i - 8 < 8 by omega, show ¬ 24 + i - 8 - 8 < 8 by omega,
      show 24 + i - 8 - 8 - 8 = i by omega, hi]
  · simp [show ¬ 16 + i < 8 by omega, show ¬ 16 + i - 8 < 8 by omega, show 16 + i - 8 - 8 = i by omega, hi]
  · simp [show ¬ 8 + i < 8 by omega, show 8 + i - 8 = i by omega, hi]
  · simp [hi]

theorem decodePixel_p2 (px1 px0 : BitVec 16) : decodePixel .p2 (px1 ++ px0) = .pixelWordP2 px1 px0 := by
  simp only [decodePixel, Instr.pixelWordP2.injEq]
  refine ⟨?_, ?_⟩ <;> ext i hi <;> simp only [BitVec.getElem_extractLsb', BitVec.getLsbD_append]
  · simp [show ¬ 16 + i < 16 by omega, show 16 + i - 16 = i by omega, hi]
  · simp [hi]

/-! ## Bytes -/

/-- The bytes of a word, lowest first, spell it. -/
theorem wordOfBytes_byteOfWord (w : Word) :
    wordOfBytes (byteOfWord w 0) (byteOfWord w 1) (byteOfWord w 2) (byteOfWord w 3) = w := eq_pixels1 w

/-- Decoding a word's four bytes is decoding the word. -/
theorem decodeBytes_wordBytes (e : Encoding) (m : SinkMode) (fmt : PixelFormat) (w : Word) :
    decodeBytes e m fmt (wordBytes w) = .ok (decodeWord e m fmt w, []) := by
  simp [decodeBytes, wordBytes, wordOfBytes_byteOfWord]

end Sys2Proof
end

