-- ==== Sys2Proof/Laws/PerInstr.lean ====
section
/-! SUPPORT. Per instruction: the encoder's word has the fixed bits of the instruction's row of spec/opcode_table.json,
written out here from the table, not from the encoder. -/

namespace Sys2Proof.Laws.TableFits

/-- The match and the mask of each row of spec/opcode_table.json. The `NOP` row fixes the count field to 0 as well; the
constructor also spells the refused words with another count (R234; log entry 14), so the mask here is that of the
opcode field and the upper bits. An operation has no encoding (R119). -/
def row : Instr → Word × Word
  | .raw _ => (0x00000000#32, 0xFFFFF000#32)
  | .rawRepeat _ => (0x00001000#32, 0xFFFFF000#32)
  | .tmds _ => (0x00002000#32, 0xFFFFF000#32)
  | .tmdsRepeat _ => (0x00003000#32, 0xFFFFF000#32)
  | .reserved47 _ _ => (0x00004000#32, 0xFFFFC000#32)
  | .reserved8B _ _ => (0x00008000#32, 0xFFFFC000#32)
  | .reservedCD _ _ => (0x0000C000#32, 0xFFFFE000#32)
  | .reservedE _ => (0x0000E000#32, 0xFFFFF000#32)
  | .nop _ => (0x0000F000#32, 0xFFFFF000#32)
  | .cmdUpperBits _ => (0x00000000#32, 0x00000000#32)
  | .syncV0H0 => (0x354D5354#32, 0xFFFFFFFF#32)
  | .syncV0H1 => (0x354D50AB#32, 0xFFFFFFFF#32)
  | .syncV1H0 => (0x354D5154#32, 0xFFFFFFFF#32)
  | .syncV1H1 => (0x354D52AB#32, 0xFFFFFFFF#32)
  | .ctlData _ => (0x00000000#32, 0x00000000#32)
  | .pixelWordP1 _ _ _ _ => (0x00000000#32, 0x00000000#32)
  | .pixelWordP2 _ _ => (0x00000000#32, 0x00000000#32)
  | .opVsync _ => (0x0#32, 0x3#32)
  | .opVblank _ => (0x1#32, 0x3#32)
  | .opHdr _ => (0x2#32, 0x3#32)
  | .opPix _ => (0x3#32, 0x3#32)

/-- Under the default encoding, which the table's numbers are (R14), the encoded word of a well-formed instruction has
the fixed bits of its row; an instruction without a word is an operation, with the row's trace number (R119). -/
def Statement (i : Instr) : Prop :=
  i.wf Encoding.default = true →
    (∀ w, encode Encoding.default i = some w → w &&& (row i).2 = (row i).1)
      ∧ (encode Encoding.default i = none → i.kind = .operation)

/-- A word is its row's match when every bit the mask keeps agrees. -/
theorem masked {w m v : Word} (h : ∀ i, i < 32 → (w.getLsbD i && m.getLsbD i) = v.getLsbD i) : w &&& m = v := by
  ext i hi
  rw [← BitVec.getLsbD_eq_getElem, ← BitVec.getLsbD_eq_getElem, BitVec.getLsbD_and, h i hi]

theorem getLsbD_commandWord (op : BitVec 4) (n i : Nat) :
    (commandWord Encoding.default op n).getLsbD i
      = if i < 12 then (BitVec.ofNat 12 n).getLsbD i else if i - 12 < 4 then op.getLsbD (i - 12) else false := by
  rw [commandWord_default]
  show BitVec.getLsbD (w := 16 + 4 + 12) ((0#16 : BitVec 16) ++ op ++ BitVec.ofNat 12 n) i = _
  simp only [BitVec.getLsbD_append, BitVec.getLsbD_zero]

theorem command {op : BitVec 4} (n : Nat) {m v : Word}
    (hm : ∀ i : Fin 32, i.val < 12 → m.getLsbD i = false ∧ v.getLsbD i = false)
    (hv : ∀ i : Fin 32, 12 ≤ i.val → (op.getLsbD (i - 12) && m.getLsbD i) = v.getLsbD i) :
    commandWord Encoding.default op n &&& m = v := by
  apply masked
  intro i hi
  rw [getLsbD_commandWord]
  by_cases h : i < 12
  · simp [hm ⟨i, hi⟩ h]
  · have := hv ⟨i, hi⟩ (Nat.not_lt.1 h)
    by_cases h4 : i - 12 < 4
    · simpa [h, h4] using this
    · have hop : op.getLsbD (i - 12) = false := BitVec.getLsbD_of_ge _ _ (Nat.not_lt.1 h4)
      simpa [h, h4, hop] using this

theorem statement_of {i : Instr} {w : Word} (he : encode Encoding.default i = some w)
    (h : i.wf Encoding.default = true → w &&& (row i).2 = (row i).1) : Statement i :=
  fun hw => ⟨fun w' hw' => by rw [he] at hw'; cases hw'; exact h hw, fun hn => by rw [he] at hn; cases hn⟩

theorem operation {i : Instr} (he : encode Encoding.default i = none) (hk : i.kind = .operation) : Statement i :=
  fun _ => ⟨fun _ h => absurd h (by simp [he]), fun _ => hk⟩

theorem raw (n : Nat) : Statement (.raw n) :=
  statement_of rfl fun _ => command (m := 0xFFFFF000#32) (v := 0x00000000#32) n (by decide) (by decide)
theorem rawRepeat (n : Nat) : Statement (.rawRepeat n) :=
  statement_of rfl fun _ => command (m := 0xFFFFF000#32) (v := 0x00001000#32) n (by decide) (by decide)
theorem tmds (n : Nat) : Statement (.tmds n) :=
  statement_of rfl fun _ => command (m := 0xFFFFF000#32) (v := 0x00002000#32) n (by decide) (by decide)
theorem tmdsRepeat (n : Nat) : Statement (.tmdsRepeat n) :=
  statement_of rfl fun _ => command (m := 0xFFFFF000#32) (v := 0x00003000#32) n (by decide) (by decide)
theorem reserved47 (op : BitVec 2) (n : Nat) : Statement (.reserved47 op n) :=
  statement_of rfl fun _ => command (m := 0xFFFFC000#32) (v := 0x00004000#32) n (by decide) (by clear * -; revert op; decide)
theorem reserved8B (op : BitVec 2) (n : Nat) : Statement (.reserved8B op n) :=
  statement_of rfl fun _ => command (m := 0xFFFFC000#32) (v := 0x00008000#32) n (by decide) (by clear * -; revert op; decide)
/-- The two opcodes of `RESERVED_C_D`: the others are assigned, or rows of their own. -/
theorem reservedCD_opcode (n : Nat) :
    ∀ op : BitVec 4, (Instr.reservedCD op n).wf Encoding.default = true → op = 0xC#4 ∨ op = 0xD#4 := by
  simp only [Instr.wf, Bool.and_eq_true, and_assoc]
  intro op ⟨h, _, h'⟩
  revert op
  decide

theorem reservedCD (op : BitVec 4) (n : Nat) : Statement (.reservedCD op n) :=
  statement_of rfl fun h => by
    rcases reservedCD_opcode n op h with rfl | rfl <;>
      exact command (m := 0xFFFFE000#32) (v := 0x0000C000#32) n (by decide) (by decide)
theorem reservedE (n : Nat) : Statement (.reservedE n) :=
  statement_of rfl fun _ => command (m := 0xFFFFF000#32) (v := 0x0000E000#32) n (by decide) (by decide)
theorem nop (n : Nat) : Statement (.nop n) :=
  statement_of rfl fun _ => command (m := 0xFFFFF000#32) (v := 0x0000F000#32) n (by decide) (by decide)
theorem cmdUpperBits (w : Word) : Statement (.cmdUpperBits w) := statement_of rfl fun _ => BitVec.and_zero
theorem syncV0H0 : Statement .syncV0H0 := statement_of rfl fun _ => by decide
theorem syncV0H1 : Statement .syncV0H1 := statement_of rfl fun _ => by decide
theorem syncV1H0 : Statement .syncV1H0 := statement_of rfl fun _ => by decide
theorem syncV1H1 : Statement .syncV1H1 := statement_of rfl fun _ => by decide
theorem ctlData (w : Word) : Statement (.ctlData w) := statement_of rfl fun _ => BitVec.and_zero
theorem pixelWordP1 (px3 px2 px1 px0 : BitVec 8) : Statement (.pixelWordP1 px3 px2 px1 px0) :=
  statement_of rfl fun _ => BitVec.and_zero
theorem pixelWordP2 (px1 px0 : BitVec 16) : Statement (.pixelWordP2 px1 px0) := statement_of rfl fun _ => BitVec.and_zero
theorem opVsync (c : Chan) : Statement (.opVsync c) := operation rfl rfl
theorem opVblank (c : Chan) : Statement (.opVblank c) := operation rfl rfl
theorem opHdr (c : Chan) : Statement (.opHdr c) := operation rfl rfl
theorem opPix (c : Chan) : Statement (.opPix c) := operation rfl rfl

end Sys2Proof.Laws.TableFits
end

