-- ==== Sys2Proof/Laws/Safety.lean ====
section
/-! SUPPORT. What the classification's classes say of the index, and the invariants as propositions, so that later
proofs never unfold them; the draw of a turn keeps them. -/

namespace Sys2Proof.Machine

/-! ## The timing constants and the classes (R8, R140) -/

theorem vTotal_eq : Config.vTotal = 525 := rfl
theorem vActiveStart_eq : Config.vActiveStart = 45 := rfl
theorem vFp_eq : Config.vFp = 10 := rfl
theorem vSw_eq : Config.vSw = 2 := rfl

/-- A blanking payload is chosen only before the first active line. -/
theorem classify_blank {s : Word} {hp : Bool} (h : classify s hp = .vsync ∨ classify s hp = .vblank) :
    s.toNat < 45 := by
  have h1 := vFp_eq; have h2 := vSw_eq; have h3 := vActiveStart_eq
  by_contra hs
  unfold classify at h
  rw [if_neg (by omega), if_neg (by omega)] at h
  cases hp <;> simp at h

/-- A header is chosen only on an active line with no header posted. -/
theorem classify_hdr_imp {s : Word} {hp : Bool} (h : classify s hp = .hdr) : 45 ≤ s.toNat ∧ hp = false := by
  have h1 := vFp_eq; have h2 := vSw_eq; have h3 := vActiveStart_eq
  unfold classify at h
  split at h
  · cases h
  · split at h
    · cases h
    · cases hp
      · exact ⟨by omega, rfl⟩
      · cases h

/-- A pixel row is chosen only on an active line with its header posted. -/
theorem classify_pix_imp {s : Word} {hp : Bool} (h : classify s hp = .pix) : 45 ≤ s.toNat ∧ hp = true := by
  have h1 := vFp_eq; have h2 := vSw_eq; have h3 := vActiveStart_eq
  unfold classify at h
  split at h
  · cases h
  · split at h
    · cases h
    · cases hp
      · cases h
      · exact ⟨by omega, rfl⟩

/-- The row of index `45 + r` (R145). -/
theorem activeRow_index {s : Word} {r : Nat} (hs : s.toNat = 45 + r) : activeRow s = r := by
  have h45 : (BitVec.ofNat 32 Config.vActiveStart).toNat = 45 := rfl
  have := s.isLt
  rw [activeRow, BitVec.toNat_sub, h45]
  omega

/-! ## The race test as ranges of addresses (R148) -/

theorem overlapsScratch_iff {cfg : Config} (hf : cfg.fmt = .p1) (ch : Channel) : overlapsScratch cfg ch = true ↔
    ∃ i j, i < 4 * ch.remaining.toNat ∧ j < 640 ∧ ch.cur + BitVec.ofNat 32 i = cfg.scratchBase + BitVec.ofNat 32 j := by
  have hb : rowBytes cfg = 640 := by simp [rowBytes, bpp, hf, Config.hAct]
  rw [overlapsScratch, hb, Bool.and_eq_true, Bool.or_eq_true, decide_eq_true_eq, decide_eq_true_eq, decide_eq_true_eq]
  constructor
  · rintro ⟨hr, h | h⟩
    · refine ⟨_, 0, h, by omega, ?_⟩
      rw [BitVec.ofNat_toNat, BitVec.setWidth_eq]
      bv_omega
    · refine ⟨0, _, by omega, h, ?_⟩
      rw [BitVec.ofNat_toNat, BitVec.setWidth_eq]
      bv_omega
  · rintro ⟨i, j, hi, hj, he⟩
    refine ⟨by omega, ?_⟩
    have hn := congrArg BitVec.toNat he
    rw [BitVec.toNat_add, BitVec.toNat_add, BitVec.toNat_ofNat, BitVec.toNat_ofNat] at hn
    rw [BitVec.toNat_sub, BitVec.toNat_sub]
    omega

/-- The race test finds a channel that has a scratch byte still to read, and finds none exactly when there is none. -/
theorem racingChannel_reads {s : State} (hf : s.cfg.fmt = .p1) {k : Chan} (h : racingChannel s = some k) :
    stillReadsScratch s k :=
  have h := racingChannel_some s h
  ⟨h.1, (overlapsScratch_iff hf _).1 h.2⟩

theorem racingChannel_none_iff {s : State} (hf : s.cfg.fmt = .p1) :
    racingChannel s = none ↔ ∀ k, ¬ stillReadsScratch s k := by
  rw [racingChannel_none]
  refine forall_congr' fun k => ?_
  rw [stillReadsScratch, ← overlapsScratch_iff hf, ← Bool.and_eq_true, Bool.not_eq_true]

/-! ## The invariants as propositions -/

theorem controllerOk_iff (s : State) : controllerOk s = true ↔
    s.ctl.scanline.toNat < 525 ∧ (s.ctl.headerPosted = true → 45 ≤ s.ctl.scanline.toNat) := by
  unfold controllerOk
  rw [vTotal_eq, vActiveStart_eq]
  cases s.ctl.headerPosted <;> simp

theorem insideHeader_iff (cfg : Config) (ch : Channel) : insideHeader cfg ch = true ↔
    ch.remaining.toNat ≤ 9 ∧ ch.cur + 4#32 * ch.remaining = cfg.romActiveBase + 36#32 := by
  unfold insideHeader
  rw [Bool.and_eq_true, decide_eq_true_eq, beq_iff_eq]
  exact Iff.rfl

theorem feederAt_iff (s : State) (b : Chan) : feederAt s b = true ↔
    (s.chan b).busy = true ∧ (s.chan b).armed = false ∧ (s.chan b.other).busy = false ∧ s.pending b = false
      ∧ s.irq.enable0 = true ∧ s.irq.enable1 = true
      ∧ (((s.chan b.other).armed = true ∧ s.pending b.other = false ∧ parityChannel s.ctl.parity = b
            ∧ (s.ctl.headerPosted = true → (s.chan b.other).src = s.cfg.romActiveBase
                ∧ (s.chan b.other).count = BitVec.ofNat 32 activeLength))
          ∨ ((s.chan b.other).armed = false ∧ s.pending b.other = true ∧ parityChannel s.ctl.parity = b.other
            ∧ (s.ctl.headerPosted = true → insideHeader s.cfg (s.chan b) = true))) := by
  cases hp : s.ctl.headerPosted <;> simp [feederAt, hp, and_assoc]

/-- After start the invariant is R47 (a), (b), and the cycle at the one busy channel. -/
theorem engineOk_started {s : State} (h : s.started = true) : engineOk s = true ↔
    controllerOk s = true ∧ s.setup = .done ∧ ∃ b, feederAt s b = true := by
  simp only [engineOk, h, if_true, Bool.and_eq_true, Bool.or_eq_true, beq_iff_eq]
  constructor
  · rintro ⟨a, b, c | c⟩
    · exact ⟨a, b, _, c⟩
    · exact ⟨a, b, _, c⟩
  · rintro ⟨a, b, c, d⟩
    cases c
    · exact ⟨a, b, .inl d⟩
    · exact ⟨a, b, .inr d⟩

/-- Before start the invariant is R47 (a), (b), and the phase of the setup. -/
theorem engineOk_not_started {s : State} (h : s.started = false) : engineOk s = true ↔
    controllerOk s = true ∧ setupPhaseOk s = true := by
  simp [engineOk, h]

theorem setupPhaseOk_iff (s : State) : setupPhaseOk s = true ↔
    s.ch0.busy = false ∧ s.ch1.busy = false ∧ s.irq.pending0 = false ∧ s.irq.pending1 = false
      ∧ s.ctl.parity = false ∧ s.ctl.headerPosted = false ∧ s.setup ≠ .done
      ∧ (s.setup = .enableIrq ∨ s.setup = .start → s.ch0.armed = true ∧ s.ch1.armed = true)
      ∧ (s.setup = .start → s.irq.enable0 = true ∧ s.irq.enable1 = true) := by
  unfold setupPhaseOk
  cases h : s.setup <;> simp [and_assoc]

theorem sinkOk_iff (s : State) : sinkOk s = true ↔
    s.sink.fifo.length ≤ s.cfg.fifoDepth
      ∧ (∀ n, s.sink.mode = .rawData n → 1 ≤ n ∧ n < 2 ^ s.cfg.enc.countWidth)
      ∧ (∀ n, s.sink.mode = .pixData n → 1 ≤ n ∧ n < 2 ^ s.cfg.enc.countWidth ∧ n % ppw s.cfg = 0) := by
  unfold sinkOk
  cases h : s.sink.mode <;> simp [and_assoc]

/-! ## Equal parts give equal invariants -/

/-- The engine's invariant reads the controller, the channels, the interrupt bits, the start mark, the set-up progress
and the parameters, nothing else. -/
theorem engineOk_congr {s t : State} (h0 : t.cfg = s.cfg) (h1 : t.ctl = s.ctl) (h2 : t.ch0 = s.ch0)
    (h3 : t.ch1 = s.ch1) (h4 : t.irq = s.irq) (h5 : t.started = s.started) (h6 : t.setup = s.setup) :
    engineOk t = engineOk s := by
  obtain ⟨c, ctl, a, b, irq, sink, mem, f, r, st, su, ev, tu, ti⟩ := s
  obtain ⟨c', ctl', a', b', irq', sink', mem', f', r', st', su', ev', tu', ti'⟩ := t
  simp only at h0 h1 h2 h3 h4 h5 h6
  subst h0 h1 h2 h3 h4 h5 h6
  rfl

/-- R47 (a) and (b) read the index and the flag, nothing else. -/
theorem controllerOk_congr {s t : State} (h1 : t.ctl.scanline = s.ctl.scanline)
    (h2 : t.ctl.headerPosted = s.ctl.headerPosted) : controllerOk t = controllerOk s := by
  rw [controllerOk, controllerOk, h1, h2]

@[simp] theorem engineOk_passTurn (s : State) : engineOk s.passTurn = engineOk s :=
  engineOk_congr rfl rfl rfl rfl rfl rfl rfl

/-- The row's byte addresses are the copy's source addresses (R147). -/
theorem rowByteAddr_eq {cfg : Config} (hf : cfg.fmt = .p1) (a j : Nat) :
    rowByteAddr cfg a j = rowAddr cfg a + BitVec.ofNat 32 j := by simp [rowByteAddr, rowAddr, bpp, hf]

/-- Safety's account of a row byte that is written when the copy reaches it is that of the copy's lemmas (R148). -/
theorem rowByteWritten_iff {s : State} (hf : s.cfg.fmt = .p1) (a j : Nat) :
    rowByteWritten s a j ↔ writtenWhenReached s.cfg (rowAddr s.cfg a) s.cfg.scratchBase s.mem j := by
  simp only [rowByteWritten, copiedBefore, writtenWhenReached, rowByteAddr_eq hf]

end Sys2Proof.Machine
end

