-- ==== Sys2Proof/Tests/Slice0.lean ====
section
/-! SUPPORT. Tests with expected results from spec/95_test_vectors.md and the encoding tables, and for every obligation
with hypotheses a witness that meets them. -/

namespace Sys2Proof.Tests

open Sys2Proof Sys2Proof.Machine

/-! ## Helpers -/

/-- What a completed step leaves, seen through `f`. -/
def after {α : Type} (o : Host.Outcome State Fault Refusal) (f : State → α) : Option α :=
  match o with
  | .next t => some (f t)
  | .fault _ => none
  | .refused _ => none

def faultOf (o : Host.Outcome State Fault Refusal) : Option Fault :=
  match o with
  | .next _ => none
  | .fault f => some f
  | .refused _ => none

def refusalOf (o : Host.Outcome State Fault Refusal) : Option Refusal :=
  match o with
  | .next _ => none
  | .fault _ => none
  | .refused r => some r

def completes (o : Host.Outcome State Fault Refusal) : Bool := (after o fun _ => ()).isSome

theorem next_of_completes {o : Host.Outcome State Fault Refusal} (h : completes o = true) : ∃ t, o = .next t := by
  cases o with
  | next t => exact ⟨t, rfl⟩
  | fault f => cases h
  | refused r => cases h

/-- The default encoding (R101-R106). -/
abbrev enc0 : Encoding := Encoding.default

/-- Another encoding (R14): a count of 14 bits, other opcodes, the symbols and the lanes in another order. -/
def enc1 : Encoding where
  raw := 0x7#4
  rawRepeat := 0x2#4
  tmds := 0x9#4
  tmdsRepeat := 0x0#4
  nop := 0x5#4
  countWidth := 14
  ctrl00 := 0x0AB#10
  ctrl01 := 0x354#10
  ctrl10 := 0x2AB#10
  ctrl11 := 0x154#10
  lane0 := 22
  lane1 := 11
  lane2 := 0

/-- The parameters of 95_test_vectors.md for `P2`, and for `P1` with the asset as R11 gives it. -/
def cfg2 : Config := Config.launch
def cfg1 : Config := { Config.launch with fmt := .p1, assetH := 480 }

/-- The state just after start (70_reset_and_hazards.md section 2), with the turn given. -/
def live (cfg : Config) (a : Agent) : State :=
  { State.resetWith cfg [] with
    started := true, setup := .done, turn := a,
    ch0 := { src := cfg.romVblankBase, count := 7#32, cur := cfg.romVblankBase, remaining := 7#32,
             busy := true, armed := false }
    ch1 := { Channel.reset with src := cfg.romVblankBase, count := 7#32, armed := true }
    irq := { pending0 := false, pending1 := false, enable0 := true, enable1 := true } }

/-- A state in which the sink pops `w` in mode `m`. -/
def popping (cfg : Config) (m : SinkMode) (w : Word) : State :=
  { live cfg .sink with sink := { fifo := [w], mode := m, out := [] } }

/-- A state in which channel 0's completion is handled at position `(s, hp)`, channel 1 moving the header. -/
def handling (cfg : Config) (s : Word) (hp : Bool) : State :=
  { live cfg .controller with
    ctl := { scanline := s, headerPosted := hp, parity := false }
    ch0 := { Channel.reset with src := cfg.romVblankBase, count := 7#32 }
    ch1 := { src := cfg.romActiveBase, count := 9#32, cur := cfg.romActiveBase, remaining := 9#32,
             busy := true, armed := false }
    irq := { pending0 := true, pending1 := false, enable0 := true, enable1 := true } }

/-! ## Well-formed terms -/

theorem test_wf_cmdUpperBits :
    (Instr.cmdUpperBits 0x00001010#32).wf enc0 = false ∧ (Instr.cmdUpperBits 0x00011010#32).wf enc0 = true := by decide
theorem test_wf_ctlData :
    [0x354D5354#32, 0x354D50AB#32, 0x354D5154#32, 0x354D52AB#32].all (fun w => !(Instr.ctlData w).wf enc0) = true
      ∧ (Instr.ctlData 0xFFFFFFFF#32).wf enc0 = true := by decide
/-- A count of 4096 does not fit 12 bits (R103), and fits 14. -/
theorem test_wf_count :
    [Instr.raw 4096, .rawRepeat 4096, .tmds 4096, .tmdsRepeat 4096, .reserved47 0#2 4096, .reserved8B 0#2 4096,
        .reservedCD 0xC#4 4096, .reservedE 4096, .nop 4096].all (fun i => !i.wf enc0) = true
      ∧ (Instr.rawRepeat 4095).wf enc0 = true ∧ (Instr.rawRepeat 4096).wf enc1 = true := by decide
/-- A reserved opcode is not assigned and lies in its row: opcode 7 is `RAW` in the other encoding. -/
theorem test_wf_reserved :
    (Instr.reserved47 3#2 0).wf enc0 = true ∧ (Instr.reserved47 3#2 0).wf enc1 = false
      ∧ (Instr.reserved8B 1#2 0).wf enc0 = true ∧ (Instr.reserved8B 1#2 0).wf enc1 = false
      ∧ [0x0#4, 0x4#4, 0xB#4, 0xE#4, 0xF#4].all (fun op => !(Instr.reservedCD op 0).wf enc0) = true
      ∧ (Instr.reservedCD 0xD#4 0).wf enc0 = true ∧ (Instr.reservedE 0).wf enc0 = true
      ∧ (Instr.reservedE 0).wf { enc0 with nop := 0xE#4 } = false := by decide
/-- Two commands with one opcode, a count field too short for the ROM or too long for the word, one symbol twice. -/
theorem test_encoding_ok :
    enc0.ok = true ∧ enc1.ok = true ∧ ({ enc0 with nop := 0x1#4 } : Encoding).ok = false
      ∧ ({ enc0 with countWidth := 9 } : Encoding).ok = false ∧ ({ enc0 with countWidth := 29 } : Encoding).ok = false
      ∧ ({ enc0 with ctrl01 := 0x2AB#10 } : Encoding).ok = false := by decide

/-! ## Decoding: words written out from 30_encoding.md and 95_test_vectors.md section 2.4 -/

theorem test_decode_raw : decodeWord enc0 .cmd .p2 0x00000010#32 = .raw 16 := by decide
theorem test_decode_rawRepeat : decodeWord enc0 .cmd .p2 0x00001FFF#32 = .rawRepeat 4095 := by decide
theorem test_decode_tmds : decodeWord enc0 .cmd .p2 0x00002280#32 = .tmds 640 := by decide
theorem test_decode_tmdsRepeat : decodeWord enc0 .cmd .p2 0x00003010#32 = .tmdsRepeat 16 := by decide
theorem test_decode_reserved47 :
    decodeWord enc0 .cmd .p2 0x00004000#32 = .reserved47 0#2 0 ∧ decodeWord enc0 .cmd .p2 0x00007001#32 = .reserved47 3#2 1 := by
  decide
theorem test_decode_reserved8B :
    decodeWord enc0 .cmd .p2 0x00008001#32 = .reserved8B 0#2 1 ∧ decodeWord enc0 .cmd .p2 0x0000B000#32 = .reserved8B 3#2 0 := by
  decide
theorem test_decode_reservedCD :
    decodeWord enc0 .cmd .p2 0x0000C000#32 = .reservedCD 0xC#4 0
      ∧ decodeWord enc0 .cmd .p2 0x0000DFFF#32 = .reservedCD 0xD#4 4095 := by
  decide
theorem test_decode_reservedE : decodeWord enc0 .cmd .p2 0x0000E123#32 = .reservedE 0x123 := by decide
theorem test_decode_nop : decodeWord enc0 .cmd .p2 0x0000F000#32 = .nop 0 := by decide
theorem test_decode_cmdUpperBits : decodeWord enc0 .cmd .p2 0x00011010#32 = .cmdUpperBits 0x00011010#32 := by decide
theorem test_decode_sync :
    decodeWord enc0 (.rawData 16) .p2 0x354D5354#32 = .syncV0H0 ∧ decodeWord enc0 (.rawData 16) .p2 0x354D50AB#32 = .syncV0H1
      ∧ decodeWord enc0 (.rawData 16) .p2 0x354D5154#32 = .syncV1H0
      ∧ decodeWord enc0 (.rawData 16) .p2 0x354D52AB#32 = .syncV1H1 := by decide
theorem test_decode_ctlData : decodeWord enc0 (.rawData 16) .p2 0x00001010#32 = .ctlData 0x00001010#32 := by decide
theorem test_decode_pixelWordP1 :
    decodeWord enc0 (.pixData 640) .p1 0x44332211#32 = .pixelWordP1 0x44#8 0x33#8 0x22#8 0x11#8 := by decide
theorem test_decode_pixelWordP2 :
    decodeWord enc0 (.pixData 640) .p2 0x07E0F800#32 = .pixelWordP2 0x07E0#16 0xF800#16 := by decide
/-- The same commands in the other encoding: the opcode above 14 count bits, and the zeros above that (R14, R101). -/
theorem test_decode_other_encoding :
    decodeWord enc1 .cmd .p2 0x00008010#32 = .rawRepeat 16 ∧ decodeWord enc1 .cmd .p2 0x00014000#32 = .nop 0
      ∧ decodeWord enc1 .cmd .p2 0x00024280#32 = .tmds 640 ∧ decodeWord enc1 .cmd .p2 0x00004001#32 = .reservedCD 0x1#4 1
      ∧ decodeWord enc1 .cmd .p2 0x00040000#32 = .cmdUpperBits 0x00040000#32 := by decide
/-- Bytes lowest address first (R74); a string shorter than a word is refused. -/
theorem test_decode_bytes :
    (decodeBytes enc0 .cmd .p2 [0x10#8, 0x10#8, 0x00#8, 0x00#8, 0xAB#8]).toOption = some (.rawRepeat 16, [0xAB#8])
      ∧ (decodeBytes enc0 .cmd .p2 [0x10#8, 0x10#8, 0x00#8]).toOption = none := by decide
/-- The encodings of 95_test_vectors.md section 2.5. -/
theorem test_encode :
    encode enc0 .syncV0H0 = some 0x354D5354#32 ∧ encode enc0 .syncV0H1 = some 0x354D50AB#32
      ∧ encode enc0 .syncV1H0 = some 0x354D5154#32 ∧ encode enc0 .syncV1H1 = some 0x354D52AB#32
      ∧ encode enc0 (.rawRepeat 688) = some 0x000012B0#32 ∧ encode enc0 (.tmds 640) = some 0x00002280#32
      ∧ encode enc0 (.opVsync .ch0) = none := by decide
/-- The assembler on program A (95 section 3.1) and on the two `HOLD` lines of section 2.5. -/
theorem test_assemble :
    assemble enc0 false false [.rawRepeat 16, .sync true true, .rawRepeat 96, .sync true false, .rawRepeat 688,
        .sync true true, .nop] = romVblank cfg2
      ∧ assemble enc0 false false [.hold 96 true true, .hold 688 false false]
          = [0x00001060#32, 0x354D5354#32, 0x000012B0#32, 0x354D52AB#32]
      ∧ assemble enc0 false false [.tmds 640, .word 0x07E0F800#32, .raw 1, .tmdsRepeat 2]
          = [0x00002280#32, 0x07E0F800#32, 0x00000001#32, 0x00003002#32] := by decide

/-! ## The host's table words: decoding and running them as the first step -/

theorem test_table_words :
    decodeTableWord 32 0x00001010 = some (.rawRepeat 16) ∧ decodeTableWord 32 0x354D5354 = some .syncV0H0
      ∧ decodeTableWord 2 0 = some (.opVsync .ch0) ∧ decodeTableWord 2 3 = some (.opPix .ch0) := by decide
theorem test_fetch_word :
    after (step (State.reset.withFetchWord 32 0x00001010)) (fun t => t.sink.mode) = some (.rawData 16)
      ∧ after (step (State.reset.withFetchWord 32 0x354D5354)) (fun t => t.sink.out) = some [.ctl 0x354D5354#32] := by
  decide
theorem test_fetch_operation :
    after (step (State.reset.withFetchWord 2 0)) (fun t => (t.ch0.src, t.ctl.scanline)) = some (0x1000#32, 11#32)
      ∧ after (step (State.reset.withFetchWord 2 3)) (fun t => (t.ch0.src, t.ctl.scanline)) = some (0x10000#32, 46#32) := by
  decide

/-! ## The sink (95 section 2.4) -/

/-- V-S1 and V-S4. -/
theorem test_rawRepeat :
    after (step (popping cfg2 .cmd 0x00001010#32)) (fun t => t.sink.mode) = some (.rawData 16)
      ∧ after (step (popping cfg2 .cmd 0x00001FFF#32)) (fun t => t.sink.mode) = some (.rawData 4095) := by decide
/-- V-S5, V-S17 under `P2`. -/
theorem test_tmds :
    after (step (popping cfg2 .cmd 0x00002280#32)) (fun t => t.sink.mode) = some (.pixData 640)
      ∧ after (step (popping cfg2 .cmd 0x00002282#32)) (fun t => t.sink.mode) = some (.pixData 642) := by decide
/-- V-S9. -/
theorem test_nop : after (step (popping cfg2 .cmd 0x0000F000#32)) (fun t => t.sink) = some ⟨[], .cmd, []⟩ := by decide
/-- V-S10 to V-S17: the refusals. -/
theorem test_refusals :
    refusalOf (step (popping cfg2 .cmd 0x0000F001#32)) = some .nopNonzeroCount
      ∧ refusalOf (step (popping cfg2 .cmd 0x00000010#32)) = some .rawNotModelled
      ∧ refusalOf (step (popping cfg2 .cmd 0x00003010#32)) = some .tmdsRepeatNotModelled
      ∧ refusalOf (step (popping cfg2 .cmd 0x00004000#32)) = some .reservedCmd
      ∧ refusalOf (step (popping cfg2 .cmd 0x0000E123#32)) = some .reservedCmd
      ∧ refusalOf (step (popping cfg2 .cmd 0x00011010#32)) = some .cmdUpperBits
      ∧ refusalOf (step (popping cfg2 .cmd 0x00001000#32)) = some .zeroCountCmd
      ∧ refusalOf (step (popping cfg2 .cmd 0x00002000#32)) = some .zeroCountCmd
      ∧ refusalOf (step (popping cfg2 .cmd 0x00002281#32)) = some .tmdsPartialWord
      ∧ refusalOf (step (popping cfg1 .cmd 0x00002282#32)) = some .tmdsPartialWord := by decide
/-- V-S2 and V-S3. -/
theorem test_hold :
    after (step (popping cfg2 (.rawData 16) 0x354D52AB#32)) (fun t => t.sink)
        = some ⟨[], .cmd, List.replicate 16 (.ctl 0x354D52AB#32)⟩
      ∧ after (step (popping cfg2 (.rawData 16) 0xFFFFFFFF#32)) (fun t => t.sink)
        = some ⟨[], .cmd, List.replicate 16 (.ctl 0xFFFFFFFF#32)⟩ := by decide
/-- V-S6 and V-S8. -/
theorem test_pixelWordP1 :
    after (step (popping cfg1 (.pixData 640) 0x44332211#32)) (fun t => t.sink)
        = some ⟨[], .pixData 636, [.px8 0x11#8, .px8 0x22#8, .px8 0x33#8, .px8 0x44#8]⟩
      ∧ after (step (popping cfg1 (.pixData 4) 0#32)) (fun t => t.sink.mode) = some .cmd := by decide
/-- V-S7. -/
theorem test_pixelWordP2 :
    after (step (popping cfg2 (.pixData 640) 0x07E0F800#32)) (fun t => t.sink)
      = some ⟨[], .pixData 638, [.px16 0xF800#16, .px16 0x07E0#16]⟩ := by decide

/-- The other encoding in the sink: a hold, and a level pair `(1, 0)` in lane 0 at bit 22 (R14). -/
theorem test_other_encoding :
    after (step (popping { cfg2 with enc := enc1 } .cmd 0x00008010#32)) (fun t => t.sink.mode) = some (.rawData 16)
      ∧ refusalOf (step (popping { cfg2 with enc := enc1 } .cmd 0x00001010#32)) = some .tmdsRepeatNotModelled
      ∧ (romVblank { cfg2 with enc := enc1 }).head? = some 0x00008010#32
      ∧ decodeWord enc1 (.rawData 1) .p2 0xAAC558AB#32 = .syncV1H0 := by decide

/-! ## The controller (95 sections 2.1 and 2.2) -/

/-- V-H1. -/
theorem test_opVblank :
    after (step (handling cfg2 2#32 false)) (fun t => (t.ch0.src, t.ch0.count, t.ch0.armed, t.ctl, t.irq.pending0))
      = some (0x1100#32, 7#32, true, ⟨3#32, false, true⟩, false) := by decide
/-- V-H2, on channel 0. -/
theorem test_opVsync :
    after (step (handling cfg2 10#32 false)) (fun t => (t.ch0.src, t.ch0.count, t.ch0.armed, t.ctl))
      = some (0x1000#32, 7#32, true, ⟨11#32, false, true⟩) := by decide
/-- V-H3. -/
theorem test_opHdr :
    after (step (handling cfg2 45#32 false)) (fun t => (t.ch0.src, t.ch0.count, t.ch0.armed, t.ctl))
      = some (0x1200#32, 9#32, true, ⟨45#32, true, true⟩) := by decide
/-- V-H4 and V-H6, on channel 0. -/
theorem test_opPix_p2 :
    after (step (handling cfg2 45#32 true)) (fun t => (t.ch0.src, t.ch0.count, t.ctl))
        = some (0x10000#32, 320#32, ⟨46#32, false, true⟩)
      ∧ after (step (handling cfg2 46#32 true)) (fun t => (t.ch0.src, t.ctl.scanline))
        = some (0x10000#32 + 1280#32, 47#32) := by decide
/-- V-H7, V-H8, V-H9: asset rows 0, 239, 239 and the wrap. -/
theorem test_opPix_rows :
    after (step (handling cfg2 285#32 true)) (fun t => t.ch0.src) = some 0x10000#32
      ∧ after (step (handling { cfg2 with dupMode := .mirror } 285#32 true)) (fun t => t.ch0.src)
        = some (0x10000#32 + 305920#32)
      ∧ after (step (handling cfg2 284#32 true)) (fun t => (t.ch0.src, t.ctl.scanline))
        = some (0x10000#32 + 305920#32, 285#32)
      ∧ after (step (handling cfg2 524#32 true)) (fun t => (t.ch0.src, t.ctl.scanline))
        = some (0x10000#32 + 305920#32, 0#32) := by decide
/-- V-F1, V-F2, V-F3, V-F4, V-F6. -/
theorem test_controller_faults :
    faultOf (step { handling cfg2 2#32 false with irq := ⟨false, true, true, true⟩ })
        = some (.parityDesync false false true)
      ∧ faultOf (step { handling cfg2 2#32 false with ch0 := { Channel.reset with busy := true } })
        = some (.busyReprogram .ch0)
      ∧ faultOf (step (handling { cfg2 with assetH := 200 } 445#32 true)) = some (.rowRange 400)
      ∧ after (step (handling { cfg2 with assetH := 200 } 444#32 true)) (fun t => t.ch0.src)
        = some (0x10000#32 + 254720#32)
      ∧ (program .ch0 0x1100#32 0#32 (handling cfg2 2#32 false)).outcome = .fault (.zeroCount .ch0) := by
  refine ⟨by decide, by decide, by decide, by decide, rfl⟩
/-- V-F5: channel 1 busy inside the scratch buffer. -/
def racing : State :=
  { handling cfg1 45#32 true with
    ch1 := { Channel.reset with cur := cfg1.scratchBase + 600#32, remaining := 10#32, busy := true } }
theorem test_scratch_race : faultOf (step racing) = some (.scratchRace .ch1) := by decide
/-- V-F2 as R18 and R271 hold it: the writes of the acknowledge and the toggle stay. -/
theorem test_marked_state :
    (nextMarked { handling cfg2 2#32 false with ch0 := { Channel.reset with busy := true } }).irq.pending0 = false
      ∧ (nextMarked { handling cfg2 2#32 false with ch0 := { Channel.reset with busy := true } }).ctl.parity = true := by
  decide

/-! ## The channels (95 section 2.3) -/

/-- V-C4: the transfer of the first word of the `VBLANK` sequence. -/
theorem test_transfer :
    after (step (live cfg2 (.channel .ch0))) (fun t => (t.sink.fifo, t.ch0.cur, t.ch0.remaining))
      = some ([0x00001010#32], 0x1104#32, 6#32) := by decide
/-- V-C1 (through `Start` and V-C6), V-C2, V-C3. -/
def completing (ch1 : Channel) : State :=
  { live cfg2 (.channel .ch0) with
    ch0 := { src := 0x1100#32, count := 7#32, cur := 0x111C#32, remaining := 0#32, busy := true, armed := false }
    ch1 := ch1 }
theorem test_complete_chains :
    after (step (completing { Channel.reset with src := 0x1100#32, count := 7#32, armed := true }))
        (fun t => (t.ch0.busy, t.irq.pending0, t.ch1.busy, t.ch1.cur, t.ch1.remaining, t.ch1.armed))
      = some (false, true, true, 0x1100#32, 7#32, false) := by decide
theorem test_complete_underrun : faultOf (step (completing Channel.reset)) = some (.underrun .ch1) := by decide
theorem test_complete_chain_busy :
    faultOf (step (completing { Channel.reset with busy := true })) = some (.chainBusy .ch1) := by decide
/-- V-C5, V-C7, V-C8. -/
def reading (cfg : Config) (a : Word) : State :=
  { live cfg (.channel .ch0) with
    ch0 := { src := a, count := 7#32, cur := a, remaining := 7#32, busy := true, armed := false } }
theorem test_transfer_stops :
    enabled { live cfg2 (.channel .ch0) with sink := ⟨List.replicate 8 0#32, .cmd, []⟩ } (.channel .ch0) = false
      ∧ faultOf (step (reading cfg2 0x1102#32)) = some (.misaligned .ch0 0x1102#32)
      ∧ faultOf (step (reading cfg1 cfg1.scratchBase)) = some (.unwrittenRead (.channel .ch0) cfg1.scratchBase)
      ∧ enabled (reading cfg2 0x2000#32) (.channel .ch0) = false := by decide

/-! ## Numbers and colours -/

/-- 95 section 2.6 and E1. -/
theorem test_totals :
    Config.hTotal = 800 ∧ Config.vTotal = 525 ∧ Config.vActiveStart = 45 ∧ frameSteps = 1005
      ∧ rowWords cfg1 = 160 ∧ rowWords cfg2 = 320 ∧ blankLength cfg2 = 7 ∧ activeLength = 9 := by decide
/-- E5. -/
theorem test_colours :
    pack1 0x80#8 0x40#8 0x20#8 = 0x91#8 ∧ unpack1 0x91#8 = (2#2, 2#3, 1#3)
      ∧ pack2 0x80#8 0x40#8 0x20#8 = 0x8204#16 ∧ pack1 0x12#8 0x34#8 0x56#8 = 0x0A#8
      ∧ pack2 0x12#8 0x34#8 0x56#8 = 0x11AA#16 ∧ unpack2 0x11AA#16 = (2#5, 13#6, 10#5) := by decide
/-- The lanes of a control word (R104, R107): vsync and hsync levels in lane 0, `CTRL_00` in the others. -/
theorem test_lanes :
    laneOf ((Symbol.ctl 0x354D52AB#32).lanes enc0) 0 = 0x2AB#10 ∧ laneOf ((Symbol.ctl 0x354D52AB#32).lanes enc0) 1 = 0x354#10
      ∧ laneOf ((Symbol.ctl 0x354D52AB#32).lanes enc0) 2 = 0x354#10 := by decide
/-- A write keeps the bytes in rising order and replaces the old one (the canonical form, log entry 6). -/
theorem test_memory_form :
    Memory.wf cfg1 [(0x80000, 1#8), (0x80002, 2#8)] = true
      ∧ writeByte 0x80001 7#8 [(0x80000, 1#8), (0x80002, 2#8)] = [(0x80000, 1#8), (0x80001, 7#8), (0x80002, 2#8)]
      ∧ writeByte 0x80002 7#8 [(0x80000, 1#8), (0x80002, 2#8)] = [(0x80000, 1#8), (0x80002, 7#8)]
      ∧ Memory.wf cfg1 [(0x1000, 1#8)] = false ∧ Memory.wf cfg1 [(0x80002, 2#8), (0x80000, 1#8)] = false := by decide

/-! ## Witnesses: for every obligation with hypotheses, an input that meets them, at the boundaries of each clause -/

theorem witness_DecodeOfEncode :
    enc0.ok = true ∧ enc1.ok = true
      ∧ ((Instr.tmds 16383).wf enc1 = true ∧ encode enc1 (.tmds 16383) = some 0x00027FFF#32
        ∧ (Instr.tmds 16383).kind.readIn .cmd .p2 = true)
      ∧ ((Instr.tmds 0).wf enc0 = true ∧ encode enc0 (.tmds 0) = some 0x00002000#32
        ∧ (Instr.tmds 0).kind.readIn .cmd .p2 = true)
      ∧ ((Instr.cmdUpperBits 0x00010000#32).wf enc0 = true
        ∧ (Instr.cmdUpperBits 0x00010000#32).kind.readIn .cmd .p1 = true)
      ∧ ((Instr.ctlData 0#32).wf enc0 = true ∧ encode enc0 (.ctlData 0#32) = some 0#32
        ∧ (Instr.ctlData 0#32).kind.readIn (.rawData 1) .p2 = true)
      ∧ (encode enc0 (.pixelWordP1 4#8 3#8 2#8 1#8) = some 0x04030201#32
        ∧ (Instr.pixelWordP1 4#8 3#8 2#8 1#8).kind.readIn (.pixData 4) .p1 = true)
      ∧ (encode enc0 (.pixelWordP2 2#16 1#16) = some 0x00020001#32
        ∧ (Instr.pixelWordP2 2#16 1#16).kind.readIn (.pixData 2) .p2 = true) := by decide

theorem witness_RomSequenceWords :
    cfg2.enc = Encoding.default ∧ cfg2.hPol = false ∧ cfg2.vPol = false ∧ cfg2.blankPad = 1 := by decide

theorem witness_RomReadsItsWords :
    placementOk cfg1 = true ∧ placementOk cfg2 = true
      ∧ (romVsync cfg2)[0]? = some 0x00001010#32 ∧ (romVsync cfg2)[6]? = some 0x0000F000#32
      ∧ (romVblank cfg1)[5]? = some 0x354D52AB#32
      ∧ (romActive cfg2)[0]? = some 0x00001010#32 ∧ (romActive cfg2)[8]? = some 0x00002280#32 := by decide

theorem witness_ClassifyByIndex :
    classify 9#32 false = .vblank ∧ classify 10#32 false = .vsync ∧ classify 11#32 true = .vsync
      ∧ classify 12#32 false = .vblank ∧ classify 44#32 true = .vblank ∧ classify 45#32 false = .hdr
      ∧ classify 45#32 true = .pix ∧ classify 0xFFFFFFFF#32 true = .pix := by decide

theorem witness_SchedulePeriodic :
    validPosition (0#32, false) = true ∧ validPosition (45#32, true) = true ∧ validPosition (524#32, true) = true := by
  decide

theorem witness_TwoInvocationsPerActiveLine :
    (45 ≤ (45#32).toNat ∧ (45#32).toNat < 525) ∧ (45 ≤ (524#32).toNat ∧ (524#32).toNat < 525)
      ∧ positionAfter 2 (524#32, false) = (0#32, false) := by decide

theorem witness_HandlerFollowsSchedule :
    mover (handling cfg2 10#32 false) = some .controller ∧ ∃ t, step (handling cfg2 10#32 false) = .next t :=
  ⟨by decide, next_of_completes (by decide)⟩

theorem witness_AdvanceUnlessHeaderPosted :
    (handling cfg2 45#32 true).ctl.headerPosted = true ∧ (handling cfg2 524#32 false).ctl.headerPosted = false
      ∧ (advance (handling cfg2 524#32 false)).ctl.scanline = 0#32 := by decide

theorem witness_ProgramWritesDescriptor :
    ((live cfg2 .sink).chan .ch0).busy = true ∧ ((live cfg2 .sink).chan .ch1).busy = false ∧ (1#32 : Word) ≠ 0#32 := by
  decide

theorem witness_OpVsyncProgramsVsync :
    blankLength cfg2 < 2 ^ 32 ∧ ((handling cfg2 10#32 false).chan .ch0).busy = false
      ∧ ((handling cfg2 11#32 true).chan .ch1).busy = true
      ∧ selectedOp (handling cfg2 11#32 true) .ch1 = .opVsync .ch1 := by decide

theorem witness_OpVblankProgramsVblank :
    blankLength cfg2 < 2 ^ 32 ∧ ((handling cfg2 44#32 false).chan .ch0).busy = false
      ∧ ((handling cfg2 0#32 false).chan .ch1).busy = true
      ∧ selectedOp (handling cfg2 44#32 true) .ch0 = .opVblank .ch0 := by decide

theorem witness_OpHdrPostsHeader :
    ((handling cfg2 45#32 false).chan .ch0).busy = false ∧ ((handling cfg2 45#32 false).chan .ch1).busy = true
      ∧ selectedOp (handling cfg2 45#32 false) .ch0 = .opHdr .ch0 := by decide

theorem witness_OpPixP2ReadsAsset :
    (handling cfg2 524#32 true).cfg.fmt = .p2 ∧ (524#32 : Word).toNat = 45 + 479
      ∧ (45#32 : Word).toNat = 45 + 0 ∧ rowMap cfg2 479 = some 239 ∧ rowMap cfg2 0 = some 0
      ∧ ((handling cfg2 524#32 true).chan .ch0).busy = false ∧ ((handling cfg2 524#32 true).chan .ch1).busy = true := by
  decide

/-- `s` with both channels moving nothing, so neither has scratch bytes left to read. -/
def resting (s : State) : State :=
  { s with ch0 := { s.ch0 with remaining := 0#32 }, ch1 := { s.ch1 with remaining := 0#32 } }
theorem resting_reads_nothing (s : State) (k : Chan) : ¬ stillReadsScratch (resting s) k := by
  rintro ⟨-, i, j, h, -⟩
  cases k <;> exact absurd h (Nat.not_lt_zero i)

/-- Row 479 of an asset of 4 bytes a row, which ends where the scratch buffer begins: the row is the asset's last 4 bytes,
the only ones written, and 636 bytes of the buffer. -/
def sliding : State :=
  { resting (handling { cfg1 with assetW := 4, scratchBase := 0x10780#32, assetWritten := false } 524#32 true) with
    mem := [(0x1077C, 1#8), (0x1077D, 2#8), (0x1077E, 3#8), (0x1077F, 4#8)] }
/-- The first 8 bytes of R148's loop in order: the 4 bytes are copied on into the buffer, which nothing had written. -/
theorem test_copy_in_order :
    after (copyBytes sliding (rowByteAddr sliding.cfg 479 0) sliding.cfg.scratchBase 8 sliding.mem).outcome State.mem
      = some (sliding.mem ++ [(0x10780, 1#8), (0x10781, 2#8), (0x10782, 3#8), (0x10783, 4#8),
          (0x10784, 1#8), (0x10785, 2#8), (0x10786, 3#8), (0x10787, 4#8)]) := by decide

theorem witness_OpPixP1CopiesRow :
    ((resting (handling cfg1 524#32 true)).cfg.fmt = .p1 ∧ placementOk cfg1 = true
        ∧ ((resting (handling cfg1 524#32 true)).chan .ch0).busy = false
        ∧ (524#32 : Word).toNat = 45 + 479 ∧ rowMap cfg1 479 = some 479
        ∧ (∀ k, ¬ stillReadsScratch (resting (handling cfg1 524#32 true)) k)
        ∧ ∀ j, j < 640 → rowByteWritten (resting (handling cfg1 524#32 true)) 479 j)
      ∧ (sliding.cfg.fmt = .p1 ∧ placementOk sliding.cfg = true ∧ (sliding.chan .ch0).busy = false
        ∧ sliding.ctl.scanline.toNat = 45 + 479 ∧ rowMap sliding.cfg 479 = some 479
        ∧ (∀ k, ¬ stillReadsScratch sliding k)
        ∧ (∀ j, j < 4 → ¬ copiedBefore sliding.cfg 479 j)
        ∧ ∀ j, j < 640 → rowByteWritten sliding 479 j) := by
  refine ⟨⟨by decide, by decide, by decide, by decide, by decide, resting_reads_nothing _, fun j hj => .inl ?_⟩,
    by decide, by decide, by decide, by decide, by decide, resting_reads_nothing sliding, ?_, fun j hj => ?_⟩
  · exact (by decide +kernel : ∀ j, j < 640 → (readByte cfg1 [] (rowByteAddr cfg1 479 j).toNat).isSome = true) j hj
  · rintro j hj ⟨i, hi, e⟩
    exact (by decide : ∀ j, j < 4 → ∀ i, i < j →
      rowByteAddr sliding.cfg 479 j ≠ sliding.cfg.scratchBase + BitVec.ofNat 32 i) j hj i hi e
  · by_cases h : j < 4
    · exact .inl ((by decide : ∀ j, j < 4 → (readByte sliding.cfg sliding.mem
        (rowByteAddr sliding.cfg 479 j).toNat).isSome = true) j h)
    · exact .inr ⟨j - 4, by omega, (by decide +kernel : ∀ j, j < 640 → 4 ≤ j →
        rowByteAddr sliding.cfg 479 j = sliding.cfg.scratchBase + BitVec.ofNat 32 (j - 4)) j hj (by omega)⟩

theorem witness_RowMapRule :
    rowMap { cfg2 with assetH := 200 } 400 = none ∧ rowMap cfg2 239 = some 239 ∧ rowMap cfg2 240 = some 0
      ∧ rowMap cfg2 479 = some 239 ∧ rowMap { cfg2 with dupMode := .mirror } 240 = some 239
      ∧ rowMap { cfg2 with dupMode := .mirror } 479 = some 0 ∧ rowMap cfg1 479 = some 479
      ∧ (handling { cfg2 with assetH := 200 } 445#32 true).ctl.scanline.toNat = 45 + 400 := by decide

/-- `P1` with an asset of which the launch wrote nothing. -/
def unwrittenAsset : State := resting (handling { cfg1 with assetWritten := false } 45#32 true)
/-- `P1` with the scratch buffer running, from its byte 512 on, into the `VSYNC` sequence, or into the asset. -/
def scratchInRom : State := resting (handling { cfg1 with scratchBase := 0xE00#32 } 45#32 true)
def scratchInAsset : State := resting (handling { cfg1 with scratchBase := 0xFE00#32 } 45#32 true)
/-- The last byte of the buffer still to be read by the other channel, and the first by this one. -/
theorem witness_OpPixP1Stops_race :
    racing.cfg.fmt = .p1 ∧ racing.ctl.scanline.toNat = 45 + 0 ∧ rowMap racing.cfg 0 = some 0
      ∧ stillReadsScratch racing .ch1
      ∧ stillReadsScratch { racing with ch0 := { racing.ch0 with
          cur := cfg1.scratchBase - 4#32, remaining := 2#32, busy := true } } .ch0 :=
  ⟨rfl, by decide, by decide, ⟨rfl, 39, 639, by decide, by decide, by decide⟩, ⟨rfl, 4, 0, by decide, by decide, by decide⟩⟩
/-- Every byte of a row of a written asset is written. -/
theorem written_row {s : State} {a : Nat}
    (h : ∀ j, j < 640 → (readByte s.cfg s.mem (rowByteAddr s.cfg a j).toNat).isSome = true) (n : Nat) (hn : n < 640) :
    ∀ j, j ≤ n → rowByteWritten s a j := fun j hj => .inl (h j (by omega))
/-- The buffer's first byte in another region is its byte 512, in the ROM and in the asset. -/
theorem witness_OpPixP1Stops :
    (512 < 640 ∧ scratchInRom.cfg.scratchBase.toNat + 640 ≤ 2 ^ 32 ∧ (∀ j, j ≤ 512 → rowByteWritten scratchInRom 0 j)
        ∧ (∀ j, j < 512 → ∀ q ∈ regions scratchInRom.cfg, q.kind ≠ .scratch →
          ¬ (q.base ≤ scratchInRom.cfg.scratchBase.toNat + j
            ∧ scratchInRom.cfg.scratchBase.toNat + j < q.base + q.size))
        ∧ (⟨.romVsync, 0x1000, 28⟩ : Region) ∈ regions scratchInRom.cfg
        ∧ (∀ j, j < 512 → writeRefusal scratchInRom.cfg (scratchInRom.cfg.scratchBase + BitVec.ofNat 32 j) = none)
        ∧ writeRefusal scratchInRom.cfg (scratchInRom.cfg.scratchBase + BitVec.ofNat 32 512) = some .romWrite)
      ∧ ((∀ j, j ≤ 512 → rowByteWritten scratchInAsset 0 j)
        ∧ (∀ j, j < 512 → ∀ q ∈ regions scratchInAsset.cfg, q.kind ≠ .scratch →
          ¬ (q.base ≤ scratchInAsset.cfg.scratchBase.toNat + j
            ∧ scratchInAsset.cfg.scratchBase.toNat + j < q.base + q.size))
        ∧ (⟨.asset, 0x10000, 307200⟩ : Region) ∈ regions scratchInAsset.cfg
        ∧ (∀ q ∈ regions scratchInAsset.cfg, q.kind = .romVsync ∨ q.kind = .romVblank ∨ q.kind = .romActive →
          ¬ (q.base ≤ 0xFE00 + 512 ∧ 0xFE00 + 512 < q.base + q.size)))
      ∧ ((resting (handling cfg1 45#32 true)).chan .ch1).busy = true := by
  refine ⟨⟨by decide, by decide, written_row (by decide +kernel) 512 (by decide), ?_⟩,
    ⟨written_row (by decide +kernel) 512 (by decide), ?_⟩, by decide⟩ <;> decide +kernel
/-- An unwritten byte of the row: its first and its last, the scratch buffer writable before it. -/
theorem witness_OpPixP1Stops_unwritten :
    placementOk unwrittenAsset.cfg = true ∧ (∀ k, ¬ stillReadsScratch unwrittenAsset k)
      ∧ ¬ rowByteWritten unwrittenAsset 0 0 ∧ ¬ rowByteWritten unwrittenAsset 0 639
      ∧ (∀ j, j < 639 →
          writeRefusal unwrittenAsset.cfg (unwrittenAsset.cfg.scratchBase + BitVec.ofNat 32 j) = none) := by
  refine ⟨by decide, resting_reads_nothing _, ?_, ?_, by decide +kernel⟩
  · rintro (h | ⟨i, hi, -⟩)
    · exact absurd h (by decide)
    · exact absurd hi (Nat.not_lt_zero i)
  · rintro (h | ⟨i, hi, e⟩)
    · exact absurd h (by decide)
    · exact (by decide +kernel : ∀ i, i < 639 →
        rowByteAddr unwrittenAsset.cfg 0 639 ≠ unwrittenAsset.cfg.scratchBase + BitVec.ofNat 32 i) i hi e
theorem test_scratch_in_rom :
    refusalOf (step scratchInRom) = some .romWrite ∧ refusalOf (step scratchInAsset) = some .assetWrite := by
  decide +kernel

theorem witness_CommandsInModeCmd :
    (popping cfg2 .cmd 0#32).sink.mode = .cmd ∧ cfg2.enc = Encoding.default ∧ 1 ≠ 0
      ∧ 2 % ppw cfg2 = 0 ∧ 1 % ppw cfg2 ≠ 0 ∧ 4 % ppw cfg1 = 0 ∧ 2 % ppw cfg1 ≠ 0 := by decide

theorem witness_UndescribedCommandsRefused :
    (0x00010000#32 : Word).extractLsb' 16 16 ≠ 0#16 ∧ 4 ≤ (0x4#4).toNat ∧ (0xE#4).toNat ≤ 14 := by decide

theorem witness_WordsRefusedOutsideTheirMode :
    (handling cfg2 44#32 true).ctl.scanline.toNat < 45 ∧ 2 * cfg2.assetH ≤ 44 + (2 ^ 32 - 45)
      ∧ (Instr.nop 0).kind ≠ .operation ∧ (Instr.nop 0).kind.readIn (.rawData 1) .p2 = false
      ∧ (Instr.pixelWordP1 0#8 0#8 0#8 0#8).kind.readIn (.pixData 4) .p2 = false
      ∧ (Instr.syncV1H1).kind.readIn .cmd .p2 = false
      ∧ 3 < ppw cfg1 ∧ (Instr.pixelWordP1 0#8 0#8 0#8 0#8).kind = .pixel cfg1.fmt
      ∧ 1 < ppw cfg2 ∧ (Instr.pixelWordP2 0#16 0#16).kind = .pixel cfg2.fmt := by decide

theorem witness_HoldEmitsControlWord :
    (popping cfg2 (.rawData 1) 0#32).sink.mode = .rawData 1 ∧ cfg2.enc = Encoding.default := by
  decide

theorem witness_PixelWordStreamsPixels :
    (popping cfg1 (.pixData 4) 0#32).sink.mode = .pixData 4 ∧ ppw cfg1 = 4 ∧ cfg1.fmt = .p1
      ∧ (popping cfg2 (.pixData 4095) 0#32).sink.mode = .pixData 4095 ∧ ppw cfg2 = 2 ∧ cfg2.fmt = .p2 := by decide

theorem witness_SinkAdmitsExactly :
    (popping cfg2 .cmd 0#32).sink.mode = .cmd
      ∧ admitted cfg2 (decodeWord enc0 .cmd .p2 0x00001001#32) = true
      ∧ admitted cfg2 (decodeWord enc0 .cmd .p2 0x00001000#32) = false
      ∧ upperField enc1 0x00004001#32 = 0 ∧ reservedOpcode enc1 (opcodeField enc1 0x00004001#32) = true
      ∧ upperField enc1 0x00040000#32 ≠ 0 := by decide

/-- A sink about to run the given words. -/
def feeding (cfg : Config) (ws : List Word) : State := { live cfg .sink with sink := { fifo := ws, mode := .cmd, out := [] } }

theorem witness_BlankingLineEmits800 :
    enc0.ok = true ∧ (feeding cfg2 (romVsync cfg2)).cfg.enc = enc0 ∧ (feeding cfg2 (romVsync cfg2)).sink.mode = .cmd
      ∧ (feeding cfg2 (romVsync cfg2)).sink.fifo = blankSequence cfg2 true ++ [] := by decide

theorem witness_ActiveLineEmits800 :
    enc0.ok = true ∧ cfg1.enc = enc0 ∧ (List.replicate 160 (0x44332211#32 : Word)).length = rowWords cfg1
      ∧ (feeding cfg1 (romActive cfg1 ++ List.replicate 160 0x44332211#32 ++ [])).sink.mode = .cmd
      ∧ (feeding cfg1 (romActive cfg1 ++ List.replicate 160 0x44332211#32 ++ [])).sink.fifo
        = romActive cfg1 ++ List.replicate 160 0x44332211#32 ++ [] :=
  ⟨by decide, rfl, by rw [List.length_replicate]; decide, rfl, rfl⟩

theorem witness_CommandFrame :
    (∃ t, exec (.rawRepeat 1) (popping cfg2 .cmd 0#32) = .next t)
      ∧ (∃ t, exec (.tmds 2) (popping cfg2 .cmd 0#32) = .next t)
      ∧ (∃ t, exec (.nop 0) (popping cfg2 .cmd 0#32) = .next t) :=
  ⟨next_of_completes (by decide), next_of_completes (by decide), next_of_completes (by decide)⟩

theorem witness_DataWordFrame :
    (Instr.syncV0H0.kind = .controlData ∧ ∃ t, exec .syncV0H0 (popping cfg2 (.rawData 1) 0#32) = .next t)
      ∧ (∃ t, exec (.ctlData 0#32) (popping cfg2 (.rawData 1) 0#32) = .next t)
      ∧ (∃ t, exec (.pixelWordP1 0#8 0#8 0#8 0#8) (popping cfg1 (.pixData 4) 0#32) = .next t)
      ∧ (∃ t, exec (.pixelWordP2 0#16 0#16) (popping cfg2 (.pixData 2) 0#32) = .next t) :=
  ⟨⟨by decide, next_of_completes (by decide)⟩, next_of_completes (by decide), next_of_completes (by decide),
    next_of_completes (by decide)⟩

/-- The last clause copies row 0 of a `P1` asset into the scratch buffer. -/
theorem witness_OperationFrame :
    (∃ t, exec (.opVsync .ch0) (handling cfg2 10#32 false) = .next t)
      ∧ (∃ t, exec (.opVblank .ch0) (handling cfg2 0#32 false) = .next t)
      ∧ (∃ t, exec (.opHdr .ch0) (handling cfg2 45#32 false) = .next t)
      ∧ (∃ t, exec (.opPix .ch0) (handling cfg2 45#32 true) = .next t)
      ∧ (∃ t, exec (.opPix .ch0) (handling cfg1 45#32 true) = .next t) :=
  ⟨next_of_completes (by decide), next_of_completes (by decide), next_of_completes (by decide),
    next_of_completes (by decide), next_of_completes (by decide +kernel)⟩

theorem witness_StepRunsDecodedWord :
    unmarked (popping cfg2 .cmd 0x00001010#32) = true ∧ mover (popping cfg2 .cmd 0x00001010#32) = some .sink
      ∧ (popping cfg2 .cmd 0x00001010#32).sink.fifo = [0x00001010#32]
      ∧ decodeBytes enc0 .cmd .p2 (wordBytes 0x00001010#32) = .ok (.rawRepeat 16, []) := ⟨rfl, rfl, rfl, rfl⟩

theorem witness_StepRunsSelectedOperation :
    unmarked (handling cfg2 45#32 false) = true ∧ mover (handling cfg2 45#32 false) = some .controller
      ∧ (handling cfg2 45#32 false).pending (parityChannel (handling cfg2 45#32 false).ctl.parity) = true := by decide

/-- The controller with the other channel's completion pending, for both values of the flag. -/
def desynced (p : Bool) : State :=
  { handling cfg2 2#32 false with ctl := ⟨2#32, false, p⟩, irq := ⟨p, !p, true, true⟩ }
theorem witness_IdentifyByParity :
    (unmarked (desynced false) = true ∧ mover (desynced false) = some .controller
        ∧ (desynced false).ctl.parity = false ∧ (desynced false).irq.pending0 = false)
      ∧ (unmarked (desynced true) = true ∧ mover (desynced true) = some .controller
        ∧ (desynced true).ctl.parity = true ∧ (desynced true).irq.pending1 = false)
      ∧ ((handling cfg2 2#32 false).ctl.parity = false ∧ (handling cfg2 2#32 false).irq.pending0 = true)
      ∧ ({ desynced true with irq := ⟨false, true, true, true⟩ } : State).ctl.parity = true := by decide

theorem witness_AgentsEnabled :
    unmarked State.reset = true ∧ unmarked (live cfg2 .sink) = true ∧ unmarked (handling cfg2 2#32 false) = true
      ∧ unmarked (popping cfg2 .cmd 0#32) = true ∧ enabled State.reset .setup = true ∧ mover State.reset = some .setup ∧ State.reset.started = false
      ∧ (live cfg2 .sink).started = true ∧ enabled (live cfg2 .sink) (.channel .ch0) = true
      ∧ enabled (handling cfg2 2#32 false) .controller = true ∧ enabled (popping cfg2 .cmd 0#32) .sink = true := by
  decide

theorem witness_ReadAdmission :
    readWord cfg1 [] 0x80002#32 = .misaligned ∧ readWord cfg1 [] 0x8027C#32 = .unwritten 0x8027C#32
      ∧ readWord cfg1 [(0x80000, 1#8), (0x80001, 2#8)] 0x80000#32 = .unwritten 0x80002#32
      ∧ readWord cfg1 [] 0x80280#32 = .notAdmitted
      ∧ readWord cfg1 [(0x80000, 1#8), (0x80001, 2#8), (0x80002, 3#8), (0x80003, 4#8)] 0x80000#32
        = .value 0x04030201#32
      ∧ readWord cfg1 [] 0x1018#32 = .value 0x0000F000#32 ∧ readWord cfg1 [] 0x101C#32 = .notAdmitted := by decide

theorem witness_TransferMovesOneWord :
    unmarked (live cfg2 (.channel .ch0)) = true ∧ mover (live cfg2 (.channel .ch0)) = some (.channel .ch0)
      ∧ ((live cfg2 (.channel .ch0)).chan .ch0).remaining ≠ 0#32
      ∧ readWord cfg2 [] ((live cfg2 (.channel .ch0)).chan .ch0).cur = .value 0x00001010#32 := by decide

theorem witness_TransferReadFaults :
    (unmarked (reading cfg2 0x1102#32) = true ∧ mover (reading cfg2 0x1102#32) = some (.channel .ch0)
        ∧ readWord cfg2 [] 0x1102#32 = .misaligned)
      ∧ (unmarked (reading cfg1 0x80000#32) = true ∧ mover (reading cfg1 0x80000#32) = some (.channel .ch0)
        ∧ readWord cfg1 [] 0x80000#32 = .unwritten 0x80000#32)
      ∧ (unmarked (reading cfg2 0x2000#32) = true ∧ readWord cfg2 [] 0x2000#32 = .notAdmitted) := by decide

theorem witness_TriggerStartsArmedChannel :
    ((live cfg2 .sink).chan .ch0).busy = true
      ∧ ((live cfg2 .sink).chan .ch1).busy = false ∧ ((live cfg2 .sink).chan .ch1).armed = true
      ∧ (State.reset.chan .ch1).busy = false ∧ (State.reset.chan .ch1).armed = false := by decide

theorem witness_CompletionChainsOther :
    unmarked (completing Channel.reset) = true ∧ mover (completing Channel.reset) = some (.channel .ch0)
      ∧ ((completing Channel.reset).chan .ch0).remaining = 0#32
      ∧ mover (completing { Channel.reset with busy := true }) = some (.channel .ch0)
      ∧ mover (completing { Channel.reset with armed := true }) = some (.channel .ch0) := by decide

theorem witness_TransferRunPushesWords :
    ∀ i, i < (romVblank cfg2).length →
      ((romVblank cfg2)[i]?).map WordRead.value
        = some (readWord cfg2 [] (((live cfg2 .sink).chan .ch0).cur + BitVec.ofNat 32 (4 * i))) := by decide

/-- Whatever the launch lists, a scratch byte is unwritten at reset (R49); an asset byte it lists is kept. -/
theorem witness_ResetValues :
    State.reset = State.resetWith Config.launch [] ∧ placementOk cfg1 = true ∧ cfg1.fmt = .p1
      ∧ readByte cfg1 (State.resetWith cfg1 [(0x80000, 1#8), (0x8027F, 2#8)]).mem 0x80000 = none
      ∧ readByte cfg1 (State.resetWith cfg1 [(0x80000, 1#8), (0x8027F, 2#8)]).mem 0x8027F = none
      ∧ readByte cfg1 State.reset.mem 0x1001 = some 0x10#8 := ⟨rfl, by decide, by decide, by decide, by decide, by decide⟩
theorem witness_ResetMeetsInvariants :
    Memory.wf { cfg1 with assetWritten := false } [(0x10000, 7#8), (0x80000, 1#8)] = true
      ∧ readByte { cfg1 with assetWritten := false }
          (State.resetWith { cfg1 with assetWritten := false } [(0x10000, 7#8), (0x80000, 1#8)]).mem 0x10000
        = some 7#8 := by decide

/-- After the preload, and after the enables. -/
def preloaded : State := preload State.reset
def irqEnabled : State := enableIrq preloaded
theorem witness_PreloadQueuesVblank :
    unmarked State.reset = true ∧ State.reset.started = false ∧ State.reset.setup = .preload := by decide
theorem witness_EnableIrqSetsEnables :
    unmarked preloaded = true ∧ preloaded.started = false ∧ preloaded.setup = .enableIrq := by decide
theorem witness_StartTriggersChannelZero :
    unmarked irqEnabled = true ∧ irqEnabled.started = false ∧ irqEnabled.setup = .start
      ∧ irqEnabled.ch0.busy = false ∧ irqEnabled.ch0.armed = true := by decide

theorem witness_StepKeepsEngineOk :
    (engineOk State.reset = true ∧ ∃ t, step State.reset = .next t)
      ∧ (engineOk (live cfg2 (.channel .ch0)) = true ∧ ∃ t, step (live cfg2 (.channel .ch0)) = .next t)
      ∧ (engineOk (handling cfg2 45#32 true) = true ∧ ∃ t, step (handling cfg2 45#32 true) = .next t) :=
  ⟨⟨by decide, next_of_completes (by decide)⟩, ⟨by decide, next_of_completes (by decide)⟩,
    ⟨by decide, next_of_completes (by decide)⟩⟩

theorem witness_EngineOkGivesTheFive :
    engineOk (handling cfg2 45#32 true) = true ∧ (handling cfg2 45#32 true).started = true
      ∧ (handling cfg2 45#32 true).ctl.headerPosted = true ∧ irqLine (handling cfg2 45#32 true) = true := by decide

theorem witness_EngineNeverDesyncs :
    engineOk (handling cfg2 45#32 true) = true ∧ (handling cfg2 45#32 true).fault = none := by decide

theorem witness_ScratchRaceUnreachable :
    engineOk (handling cfg1 45#32 true) = true ∧ placementOk cfg1 = true ∧ (handling cfg1 45#32 true).fault = none
      ∧ mover (handling cfg1 45#32 true) = some .controller := by decide

/-- Channel 1 completing while channel 0's completion still waits. -/
def late : State :=
  { handling cfg2 2#32 false with
    turn := .channel .ch1
    ctl := ⟨2#32, false, false⟩
    ch1 := { src := 0x1100#32, count := 7#32, cur := 0x111C#32, remaining := 0#32, busy := true, armed := false } }
theorem witness_MissedDeadlineFaults :
    engineOk late = true ∧ unmarked late = true ∧ mover late = some (.channel .ch1)
      ∧ (late.chan .ch1).remaining = 0#32 ∧ late.pending (Chan.other .ch1) = true := by decide

theorem witness_SomeAgentCanMove :
    (engineOk late = true ∧ unmarked late = true ∧ late.started = true ∧ (late.chan .ch1).remaining = 0#32
        ∧ readWord cfg2 [] (late.chan .ch1).cur = .notAdmitted ∧ (late.chan .ch0).busy = false)
      ∧ engineOk (live cfg2 .sink) = true ∧ unmarked (live cfg2 .sink) = true ∧ (live cfg2 .sink).started = true
      ∧ 1 ≤ cfg2.fifoDepth
      ∧ readWord cfg2 [] ((live cfg2 .sink).chan .ch0).cur ≠ .notAdmitted
      ∧ ((live cfg2 .sink).chan .ch1).busy = false := by decide

theorem witness_StepKeepsSinkOk :
    sinkOk (popping cfg1 (.pixData 640) 0x44332211#32) = true
      ∧ ∃ t, step (popping cfg1 (.pixData 640) 0x44332211#32) = .next t :=
  ⟨by decide, next_of_completes (by decide)⟩

/-- A state whose memory lists scratch bytes, about to copy a row over them. -/
def copying : State := { handling cfg1 45#32 true with mem := [(0x80000, 0xAA#8), (0x8027F, 0xBB#8)] }
theorem witness_StepKeepsMemoryCanonical :
    Memory.wf copying.cfg copying.mem = true ∧ ∃ t, step copying = .next t :=
  ⟨by decide, next_of_completes (by decide +kernel)⟩

theorem witness_OnlyScratchIsWritten :
    (∃ t, step copying = .next t) ∧ (regionOf cfg1 0x10000 1).map Region.kind ≠ some .scratch
      ∧ (regionOf cfg1 0x7FFFF 1).map Region.kind ≠ some .scratch
      ∧ (regionOf cfg1 0x80280 1).map Region.kind ≠ some .scratch :=
  ⟨next_of_completes (by decide +kernel), by decide, by decide, by decide⟩

theorem witness_ControllerIsSingleWriter :
    ((live cfg2 (.channel .ch0)).started = true ∧ mover (live cfg2 (.channel .ch0)) ≠ some .controller
        ∧ ∃ t, step (live cfg2 (.channel .ch0)) = .next t)
      ∧ ((handling cfg2 2#32 false).started = true ∧ mover (handling cfg2 2#32 false) = some .controller
        ∧ ∃ t, step (handling cfg2 2#32 false) = .next t) :=
  ⟨⟨by decide, by decide, next_of_completes (by decide)⟩, ⟨by decide, by decide, next_of_completes (by decide)⟩⟩

theorem witness_ObservationOnlyGrows : ∃ t, step (popping cfg2 (.rawData 2) 0#32) = .next t :=
  next_of_completes (by decide)

theorem witness_MarksAreFinal :
    ({ live cfg2 .sink with fault := some (.underrun .ch0) } : State).fault = some (.underrun .ch0)
      ∧ ({ live cfg2 .sink with refused := some .reservedCmd } : State).fault = none
      ∧ step (completing Channel.reset) = .fault (.underrun .ch1)
      ∧ step (popping cfg2 .cmd 0x00004000#32) = .refused .reservedCmd := ⟨rfl, rfl, rfl, rfl⟩

theorem witness_AnyEnabledAgentMayMove :
    unmarked (live cfg2 (.channel .ch0)) = true ∧ enabled (live cfg2 (.channel .ch0)) (live cfg2 (.channel .ch0)).turn = true := by
  decide

end Sys2Proof.Tests
end

/-! The reset values (10_state.md section 11): under `PLACEMENT_OK` the region of an address is unique, so a ROM byte
reads as that of its sequence word (R49, R176) and a scratch byte as unwritten (R49). -/

namespace Sys2Proof.Machine

/-! ## The region of an address -/

/-- Two regions that hold the same bytes are not apart. -/
theorem Region.not_apart_of_holds {r q : Region} {a n : Nat} (hn : 0 < n) (hr : r.holds a n = true)
    (hq : q.holds a n = true) : r.apart q = false := by
  rw [Region.holds_iff] at hr hq
  simp only [Region.apart, Bool.or_eq_false_iff, decide_eq_false_iff_not]
  omega

/-- In a list of disjoint regions the search finds any region that holds the bytes. -/
theorem find?_holds_of_allApart {rs : List Region} {r : Region} {a n : Nat} (hn : 0 < n) (hrs : allApart rs = true)
    (hr : r ∈ rs) (ha : r.holds a n = true) : rs.find? (·.holds a n) = some r := by
  induction rs with
  | nil => cases hr
  | cons q rs ih =>
    obtain ⟨hq, hrest⟩ : rs.all q.apart = true ∧ allApart rs = true := by simpa [allApart] using hrs
    rcases List.mem_cons.1 hr with rfl | hr
    · exact List.find?_cons_of_pos ha
    · have hqa : ¬ q.holds a n = true := fun h => by
        simpa [Region.not_apart_of_holds hn h ha] using List.all_eq_true.1 hq r hr
      exact (List.find?_cons_of_neg (p := fun q : Region => q.holds a n) hqa).trans (ih hrest hr)

/-- Under a correct placement, a region that holds the bytes is their region (R71). -/
theorem regionOf_eq_some_of_placementOk {cfg : Config} {r : Region} {a n : Nat} (hp : placementOk cfg = true)
    (hn : 0 < n) (hr : r ∈ regions cfg) (ha : r.holds a n = true) : regionOf cfg a n = some r :=
  find?_holds_of_allApart hn (Bool.and_eq_true_iff.1 hp).2 hr ha

/-! ## The sequences (R170-R173) -/

@[simp] theorem length_blankSequence (cfg : Config) (va : Bool) :
    (blankSequence cfg va).length = blankLength cfg := by
  simp [blankSequence, hold, holdWords, blankLength]; omega

@[simp] theorem length_romActive (cfg : Config) : (romActive cfg).length = activeLength := rfl

/-- Byte `4 * i + k` of a word list is byte `k` of word `i` (R74). -/
theorem wordListByte_of_getElem? {ws : List Word} {i k : Nat} {w : Word} (hw : ws[i]? = some w) (hk : k < 4) :
    wordListByte ws (4 * i + k) = some (byteOfWord w k) := by
  have hdiv : (4 * i + k) / 4 = i := by omega
  have hmod : (4 * i + k) % 4 = k := by omega
  simp [wordListByte, hdiv, hmod, hw]

/-! ## One byte of the ROM (R49, R176) -/

/-- A region of the run's placement that stores the words `ws`: memory lists none of its bytes, and its size is that of
the list. -/
structure StoresWords (cfg : Config) (r : Region) (ws : List Word) : Prop where
  mem : r ∈ regions cfg
  size : r.size = 4 * ws.length
  notListed : ∀ {a}, regionOf cfg a 1 = some r → holdsCell cfg a = false
  reads : ∀ {a}, regionOf cfg a 1 = some r → unlisted cfg a = wordListByte ws (a - r.base)

theorem storesWords_romVsync (cfg : Config) :
    StoresWords cfg ⟨.romVsync, cfg.romVsyncBase.toNat, 4 * blankLength cfg⟩ (romVsync cfg) where
  mem := by simp [regions]
  size := by simp [romVsync]
  notListed h := by simp [holdsCell, h]
  reads h := by simp [unlisted, h]

theorem storesWords_romVblank (cfg : Config) :
    StoresWords cfg ⟨.romVblank, cfg.romVblankBase.toNat, 4 * blankLength cfg⟩ (romVblank cfg) where
  mem := by simp [regions]
  size := by simp [romVblank]
  notListed h := by simp [holdsCell, h]
  reads h := by simp [unlisted, h]

theorem storesWords_romActive (cfg : Config) :
    StoresWords cfg ⟨.romActive, cfg.romActiveBase.toNat, 4 * activeLength⟩ (romActive cfg) where
  mem := by simp [regions]
  size := by simp
  notListed h := by simp [holdsCell, h]
  reads h := by simp [unlisted, h]

/-- Under a correct placement every byte of stored words reads as that of its word, whatever memory lists. -/
theorem StoresWords.readByte_eq {cfg : Config} {r : Region} {ws : List Word} {i k : Nat} {w : Word}
    (h : StoresWords cfg r ws) (hp : placementOk cfg = true) (m : List Host.Cell) (hw : ws[i]? = some w) (hk : k < 4) :
    readByte cfg m (r.base + 4 * i + k) = some (byteOfWord w k) := by
  have hi : i < ws.length := (List.getElem?_eq_some_iff.1 hw).1
  have hsize := h.size
  have hr : regionOf cfg (r.base + 4 * i + k) 1 = some r :=
    regionOf_eq_some_of_placementOk hp Nat.one_pos h.mem ((Region.holds_iff ..).2 (by omega))
  have hoff : r.base + 4 * i + k - r.base = 4 * i + k := by omega
  rw [readByte_of_not_holdsCell (h.notListed hr), h.reads hr, hoff, wordListByte_of_getElem? hw hk]

/-! ## The scratch buffer (R49) -/

/-- Under a correct placement every byte of the `P1` scratch buffer lies in the scratch region. -/
theorem regionOf_scratchBase_add {cfg : Config} {j : Nat} (hp : placementOk cfg = true) (hf : cfg.fmt = .p1)
    (hj : j < 640) : (regionOf cfg (cfg.scratchBase.toNat + j) 1).map Region.kind = some .scratch := by
  have hbytes : rowBytes cfg = 640 := by simp [rowBytes, bpp, hf, Config.hAct]
  have hr := regionOf_eq_some_of_placementOk (r := ⟨.scratch, cfg.scratchBase.toNat, rowBytes cfg⟩)
    (a := cfg.scratchBase.toNat + j) hp Nat.one_pos (by simp [regions, hf])
    ((Region.holds_iff ..).2 (by simp only; omega))
  rw [hr]; rfl

/-! ## Reset -/

/-- Settles O42: the registers by `State.resetWith`'s definition, the ROM and scratch bytes by their regions. -/
theorem resetValues : Obligations.ResetValues := by
  unfold Obligations.ResetValues
  rintro cfg image s rfl
  have hchannels : ∀ c, ((State.resetWith cfg image).chan c).busy = false
      ∧ ((State.resetWith cfg image).chan c).armed = false ∧ c.chainTo = c.other
      ∧ (State.resetWith cfg image).pending c = false := by
    rintro (_ | _) <;> exact ⟨rfl, rfl, rfl, rfl⟩
  refine ⟨rfl, rfl, rfl, hchannels, rfl, rfl, rfl, rfl, rfl, rfl, rfl, rfl,
    fun hp => ⟨fun i k w hk => ⟨?_, ?_, ?_⟩, ?_⟩⟩
  · exact fun hw => (storesWords_romVsync cfg).readByte_eq hp _ hw hk
  · exact fun hw => (storesWords_romVblank cfg).readByte_eq hp _ hw hk
  · exact fun hw => (storesWords_romActive cfg).readByte_eq hp _ hw hk
  · exact fun hf j hj => readByte_resetWith_scratch image (regionOf_scratchBase_add hp hf hj)

end Sys2Proof.Machine

/-! The timing generator (40_timing_generator.md): the classes of the scanline index (R140), the advance (R150),
`Program` and the payload operations built on it (R141-R144), the asset row of an active row (R146). -/

namespace Sys2Proof.Machine

/-! ## The classes (R140) -/

theorem classify_eq_vsync {s : Word} (hp : Bool) (h : 10 ≤ s.toNat ∧ s.toNat < 12) : classify s hp = .vsync := if_pos h

theorem classify_eq_vblank {s : Word} (hp : Bool) (h : s.toNat < 10 ∨ (12 ≤ s.toNat ∧ s.toNat < 45)) :
    classify s hp = .vblank := by
  rw [classify, vFp_eq, vSw_eq, vActiveStart_eq, if_neg (by omega), if_pos (by omega)]

theorem classify_active {s : Word} (hp : Bool) (h : 45 ≤ s.toNat) : classify s hp = if hp then .pix else .hdr := by
  rw [classify, vFp_eq, vSw_eq, vActiveStart_eq, if_neg (by omega), if_neg (by omega)]

theorem classify_eq_vsync_iff {s : Word} {hp : Bool} : classify s hp = .vsync ↔ s.toNat = 10 ∨ s.toNat = 11 := by
  refine ⟨fun h => ?_, fun h => classify_eq_vsync hp (by omega)⟩
  have h45 := classify_blank (.inl h)
  by_contra hne
  cases h.symm.trans (classify_eq_vblank hp (by omega))

theorem classify_eq_vblank_iff {s : Word} {hp : Bool} :
    classify s hp = .vblank ↔ s.toNat < 10 ∨ (12 ≤ s.toNat ∧ s.toNat < 45) := by
  refine ⟨fun h => ?_, classify_eq_vblank hp⟩
  have h45 := classify_blank (.inr h)
  by_contra hne
  cases h.symm.trans (classify_eq_vsync hp (by omega))

theorem classify_eq_hdr_iff {s : Word} {hp : Bool} : classify s hp = .hdr ↔ 45 ≤ s.toNat ∧ hp = false :=
  ⟨classify_hdr_imp, fun ⟨hs, hf⟩ => by rw [classify_active hp hs, hf]; rfl⟩

theorem classify_eq_pix_iff {s : Word} {hp : Bool} : classify s hp = .pix ↔ 45 ≤ s.toNat ∧ hp = true :=
  ⟨classify_pix_imp, fun ⟨hs, ht⟩ => by rw [classify_active hp hs, ht]; rfl⟩

/-- Settles O7: one lemma per class. -/
theorem classifyByIndex : Obligations.ClassifyByIndex := by
  unfold Obligations.ClassifyByIndex
  exact fun s hp => ⟨classify_eq_vsync hp, classify_eq_vblank hp,
    fun hs hf => classify_eq_hdr_iff.2 ⟨hs, hf⟩, fun hs ht => classify_eq_pix_iff.2 ⟨hs, ht⟩⟩

/-- Different payloads are different operations (R119). -/
theorem payloadInstr_inj {k l : Payload} {c : Chan} : payloadInstr k c = payloadInstr l c ↔ k = l := by
  cases k <;> cases l <;> simp [payloadInstr]

/-- The controller selects a payload's operation exactly at the positions of the payload's class (R119, R140). -/
theorem selectedOp_eq_payloadInstr_iff {s : State} {c : Chan} {k : Payload} :
    selectedOp s c = payloadInstr k c ↔ classify s.ctl.scanline s.ctl.headerPosted = k := payloadInstr_inj

/-! ## The advance (R150) -/

/-- Settles O12: the advance writes `indexAfter`, which is the old index while a header is posted. -/
theorem advanceUnlessHeaderPosted : Obligations.AdvanceUnlessHeaderPosted := by
  unfold Obligations.AdvanceUnlessHeaderPosted
  refine fun s => ⟨fun h => ?_, fun h => ?_⟩
  · rw [advance_eq, h]; rfl
  · rw [advance_eq, h]; rfl

/-! ## `Program` (R141) -/

theorem program_of_busy {c : Chan} {s : State} (a n : Word) (hb : (s.chan c).busy = true) :
    program c a n s = .fault (.busyReprogram c) s := (program_eq_fault c s).2 ⟨rfl, .inl ⟨hb, rfl⟩⟩

theorem program_zero_of_idle {c : Chan} {s : State} (a : Word) (hb : (s.chan c).busy = false) :
    program c a 0#32 s = .fault (.zeroCount c) s := (program_eq_fault c s).2 ⟨rfl, .inr ⟨hb, rfl, rfl⟩⟩

theorem program_of_idle {c : Chan} {s : State} {n : Word} (a : Word) (hb : (s.chan c).busy = false) (hn : n ≠ 0#32) :
    program c a n s = .done (s.setChan c (programmed (s.chan c) a n)) := (program_eq_done c s).2 ⟨hb, hn, rfl⟩

/-- Settles O13: the three exclusive cases of `Program`. -/
theorem programWritesDescriptor : Obligations.ProgramWritesDescriptor := by
  unfold Obligations.ProgramWritesDescriptor
  refine fun c a n s => ⟨fun hb => ?_, fun hb hn => ?_, fun hb hn => ?_⟩
  · rw [program_of_busy a n hb]; rfl
  · rw [hn, program_zero_of_idle a hb]; rfl
  · rw [program_of_idle a hb hn]; rfl

/-! ## The blanking and header operations (R142-R144) -/

/-- A blanking sequence that fits the count register is not empty there (R170, R178). -/
theorem blankLength_count_ne_zero {cfg : Config} (h : blankLength cfg < 2 ^ 32) :
    BitVec.ofNat 32 (blankLength cfg) ≠ 0#32 := fun h0 => by
  have hpos : 0 < blankLength cfg := by unfold blankLength; omega
  have := congrArg BitVec.toNat h0
  rw [BitVec.toNat_ofNat, BitVec.toNat_ofNat, Nat.mod_eq_of_lt h] at this
  omega

theorem exec_opVsync (c : Chan) (s : State) : exec (.opVsync c) s =
    (program c s.cfg.romVsyncBase (BitVec.ofNat 32 (blankLength s.cfg)) s).outcome := exec_eq_outcome ..

theorem exec_opVblank (c : Chan) (s : State) : exec (.opVblank c) s =
    (program c s.cfg.romVblankBase (BitVec.ofNat 32 (blankLength s.cfg)) s).outcome := exec_eq_outcome ..

theorem exec_opHdr (c : Chan) (s : State) : exec (.opHdr c) s =
    mapOutcome (·.setHeaderPosted true) (program c s.cfg.romActiveBase 9#32 s).outcome :=
  (exec_eq_outcome ..).trans (Res.outcome_andThen_done ..)

/-- Settles O14: the operation is `Program` of a count that is not 0. -/
theorem opVsyncProgramsVsync : Obligations.OpVsyncProgramsVsync := by
  unfold Obligations.OpVsyncProgramsVsync
  refine fun c s hlen => ⟨fun hb => ?_, fun hb => ?_, ?_⟩
  · rw [exec_opVsync, program_of_idle _ hb (blankLength_count_ne_zero hlen)]; rfl
  · rw [exec_opVsync, program_of_busy _ _ hb]; rfl
  · exact (selectedOp_eq_payloadInstr_iff (k := .vsync)).trans classify_eq_vsync_iff

/-- Settles O15: the operation is `Program` of a count that is not 0. -/
theorem opVblankProgramsVblank : Obligations.OpVblankProgramsVblank := by
  unfold Obligations.OpVblankProgramsVblank
  refine fun c s hlen => ⟨fun hb => ?_, fun hb => ?_, ?_⟩
  · rw [exec_opVblank, program_of_idle _ hb (blankLength_count_ne_zero hlen)]; rfl
  · rw [exec_opVblank, program_of_busy _ _ hb]; rfl
  · exact (selectedOp_eq_payloadInstr_iff (k := .vblank)).trans classify_eq_vblank_iff

/-- Settles O16: the operation is `Program` of nine words, then the flag. -/
theorem opHdrPostsHeader : Obligations.OpHdrPostsHeader := by
  unfold Obligations.OpHdrPostsHeader
  refine fun c s => ⟨fun hb => ?_, fun hb => ?_, ?_⟩
  · rw [exec_opHdr, program_of_idle _ hb (by decide)]; rfl
  · rw [exec_opHdr, program_of_busy _ _ hb]; rfl
  · exact (selectedOp_eq_payloadInstr_iff (k := .hdr)).trans classify_eq_hdr_iff

/-! ## The asset row of an active row (R145, R146) -/

theorem rowMap_past {cfg : Config} {r : Nat} (h : 2 * cfg.assetH ≤ r) : rowMap cfg r = none := if_pos h

theorem rowMap_first {cfg : Config} {r : Nat} (h : r < cfg.assetH) : rowMap cfg r = some r := by
  rw [rowMap, if_neg (by omega), if_pos h]

theorem rowMap_second_duplicate {cfg : Config} {r : Nat} (h1 : cfg.assetH ≤ r) (h2 : r < 2 * cfg.assetH)
    (hd : cfg.dupMode = .duplicate) : rowMap cfg r = some (r - cfg.assetH) := by
  rw [rowMap, if_neg (by omega), if_neg (by omega), hd]

theorem rowMap_second_mirror {cfg : Config} {r : Nat} (h1 : cfg.assetH ≤ r) (h2 : r < 2 * cfg.assetH)
    (hd : cfg.dupMode = .mirror) : rowMap cfg r = some (2 * cfg.assetH - 1 - r) := by
  rw [rowMap, if_neg (by omega), if_neg (by omega), hd]

theorem rowMap_eq_none_iff {cfg : Config} {r : Nat} : rowMap cfg r = none ↔ 2 * cfg.assetH ≤ r := by
  refine ⟨fun h => ?_, rowMap_past⟩
  by_contra hlt
  by_cases h1 : r < cfg.assetH
  · cases h.symm.trans (rowMap_first h1)
  · cases hd : cfg.dupMode with
    | duplicate => cases h.symm.trans (rowMap_second_duplicate (by omega) (by omega) hd)
    | mirror => cases h.symm.trans (rowMap_second_mirror (by omega) (by omega) hd)

/-- A row outside the asset stops the pixel operation before anything else (R146, R273). -/
theorem exec_opPix_of_rowMap_none {s : State} (c : Chan) (h : rowMap s.cfg (activeRow s.ctl.scanline) = none) :
    exec (.opPix c) s = .fault (.rowRange (activeRow s.ctl.scanline)) := by
  rw [exec_eq_outcome, perform, opPixRes, h]; rfl

/-- Settles O19: one lemma per case of `rowMap`; the fault from `activeRow_index`. -/
theorem rowMapRule : Obligations.RowMapRule := by
  unfold Obligations.RowMapRule
  refine fun cfg r => ⟨rowMap_past, rowMap_first, rowMap_second_duplicate, rowMap_second_mirror, ?_, fun hr hH h => ?_⟩
  · rintro c s rfl hs hr
    have hrow := activeRow_index hs
    rw [exec_opPix_of_rowMap_none c (by rw [hrow]; exact rowMap_past hr), hrow]
  · have := rowMap_eq_none_iff.1 h
    omega

end Sys2Proof.Machine

/-! The command sequence ROM (41_command_rom.md): a channel's read of a ROM word (R73, R176). -/

namespace Sys2Proof.Machine

/-! ## A placement's arithmetic (R12, R71) -/

theorem romBases_aligned_of_placementOk {cfg : Config} (hp : placementOk cfg = true) :
    cfg.romVsyncBase.toNat % 4 = 0 ∧ cfg.romVblankBase.toNat % 4 = 0 ∧ cfg.romActiveBase.toNat % 4 = 0 := by
  simp only [placementOk, Bool.and_eq_true, List.all_cons, beq_iff_eq] at hp
  obtain ⟨⟨⟨hvsync, hvblank, hactive, -⟩, -⟩, -⟩ := hp
  exact ⟨hvsync, hvblank, hactive⟩

theorem region_end_le_of_placementOk {cfg : Config} {r : Region} (hp : placementOk cfg = true) (hr : r ∈ regions cfg) :
    r.base + r.size ≤ 2 ^ 32 :=
  of_decide_eq_true (List.all_eq_true.1 (Bool.and_eq_true_iff.1 (Bool.and_eq_true_iff.1 hp).1).2 r hr)

/-! ## One word of the ROM (R73, R176) -/

/-- An aligned read inside one region whose four bytes are those of a word gives that word (R73, R74). -/
theorem readWord_of_readByte {cfg : Config} {m : List Host.Cell} {a w : Word} {r : Region} (ha : a.toNat % 4 = 0)
    (hr : regionOf cfg a.toNat 4 = some r) (hb : ∀ k < 4, readByte cfg m (a.toNat + k) = some (byteOfWord w k)) :
    readWord cfg m a = .value w := by
  have hb0 : readByte cfg m a.toNat = some (byteOfWord w 0) := hb 0 (by omega)
  simp [readWord, ha, hr, hb0, hb 1, hb 2, hb 3, wordOfBytes_byteOfWord]

/-- Under a correct placement a channel's read of word `i` of stored words gives it: the region does not wrap, so the
address of the word is its base plus `4 * i`. -/
theorem StoresWords.readWord_eq {cfg : Config} {r : Region} {ws : List Word} {i : Nat} {base w : Word}
    (h : StoresWords cfg r ws) (hp : placementOk cfg = true) (hbase : r.base = base.toNat)
    (halign : base.toNat % 4 = 0) (m : List Host.Cell) (hw : ws[i]? = some w) :
    readWord cfg m (base + BitVec.ofNat 32 (4 * i)) = .value w := by
  have hi : i < ws.length := (List.getElem?_eq_some_iff.1 hw).1
  have hsize := h.size
  have hend := region_end_le_of_placementOk hp h.mem
  have haddr : (base + BitVec.ofNat 32 (4 * i)).toNat = r.base + 4 * i := by
    rw [BitVec.toNat_add, BitVec.toNat_ofNat]; omega
  have hr : regionOf cfg (r.base + 4 * i) 4 = some r :=
    regionOf_eq_some_of_placementOk hp (by omega) h.mem ((Region.holds_iff ..).2 (by omega))
  refine readWord_of_readByte (by omega) (by rw [haddr]; exact hr) fun k hk => ?_
  rw [haddr, h.readByte_eq hp m hw hk]

/-- Settles O5: each sequence is the stored words of its region. -/
theorem romReadsItsWords : Obligations.RomReadsItsWords := by
  unfold Obligations.RomReadsItsWords
  intro cfg m i w hp
  obtain ⟨hvsync, hvblank, hactive⟩ := romBases_aligned_of_placementOk hp
  exact ⟨(storesWords_romVsync cfg).readWord_eq hp rfl hvsync m,
    (storesWords_romVblank cfg).readWord_eq hp rfl hvblank m,
    (storesWords_romActive cfg).readWord_eq hp rfl hactive m⟩

end Sys2Proof.Machine

/-! The DMA feeder (42_dma_feeder.md): `Trigger` (R191), the reads of a transfer step that stop it (R195), the completion
step with its chain (R196, R197). -/

namespace Sys2Proof.Machine

/-! ## `Trigger` (R191) -/

/-- The state in which channel `c` runs on its descriptor (R191). -/
def triggered (c : Chan) (s : State) : State :=
  (s.setChan c { s.chan c with
      cur := (s.chan c).src, remaining := (s.chan c).count, busy := true, armed := false }).record
    (.start c (s.chan c).src (s.chan c).count)

theorem trigger_of_busy {c : Chan} {s : State} (hb : (s.chan c).busy = true) :
    trigger c s = .fault (.chainBusy c) s := (trigger_eq_fault c s).2 ⟨rfl, .inl ⟨hb, rfl⟩⟩

theorem trigger_of_unarmed {c : Chan} {s : State} (hb : (s.chan c).busy = false) (ha : (s.chan c).armed = false) :
    trigger c s = .fault (.underrun c) s := (trigger_eq_fault c s).2 ⟨rfl, .inr ⟨hb, ha, rfl⟩⟩

theorem trigger_of_armed {c : Chan} {s : State} (hb : (s.chan c).busy = false) (ha : (s.chan c).armed = true) :
    trigger c s = .done (triggered c s) := (trigger_eq_done c s).2 ⟨hb, ha, rfl⟩

/-- Settles O39: the three exclusive cases of `Trigger`. -/
theorem triggerStartsArmedChannel : Obligations.TriggerStartsArmedChannel := by
  unfold Obligations.TriggerStartsArmedChannel
  refine fun c s => ⟨fun hb => ?_, fun hb ha => ?_, fun hb ha => ?_⟩
  · rw [trigger_of_busy hb]; rfl
  · rw [trigger_of_unarmed hb ha]; rfl
  · rw [trigger_of_armed hb ha]; rfl

/-! ## The transfer step's read (R193-R195) -/

/-- While a word is left, the step of a moving channel is its transfer. -/
theorem step_of_transfer {c : Chan} {s : State} (hu : unmarked s = true) (hm : mover s = some (.channel c))
    (hr : (s.chan c).remaining ≠ 0#32) : step s = mapOutcome State.passTurn (transfer c s).outcome := by
  rw [step_of_mover hu hm, agentStep, channelStep, if_neg hr]

theorem transfer_of_misaligned {c : Chan} {s : State} (h : readWord s.cfg s.mem (s.chan c).cur = .misaligned) :
    transfer c s = .fault (.misaligned c (s.chan c).cur) s := by rw [transfer, h]

theorem transfer_of_unwritten {c : Chan} {s : State} {a : Word}
    (h : readWord s.cfg s.mem (s.chan c).cur = .unwritten a) :
    transfer c s = .fault (.unwrittenRead (.channel c) a) s := by rw [transfer, h]

theorem transferEnabled_of_notAdmitted {c : Chan} {s : State}
    (h : readWord s.cfg s.mem (s.chan c).cur = .notAdmitted) : transferEnabled c s = false := by
  simp [transferEnabled, h]

theorem completeEnabled_of_remaining {c : Chan} {s : State} (h : (s.chan c).remaining ≠ 0#32) :
    completeEnabled c s = false := by simp [completeEnabled, h]

/-- Settles O38: a read that stops is the transfer's fault; one outside every region enables neither the transfer nor,
with words left, the completion. -/
theorem transferReadFaults : Obligations.TransferReadFaults := by
  unfold Obligations.TransferReadFaults
  refine fun c s hu hr => ⟨fun hm h => ?_, fun a hm h => ⟨a, ?_⟩, fun h => ?_⟩
  · rw [step_of_transfer hu hm hr, transfer_of_misaligned h]; rfl
  · rw [step_of_transfer hu hm hr, transfer_of_unwritten h]; rfl
  · simp [enabled, transferEnabled_of_notAdmitted h, completeEnabled_of_remaining hr]

/-! ## Completion and chaining (R196, R197) -/

/-- With no word left, the step of a moving channel triggers the other channel on the completion's writes. -/
theorem step_of_completion {c : Chan} {s : State} (hu : unmarked s = true) (hm : mover s = some (.channel c))
    (hr : (s.chan c).remaining = 0#32) :
    step s = mapOutcome State.passTurn (trigger c.other (completeWrites c s)).outcome := by
  rw [step_of_mover hu hm, agentStep, channelStep, if_pos hr, complete, Chan.chainTo_eq]

/-- Settles O40: the completion's writes leave the other channel as it was, so `Trigger` meets its three cases there. -/
theorem completionChainsOther : Obligations.CompletionChainsOther := by
  unfold Obligations.CompletionChainsOther
  intro c s hu hm hr
  have hother : (completeWrites c s).chan c.other = s.chan c.other := completeWrites_chan_other c s
  rw [step_of_completion hu hm hr]
  refine ⟨fun hb => ?_, fun hb ha => ?_,
    fun hb ha => ⟨(triggered c.other (completeWrites c s)).passTurn, ?_, ?_⟩⟩
  · rw [trigger_of_busy (by rwa [hother])]; rfl
  · rw [trigger_of_unarmed (by rwa [hother]) (by rwa [hother])]; rfl
  · rw [trigger_of_armed (by rwa [hother]) (by rwa [hother])]; rfl
  · simp [triggered]

end Sys2Proof.Machine

/-! The sink's words (43_sink_commands.md): the commands in mode `CMD` (R232-R237, R240, R241) with the words of the
default encoding that spell them, the control-data words (R238), the pixel words (R239). -/

namespace Sys2Proof

/-! ## Command words of the default encoding (R101, R102) -/

/-- In mode `CMD` sixteen zeros, an opcode and a count spell the opcode's command with that count. -/
theorem decodeWord_default_command (fmt : PixelFormat) (op : BitVec 4) (m : BitVec 12) :
    decodeWord Encoding.default .cmd fmt (0#16 ++ op ++ m) = commandOf Encoding.default op m.toNat := by
  have hw : commandWord Encoding.default op m.toNat = 0#16 ++ op ++ m := by
    rw [commandWord_default, BitVec.ofNat_toNat, BitVec.setWidth_eq]
  calc decodeWord Encoding.default .cmd fmt (0#16 ++ op ++ m)
      = decodeCommand Encoding.default (commandWord Encoding.default op m.toNat) :=
        congrArg (decodeCommand Encoding.default) hw.symm
    _ = commandOf Encoding.default op (m.toNat % 2 ^ 12) := decodeCommand_commandWord (by decide) op m.toNat
    _ = commandOf Encoding.default op m.toNat := by rw [Nat.mod_eq_of_lt m.isLt]

/-- An opcode no command has spells its reserved row (R102, R237). -/
theorem commandOf_of_reservedOpcode {e : Encoding} {op : BitVec 4} (h : reservedOpcode e op = true) (n : Nat) :
    commandOf e op n = reservedOf op n := by
  simp only [reservedOpcode, Bool.and_eq_true, bne_iff_ne] at h
  obtain ⟨⟨⟨⟨hraw, hrawRepeat⟩, htmds⟩, htmdsRepeat⟩, hnop⟩ := h
  rw [commandOf, if_neg hraw, if_neg hrawRepeat, if_neg htmds, if_neg htmdsRepeat, if_neg hnop]

theorem reservedOpcode_default {op : BitVec 4} (h4 : 4 ≤ op.toNat) (h14 : op.toNat ≤ 14) :
    reservedOpcode Encoding.default op = true := by
  revert op; decide

/-- A command word with an upper bit set spells no command, whatever its opcode (R240). -/
theorem decodeCommand_of_upperField_ne_zero {e : Encoding} {w : Word} (h : upperField e w ≠ 0) :
    decodeCommand e w = .cmdUpperBits w := if_neg h

/-- The default layout's upper bits are bits 16 to 31 (R101). -/
theorem upperField_default (w : Word) : upperField Encoding.default w = (w.extractLsb' 16 16).toNat := by
  have hlt : w.toNat / 2 ^ 16 < 2 ^ 16 := by have := w.isLt; omega
  rw [BitVec.extractLsb'_toNat, Nat.shiftRight_eq_div_pow, Nat.mod_eq_of_lt hlt]
  rfl

/-- The four control-data words of the default encoding (R104-R107). -/
theorem syncWord_default :
    syncWord Encoding.default false false = 0x354D5354#32 ∧ syncWord Encoding.default false true = 0x354D50AB#32
      ∧ syncWord Encoding.default true false = 0x354D5154#32
      ∧ syncWord Encoding.default true true = 0x354D52AB#32 := by decide

end Sys2Proof

namespace Sys2Proof.Machine

/-! ## Commands in mode `CMD` (R232-R234, R241) -/

theorem exec_of_refuse {i : Instr} {s t : State} {r : Refusal} (h : perform i s = .refuse r t) :
    exec i s = .refused r := by rw [exec_eq_outcome, h]; rfl

theorem rawRepeatRes_zero {s : State} (hm : s.sink.mode = .cmd) : rawRepeatRes 0 s = .refuse .zeroCountCmd s :=
  inCmd_of_cmd hm _

theorem tmdsRes_zero {s : State} (hm : s.sink.mode = .cmd) : tmdsRes 0 s = .refuse .zeroCountCmd s :=
  inCmd_of_cmd hm _

/-- A count that leaves a partial word is not 0, so it is the partial word that refuses it (R233, R241). -/
theorem tmdsRes_partial {s : State} {n : Nat} (hm : s.sink.mode = .cmd) (hn : n % ppw s.cfg ≠ 0) :
    tmdsRes n s = .refuse .tmdsPartialWord s := by
  have h0 : n ≠ 0 := by rintro rfl; exact hn (Nat.zero_mod _)
  rw [tmdsRes, inCmd_of_cmd hm, if_neg h0, if_neg (by simpa [wholeWords] using hn)]

theorem nopRes_nonzero {s : State} {n : Nat} (hm : s.sink.mode = .cmd) (hn : n ≠ 0) :
    nopRes n s = .refuse .nopNonzeroCount s := by rw [nopRes, inCmd_of_cmd hm, if_neg hn]

/-- Settles O21: each command's completion and refusals; its word by its opcode. -/
theorem commandsInModeCmd : Obligations.CommandsInModeCmd := by
  unfold Obligations.CommandsInModeCmd
  refine fun n m s hm => ⟨fun hn => ?_, fun hn => ?_, fun hn hw => ?_, fun hn => ?_, fun hw => ?_, fun hn => ?_,
    fun hn => ?_, fun he => ?_⟩
  · exact exec_eq_next.2 (rawRepeatRes_eq_done.2 ⟨hm, hn, rfl⟩)
  · subst hn; exact exec_of_refuse (rawRepeatRes_zero hm)
  · exact exec_eq_next.2 (tmdsRes_eq_done.2 ⟨hm, hn, hw, rfl⟩)
  · subst hn; exact exec_of_refuse (tmdsRes_zero hm)
  · exact exec_of_refuse (tmdsRes_partial hm hw)
  · exact exec_eq_next.2 (nopRes_eq_done.2 ⟨hm, hn, rfl⟩)
  · exact exec_of_refuse (nopRes_nonzero hm hn)
  · rw [he]
    exact ⟨decodeWord_default_command .., decodeWord_default_command .., decodeWord_default_command ..⟩

/-! ## The commands that are not described (R235-R237, R240) -/

/-- Every reserved row has the one meaning, a refusal (R237). -/
theorem perform_reservedOf (op : BitVec 4) (n : Nat) (s : State) : perform (reservedOf op n) s = reservedRes s := by
  unfold reservedOf
  repeat' split
  all_goals rfl

theorem exec_reservedOpcode {e : Encoding} {op : BitVec 4} (h : reservedOpcode e op = true) (n : Nat) (s : State) :
    exec (commandOf e op n) s = .refused .reservedCmd := by
  rw [commandOf_of_reservedOpcode h]
  exact exec_of_refuse (perform_reservedOf op n s)

/-- Settles O22: each meaning is a refusal; the words by their opcode or their upper bits. -/
theorem undescribedCommandsRefused : Obligations.UndescribedCommandsRefused := by
  unfold Obligations.UndescribedCommandsRefused
  refine fun n m op2 op4 w fmt s => ⟨rfl, rfl, rfl, rfl, rfl, rfl, rfl, decodeWord_default_command ..,
    decodeWord_default_command .., fun h4 h14 => ?_, fun hw => ?_⟩
  · rw [decodeWord_default_command]
    exact exec_reservedOpcode (reservedOpcode_default h4 h14) _ s
  · refine decodeCommand_of_upperField_ne_zero fun h0 => hw (BitVec.eq_of_toNat_eq ?_)
    rw [← upperField_default, h0]; rfl

/-! ## Control-data words in mode `RAWDATA` (R238) -/

/-- Whatever row a control-data word decodes to, its meaning is to hold that word (R238). -/
theorem perform_decodeControl (w : Word) (s : State) : perform (decodeControl s.cfg.enc w) s = holdData w s := by
  unfold decodeControl
  split_ifs with h00 h01 h10 h11
  · rw [h00]; rfl
  · rw [h01]; rfl
  · rw [h10]; rfl
  · rw [h11]; rfl
  · rfl

theorem exec_of_holdData {i : Instr} {s : State} {n : Nat} {w : Word} (hm : s.sink.mode = .rawData n)
    (hi : perform i s = holdData w s) :
    exec i s = .next ((s.emit (List.replicate n (.ctl w))).setMode .cmd) :=
  exec_eq_next.2 (hi.trans (holdData_eq_done.2 ⟨n, hm, rfl⟩))

/-- Settles O24: every row is `holdData` of its word. -/
theorem holdEmitsControlWord : Obligations.HoldEmitsControlWord := by
  unfold Obligations.HoldEmitsControlWord
  refine fun n w s hm => ⟨exec_of_holdData hm rfl, exec_of_holdData hm rfl, exec_of_holdData hm rfl,
    exec_of_holdData hm rfl, exec_of_holdData hm rfl, exec_of_holdData hm (perform_decodeControl w s), fun he => ?_⟩
  obtain ⟨h00, h01, h10, h11⟩ := syncWord_default
  rw [← h00, ← h01, ← h10, ← h11, ← he]
  exact ⟨exec_of_holdData hm rfl, exec_of_holdData hm rfl, exec_of_holdData hm rfl, exec_of_holdData hm rfl⟩

/-! ## Pixel words in mode `PIXDATA` (R239) -/

theorem ppw_p1 {cfg : Config} (hf : cfg.fmt = .p1) : ppw cfg = 4 := by simp [ppw, bpp, hf]

theorem ppw_p2 {cfg : Config} (hf : cfg.fmt = .p2) : ppw cfg = 2 := by simp [ppw, bpp, hf]

/-- With at least a word of pixels left, the mode is `CMD` exactly when no more than that word was left. -/
theorem modeAfterPixels_of_le {n k : Nat} (h : k ≤ n) :
    modeAfterPixels n k = if n = k then .cmd else .pixData (n - k) := by
  have hz : n - k = 0 ↔ n = k := by omega
  simp only [modeAfterPixels, hz]

theorem exec_of_pixelData {i : Instr} {s : State} {n : Nat} {fmt : PixelFormat} {px : List Symbol}
    (hm : s.sink.mode = .pixData n) (hn : ppw s.cfg ≤ n) (hf : s.cfg.fmt = fmt) (hi : perform i s = pixelData fmt px s) :
    exec i s = .next ((s.emit px).setMode (if n = ppw s.cfg then .cmd else .pixData (n - ppw s.cfg))) := by
  rw [← modeAfterPixels_of_le hn]
  exact exec_eq_next.2 (hi.trans (pixelData_eq_done.2 ⟨n, hm, hf, hn, rfl⟩))

/-- Settles O25: each format's row is `pixelData` of its pixels, four or two to a word. -/
theorem pixelWordStreamsPixels : Obligations.PixelWordStreamsPixels := by
  unfold Obligations.PixelWordStreamsPixels
  refine fun n s hm hn => ⟨fun px3 px2 px1 px0 hf => ?_, fun px1 px0 hf => ?_⟩
  · rw [← ppw_p1 hf]; exact exec_of_pixelData hm hn hf rfl
  · rw [← ppw_p2 hf]; exact exec_of_pixelData hm hn hf rfl

end Sys2Proof.Machine

/-! The handler's entry (60_exceptions.md): the parity flag names the channel to handle (R263). -/

namespace Sys2Proof.Machine

/-! ## `Identify` (R263) -/

/-- With no completion pending on the channel the parity flag names, the controller's step is the fault of `Identify`,
raised before the handler writes anything. -/
theorem handlerStep_of_not_pending {s : State} (hp : s.pending (parityChannel s.ctl.parity) = false) :
    handlerStep s = .fault (.parityDesync s.ctl.parity s.irq.pending0 s.irq.pending1) s := by
  rw [handlerStep, identify_error.2 ⟨hp, rfl⟩]

theorem step_of_desync {s : State} (hu : unmarked s = true) (hm : mover s = some .controller)
    (hp : s.pending (parityChannel s.ctl.parity) = false) :
    step s = .fault (.parityDesync s.ctl.parity s.irq.pending0 s.irq.pending1) := by
  rw [step_of_mover hu hm, agentStep, handlerStep_of_not_pending hp]; rfl

/-- Settles O34: each value of the flag names its channel; that channel's pending bit decides. -/
theorem identifyByParity : Obligations.IdentifyByParity := by
  unfold Obligations.IdentifyByParity
  refine fun s => ⟨fun hf hp => ?_, fun hf hp => ?_, fun hu hm hf hp => ?_, fun hu hm hf hp => ?_⟩
  · exact identify_ok.2 ⟨((parityChannel_eq s .ch0).2 hf).symm, hp⟩
  · exact identify_ok.2 ⟨((parityChannel_eq s .ch1).2 hf).symm, hp⟩
  · have hd : s.pending (parityChannel s.ctl.parity) = false := by rwa [(parityChannel_eq s .ch0).2 hf]
    rw [step_of_desync hu hm hd, hf, hp]
  · have hd : s.pending (parityChannel s.ctl.parity) = false := by rwa [(parityChannel_eq s .ch1).2 hf]
    rw [step_of_desync hu hm hd, hf, hp]

end Sys2Proof.Machine

/-! Start-up (70_reset_and_hazards.md, section 2): the three setup steps (R291-R293) as steps of the machine. -/

namespace Sys2Proof.Machine

/-! ## The mover before `started` (R43, R294) -/

theorem enabled_setup_iff {s : State} : enabled s .setup = true ↔ s.started = false ∧ s.setup ≠ .done := by
  simp [enabled]

/-- Every agent but the setup context waits for `started`. -/
theorem eq_setup_of_enabled {s : State} {a : Agent} (hs : s.started = false) (he : enabled s a = true) :
    a = .setup := by
  cases a with
  | setup => rfl
  | controller => simp [enabled, hs] at he
  | channel c => simp [enabled, hs] at he
  | sink => simp [enabled, hs] at he

theorem mover_of_not_started {s : State} (hs : s.started = false) (hd : s.setup ≠ .done) : mover s = some .setup := by
  obtain ⟨a, ha⟩ := Option.isSome_iff_exists.1 (mover_isSome (enabled_setup_iff.2 ⟨hs, hd⟩))
  rw [ha, eq_setup_of_enabled hs (mover_enabled ha)]

/-- Before `started` a step that the setup context can take completes the machine's step, and the next turn is drawn. -/
theorem step_of_setupStep {s u : State} (hu : unmarked s = true) (hs : s.started = false) (hd : s.setup ≠ .done)
    (h : setupStep s = .done u) : step s = .next u.passTurn := by
  rw [step_of_mover hu (mover_of_not_started hs hd), agentStep, h]; rfl

/-! ## The setup context's step at each stage (R291-R293) -/

theorem setupStep_of_preload {s : State} (hp : s.setup = .preload) : setupStep s = .done (preload s) := by
  rw [setupStep, hp]

theorem setupStep_of_enableIrq {s : State} (hp : s.setup = .enableIrq) : setupStep s = .done (enableIrq s) := by
  rw [setupStep, hp]

/-- With channel 0 idle and armed, `Start` runs it on its descriptor. -/
theorem setupStep_of_start {s : State} (hp : s.setup = .start) (hb : s.ch0.busy = false) (ha : s.ch0.armed = true) :
    setupStep s = .done (triggered .ch0 ((s.setStarted true).setSetup .done)) := by
  rw [setupStep, hp]
  exact trigger_of_armed hb ha

/-- `Preload` writes the descriptor and the mark of each channel, and no other register of it. -/
theorem preload_chan (c : Chan) (s : State) : (preload s).chan c = { s.chan c with
    src := s.cfg.romVblankBase, count := BitVec.ofNat 32 (blankLength s.cfg), armed := true } := by
  cases c with
  | ch0 => rfl
  | ch1 => rfl

/-- Settles O43: the step is `Preload`, which writes the two channels and the setup stage alone. -/
theorem preloadQueuesVblank : Obligations.PreloadQueuesVblank := by
  unfold Obligations.PreloadQueuesVblank
  intro s hu hs hp
  refine ⟨(preload s).passTurn, step_of_setupStep hu hs (by simp [hp]) (setupStep_of_preload hp), fun c => ?_, ?_⟩
  · rw [State.passTurn_chan, preload_chan]
  · simp [preload, preloadChan, hs]

/-- Settles O44: the step is `EnableIrq`, which writes the interrupt bits and the setup stage alone. -/
theorem enableIrqSetsEnables : Obligations.EnableIrqSetsEnables := by
  unfold Obligations.EnableIrqSetsEnables
  intro s hu hs hp
  refine ⟨(enableIrq s).passTurn, step_of_setupStep hu hs (by simp [hp]) (setupStep_of_enableIrq hp), ?_⟩
  simp [enableIrq, hs]

/-- Settles O45: the step is `Trigger(0)` on the started machine, which writes channel 0 and the event record alone. -/
theorem startTriggersChannelZero : Obligations.StartTriggersChannelZero := by
  unfold Obligations.StartTriggersChannelZero
  intro s hu hs hp hb ha
  refine ⟨_, step_of_setupStep hu hs (by simp [hp]) (setupStep_of_start hp hb ha), ?_⟩
  simp [triggered, State.chan_ch0]

end Sys2Proof.Machine

/-! The encoding (30_encoding.md): decoding and encoding are inverse, for every encoding, mode and word (R100-R118). -/

namespace Sys2Proof

/-! ## Opcodes of the reserved rows (R237) -/

theorem append_extractLsb'_of_high {op : BitVec 4} {q : BitVec 2} (h : op.toNat / 4 = q.toNat) :
    q ++ op.extractLsb' 0 2 = op := by
  revert op q; decide

/-- The opcode of a row of four, and the low bits the row's constructor carries (R237). -/
theorem toNat_append_div (q op : BitVec 2) : (q ++ op).toNat / 4 = q.toNat ∧ (q ++ op).extractLsb' 0 2 = op := by
  revert q op; decide

theorem reservedOf_row47 (op : BitVec 2) (n : Nat) : reservedOf (0b01#2 ++ op) n = .reserved47 op n := by
  obtain ⟨hrow, hlow⟩ := toNat_append_div 0b01#2 op
  exact (if_pos hrow).trans (by rw [hlow])

theorem reservedOf_row8B (op : BitVec 2) (n : Nat) : reservedOf (0b10#2 ++ op) n = .reserved8B op n := by
  obtain ⟨hrow, hlow⟩ := toNat_append_div 0b10#2 op
  exact (if_neg (by rw [hrow]; decide)).trans ((if_pos hrow).trans (by rw [hlow]))

theorem reservedOf_rowCD {op : BitVec 4} (h1 : op.toNat / 4 ≠ 1) (h2 : op.toNat / 4 ≠ 2) (hE : op ≠ 0xE#4) (n : Nat) :
    reservedOf op n = .reservedCD op n := by
  rw [reservedOf, if_neg h1, if_neg h2, if_neg hE]

/-! ## Commands (R101, R102, R117) -/

/-- A sound encoding, as a proposition (R14, R101, R102, R105). -/
theorem Encoding.ok_iff (e : Encoding) : e.ok = true ↔
    [e.raw, e.rawRepeat, e.tmds, e.tmdsRepeat, e.nop].Nodup ∧ 10 ≤ e.countWidth ∧ e.countWidth + 4 ≤ 32
      ∧ [syncWord e false false, syncWord e false true, syncWord e true false, syncWord e true true].Nodup := by
  simp only [Encoding.ok, Bool.and_eq_true, decide_eq_true_eq, and_assoc]

/-- Under a sound encoding each of the five opcodes spells its own command. -/
theorem commandOf_assigned {e : Encoding} (he : e.ok = true) (n : Nat) :
    commandOf e e.raw n = .raw n ∧ commandOf e e.rawRepeat n = .rawRepeat n ∧ commandOf e e.tmds n = .tmds n
      ∧ commandOf e e.tmdsRepeat n = .tmdsRepeat n ∧ commandOf e e.nop n = .nop n := by
  obtain ⟨hops, -⟩ := (Encoding.ok_iff e).1 he
  simp only [List.nodup_cons, List.mem_cons, List.not_mem_nil, or_false, not_or] at hops
  obtain ⟨⟨h01, h02, h03, h04⟩, ⟨h12, h13, h14⟩, ⟨h23, h24⟩, h34, -⟩ := hops
  simp [commandOf, Ne.symm h01, Ne.symm h02, Ne.symm h03, Ne.symm h04, Ne.symm h12, Ne.symm h13, Ne.symm h14,
    Ne.symm h23, Ne.symm h24, Ne.symm h34]

/-- In mode `CMD` a command word of a count that fits spells its opcode's command with that count. -/
theorem decodeWord_commandWord {e : Encoding} (he : e.ok = true) (fmt : PixelFormat) (op : BitVec 4) {n : Nat}
    (hn : countFits e n = true) : decodeWord e .cmd fmt (commandWord e op n) = commandOf e op n := by
  obtain ⟨-, -, hwidth, -⟩ := (Encoding.ok_iff e).1 he
  rw [decodeWord, decodeCommand_commandWord hwidth, Nat.mod_eq_of_lt (of_decide_eq_true hn)]

/-! ## Decoding what was encoded -/

/-- Every well-formed command decodes, in mode `CMD`, from its word. -/
theorem decodeWord_of_encode_command {e : Encoding} {i : Instr} {w : Word} (he : e.ok = true) (fmt : PixelFormat)
    (hk : i.kind = .command) (hwf : i.wf e = true) (hw : encode e i = some w) : decodeWord e .cmd fmt w = i := by
  cases i <;> cases hk <;> cases hw <;> simp only [Instr.wf, Bool.and_eq_true, bne_iff_ne] at hwf
  case raw n =>
    obtain ⟨h, -⟩ := commandOf_assigned he n
    rw [decodeWord_commandWord he fmt _ hwf, h]
  case rawRepeat n =>
    obtain ⟨-, h, -⟩ := commandOf_assigned he n
    rw [decodeWord_commandWord he fmt _ hwf, h]
  case tmds n =>
    obtain ⟨-, -, h, -⟩ := commandOf_assigned he n
    rw [decodeWord_commandWord he fmt _ hwf, h]
  case tmdsRepeat n =>
    obtain ⟨-, -, -, h, -⟩ := commandOf_assigned he n
    rw [decodeWord_commandWord he fmt _ hwf, h]
  case nop n =>
    obtain ⟨-, -, -, -, h⟩ := commandOf_assigned he n
    rw [decodeWord_commandWord he fmt _ hwf, h]
  case reserved47 op n =>
    rw [decodeWord_commandWord he fmt _ hwf.2, commandOf_of_reservedOpcode hwf.1, reservedOf_row47]
  case reserved8B op n =>
    rw [decodeWord_commandWord he fmt _ hwf.2, commandOf_of_reservedOpcode hwf.1, reservedOf_row8B]
  case reservedCD op n =>
    obtain ⟨⟨⟨⟨hres, hfit⟩, h1⟩, h2⟩, hE⟩ := hwf
    rw [decodeWord_commandWord he fmt _ hfit, commandOf_of_reservedOpcode hres, reservedOf_rowCD h1 h2 hE]
  case reservedE n =>
    rw [decodeWord_commandWord he fmt _ hwf.2, commandOf_of_reservedOpcode hwf.1]; rfl
  case cmdUpperBits => exact decodeCommand_of_upperField_ne_zero hwf

/-- Every well-formed control-data row decodes, in mode `RAWDATA`, from its word. -/
theorem decodeControl_of_encode {e : Encoding} {i : Instr} {w : Word} (he : e.ok = true) (hk : i.kind = .controlData)
    (hwf : i.wf e = true) (hw : encode e i = some w) : decodeControl e w = i := by
  obtain ⟨-, -, -, hsync⟩ := (Encoding.ok_iff e).1 he
  simp only [List.nodup_cons, List.mem_cons, List.not_mem_nil, or_false, not_or] at hsync
  obtain ⟨⟨h01, h02, h03⟩, ⟨h12, h13⟩, h23, -⟩ := hsync
  cases i <;> cases hk <;> cases hw
  case syncV0H0 => exact if_pos rfl
  case syncV0H1 => rw [decodeControl, if_neg (Ne.symm h01), if_pos rfl]
  case syncV1H0 => rw [decodeControl, if_neg (Ne.symm h02), if_neg (Ne.symm h12), if_pos rfl]
  case syncV1H1 =>
    rw [decodeControl, if_neg (Ne.symm h03), if_neg (Ne.symm h13), if_neg (Ne.symm h23), if_pos rfl]
  case ctlData =>
    simp only [Instr.wf, isSyncWord, Bool.not_eq_true', Bool.or_eq_false_iff, beq_eq_false_iff_ne] at hwf
    obtain ⟨⟨⟨h0, h1⟩, h2⟩, h3⟩ := hwf
    rw [decodeControl, if_neg h0, if_neg h1, if_neg h2, if_neg h3]

/-- A pixel row of the run's format decodes from its word. -/
theorem decodePixel_of_encode {e : Encoding} {fmt : PixelFormat} {i : Instr} {w : Word} (hk : i.kind = .pixel fmt)
    (hw : encode e i = some w) : decodePixel fmt w = i := by
  cases i <;> cases hk <;> cases hw
  case pixelWordP1 => exact decodePixel_p1 ..
  case pixelWordP2 => exact decodePixel_p2 ..

/-! ### The mode decides the kind (R100, R116) -/

theorem Kind.readIn_cmd {k : Kind} {fmt : PixelFormat} : k.readIn .cmd fmt = true ↔ k = .command := by
  cases k <;> simp [Kind.readIn]

theorem Kind.readIn_rawData {k : Kind} {n : Nat} {fmt : PixelFormat} :
    k.readIn (.rawData n) fmt = true ↔ k = .controlData := by
  cases k <;> simp [Kind.readIn]

theorem Kind.readIn_pixData {k : Kind} {n : Nat} {fmt : PixelFormat} :
    k.readIn (.pixData n) fmt = true ↔ k = .pixel fmt := by
  cases k <;> simp [Kind.readIn]

/-- Settles O1: one lemma for each mode that reads a word. -/
theorem decodeOfEncode : Obligations.DecodeOfEncode := by
  unfold Obligations.DecodeOfEncode
  intro e i w m fmt he hwf hw hread
  cases m with
  | cmd => exact decodeWord_of_encode_command he fmt (Kind.readIn_cmd.1 hread) hwf hw
  | rawData n => exact decodeControl_of_encode he (Kind.readIn_rawData.1 hread) hwf hw
  | pixData n => exact decodePixel_of_encode (Kind.readIn_pixData.1 hread) hw

/-! ## Encoding what was decoded -/

/-- The instruction spells the word: it encodes to it, is well formed, and is of a kind the mode reads. -/
structure Spells (e : Encoding) (m : SinkMode) (fmt : PixelFormat) (i : Instr) (w : Word) : Prop where
  encodes : encode e i = some w
  wf : i.wf e = true
  readIn : i.kind.readIn m fmt = true

/-- A reserved opcode's row spells its command word (R237). -/
theorem spells_reservedOf {e : Encoding} {op : BitVec 4} {n : Nat} (fmt : PixelFormat)
    (hres : reservedOpcode e op = true) (hn : countFits e n = true) :
    Spells e .cmd fmt (reservedOf op n) (commandWord e op n) := by
  unfold reservedOf
  split_ifs with h1 h2 hE
  · have hop : 0b01#2 ++ op.extractLsb' 0 2 = op := append_extractLsb'_of_high h1
    exact ⟨by rw [encode, hop], by rw [Instr.wf, hop, hres, hn]; rfl, rfl⟩
  · have hop : 0b10#2 ++ op.extractLsb' 0 2 = op := append_extractLsb'_of_high h2
    exact ⟨by rw [encode, hop], by rw [Instr.wf, hop, hres, hn]; rfl, rfl⟩
  · subst hE
    exact ⟨rfl, by rw [Instr.wf, hres, hn]; rfl, rfl⟩
  · exact ⟨rfl, by simp [Instr.wf, hres, hn, h1, h2, hE], rfl⟩

/-- Every opcode and count that fits spell their command word (R101, R102, R117). -/
theorem spells_commandOf {e : Encoding} (fmt : PixelFormat) (op : BitVec 4) {n : Nat} (hn : countFits e n = true) :
    Spells e .cmd fmt (commandOf e op n) (commandWord e op n) := by
  unfold commandOf
  split_ifs with hraw hrawRepeat htmds htmdsRepeat hnop
  · subst hraw; exact ⟨rfl, hn, rfl⟩
  · subst hrawRepeat; exact ⟨rfl, hn, rfl⟩
  · subst htmds; exact ⟨rfl, hn, rfl⟩
  · subst htmdsRepeat; exact ⟨rfl, hn, rfl⟩
  · subst hnop; exact ⟨rfl, hn, rfl⟩
  · exact spells_reservedOf fmt (by simp [reservedOpcode, *]) hn

theorem spells_decodeCommand (e : Encoding) (fmt : PixelFormat) (w : Word) :
    Spells e .cmd fmt (decodeCommand e w) w := by
  by_cases h : upperField e w = 0
  · have hspells := spells_commandOf fmt (opcodeField e w) (decide_eq_true (countField_lt (e := e) w))
    rwa [← eq_commandWord h, ← show decodeCommand e w = commandOf e _ _ from if_pos h] at hspells
  · rw [decodeCommand_of_upperField_ne_zero h]
    exact ⟨rfl, by simpa [Instr.wf] using h, rfl⟩

theorem spells_decodeControl (e : Encoding) (fmt : PixelFormat) (n : Nat) (w : Word) :
    Spells e (.rawData n) fmt (decodeControl e w) w := by
  unfold decodeControl
  split_ifs with h00 h01 h10 h11
  · subst h00; exact ⟨rfl, rfl, rfl⟩
  · subst h01; exact ⟨rfl, rfl, rfl⟩
  · subst h10; exact ⟨rfl, rfl, rfl⟩
  · subst h11; exact ⟨rfl, rfl, rfl⟩
  · exact ⟨rfl, by simp [Instr.wf, isSyncWord, h00, h01, h10, h11], rfl⟩

theorem spells_decodePixel (e : Encoding) (fmt : PixelFormat) (n : Nat) (w : Word) :
    Spells e (.pixData n) fmt (decodePixel fmt w) w := by
  cases fmt with
  | p1 => exact ⟨congrArg some (eq_pixels1 w), rfl, rfl⟩
  | p2 => exact ⟨congrArg some (eq_pixels2 w), rfl, rfl⟩

theorem spells_decodeWord (e : Encoding) (m : SinkMode) (fmt : PixelFormat) (w : Word) :
    Spells e m fmt (decodeWord e m fmt w) w := by
  cases m with
  | cmd => exact spells_decodeCommand e fmt w
  | rawData n => exact spells_decodeControl e fmt n w
  | pixData n => exact spells_decodePixel e fmt n w

/-- Settles O2: every word is spelled by what it decodes to. -/
theorem encodeOfDecode : Obligations.EncodeOfDecode := by
  unfold Obligations.EncodeOfDecode
  intro e m fmt w
  have h := spells_decodeWord e m fmt w
  exact ⟨h.encodes, h.wf, h.readIn⟩

/-! ## Words written out (95_test_vectors.md section 2.4) -/

/-- Settles O3: nine closed words. -/
theorem specWordsDecode : Obligations.SpecWordsDecode := by
  unfold Obligations.SpecWordsDecode
  decide

end Sys2Proof

namespace Sys2Proof.Machine

/-- Settles O4: with the four parameters given, the sequences are closed lists of words. -/
theorem romSequenceWords : Obligations.RomSequenceWords := by
  unfold Obligations.RomSequenceWords
  intro cfg he hh hv hpad
  simp only [romVsync, romVblank, romActive, blankSequence, hold, holdWords, syncLevels, nopWord, markerWord, he, hh, hv,
    hpad]
  decide

/-! ## Colours (R110-R112) -/

/-- The fields of a word of three fields. -/
theorem extractLsb'_of_append₃ {u v w : Nat} (x : BitVec u) (y : BitVec v) (z : BitVec w) :
    (x ++ y ++ z).extractLsb' (w + v) u = x ∧ (x ++ y ++ z).extractLsb' w v = y
      ∧ (x ++ y ++ z).extractLsb' 0 w = z := by
  refine ⟨?_, ?_, BitVec.extractLsb'_append_eq_right⟩
  · rw [BitVec.extractLsb'_append_eq_of_le (Nat.le_add_right w v), Nat.add_sub_cancel_left,
      BitVec.extractLsb'_append_eq_left]
  · rw [BitVec.extractLsb'_append_eq_of_le (Nat.le_refl w), Nat.sub_self, BitVec.extractLsb'_append_eq_right]

/-- Settles O6: `unpack` cuts each field out where `pack` put it. -/
theorem colourRoundTrip : Obligations.ColourRoundTrip := by
  unfold Obligations.ColourRoundTrip
  intro r g b
  obtain ⟨hr1, hg1, hb1⟩ := extractLsb'_of_append₃ (r.extractLsb' 6 2) (g.extractLsb' 5 3) (b.extractLsb' 5 3)
  obtain ⟨hr2, hg2, hb2⟩ := extractLsb'_of_append₃ (r.extractLsb' 3 5) (g.extractLsb' 2 6) (b.extractLsb' 3 5)
  exact ⟨Prod.ext hr1 (Prod.ext hg1 hb1), Prod.ext hr2 (Prod.ext hg2 hb2)⟩

end Sys2Proof.Machine

/-! The moves of the machine, said once: what state each completed step leaves, and under which conditions (R31, R272).
Every claim about all steps is a case analysis of `Move`. -/

namespace Sys2Proof.Machine

/-! ## The states the agents leave -/

/-- The state a transfer step of channel `c` leaves, having read `w` (R194). -/
def transferred (c : Chan) (w : Word) (s : State) : State :=
  ((s.push w).setChan c
      { s.chan c with cur := (s.chan c).cur + 4#32, remaining := (s.chan c).remaining - 1#32 }).record
    (.word c (s.chan c).cur w)

/-- The state a handler step for channel `c` leaves, its operation `k` having written the memory `m`, the descriptor
`(a, n)` and the flag (R160). -/
def handled (c : Chan) (k : Payload) (m : List Host.Cell) (a n : Word) (s : State) : State :=
  leaveHandler s c k ((((enterHandler c s).setMem m).setChan c (programmed (s.chan c) a n)).setHeaderPosted
    (flagAfter k s.ctl.headerPosted))

section Handled

variable (c : Chan) (k : Payload) (m : List Host.Cell) (a n : Word) (s : State)

@[simp] theorem handled_cfg : (handled c k m a n s).cfg = s.cfg := by simp [handled, leaveHandler_eq]
@[simp] theorem handled_mem : (handled c k m a n s).mem = m := by simp [handled, leaveHandler_eq]
@[simp] theorem handled_sink : (handled c k m a n s).sink = s.sink := by simp [handled, leaveHandler_eq]
@[simp] theorem handled_started : (handled c k m a n s).started = s.started := by simp [handled, leaveHandler_eq]
@[simp] theorem handled_setup : (handled c k m a n s).setup = s.setup := by simp [handled, leaveHandler_eq]
@[simp] theorem handled_enable0 : (handled c k m a n s).irq.enable0 = s.irq.enable0 := by
  simp [handled, leaveHandler_eq]
@[simp] theorem handled_enable1 : (handled c k m a n s).irq.enable1 = s.irq.enable1 := by
  simp [handled, leaveHandler_eq]
@[simp] theorem handled_chan_self : (handled c k m a n s).chan c = programmed (s.chan c) a n := by
  simp [handled, leaveHandler_eq]
@[simp] theorem handled_chan_other : (handled c k m a n s).chan c.other = s.chan c.other := by
  simp [handled, leaveHandler_eq]
@[simp] theorem handled_pending_self : (handled c k m a n s).pending c = false := by simp [handled, leaveHandler_eq]
@[simp] theorem handled_pending_other : (handled c k m a n s).pending c.other = s.pending c.other := by
  simp [handled, leaveHandler_eq]
@[simp] theorem handled_parity : (handled c k m a n s).ctl.parity = !s.ctl.parity := by simp [handled, leaveHandler_eq]
@[simp] theorem handled_headerPosted :
    (handled c k m a n s).ctl.headerPosted = flagAfter k s.ctl.headerPosted := by simp [handled, leaveHandler_eq]
@[simp] theorem handled_scanline :
    (handled c k m a n s).ctl.scanline = indexAfter (flagAfter k s.ctl.headerPosted) s.ctl.scanline := by
  simp [handled, leaveHandler_eq]
theorem events_prefix_handled : s.events <+: (handled c k m a n s).events := by
  simp [handled, leaveHandler_eq]

end Handled

/-! ## The moves -/

/-- A completed step of an agent, with the state it leaves before the next turn is drawn: the three setup steps
(R291-R293), the handler (R160), a channel's completion and transfer (R194, R196, R197), the sink (R231). -/
inductive Move (s : State) : Agent → State → Prop where
  | preload (hs : s.started = false) (hp : s.setup = .preload) : Move s .setup (preload s)
  | enableIrq (hs : s.started = false) (hp : s.setup = .enableIrq) : Move s .setup (enableIrq s)
  | start (hs : s.started = false) (hp : s.setup = .start) (hb : s.ch0.busy = false) (ha : s.ch0.armed = true) :
      Move s .setup (triggered .ch0 ((s.setStarted true).setSetup .done))
  | handle (c : Chan) (k : Payload) (m : List Host.Cell) (a n : Word) (hs : s.started = true)
      (hc : c = parityChannel s.ctl.parity) (hp : s.pending c = true)
      (hk : classify s.ctl.scanline s.ctl.headerPosted = k) (hb : (s.chan c).busy = false)
      (hhdr : k = .hdr → a = s.cfg.romActiveBase ∧ n = BitVec.ofNat 32 activeLength)
      (hwf : Memory.wf s.cfg s.mem = true → Memory.wf s.cfg m = true)
      (hbytes : ∀ x, (regionOf s.cfg x 1).map Region.kind ≠ some .scratch →
        readByte s.cfg m x = readByte s.cfg s.mem x) :
      Move s .controller (handled c k m a n s)
  | complete (c : Chan) (hs : s.started = true) (hb : (s.chan c).busy = true) (hr : (s.chan c).remaining = 0#32)
      (hob : (s.chan c.other).busy = false) (hoa : (s.chan c.other).armed = true) :
      Move s (.channel c) (triggered c.other (completeWrites c s))
  | transfer (c : Chan) (w : Word) (hs : s.started = true) (hb : (s.chan c).busy = true)
      (hr : (s.chan c).remaining ≠ 0#32) (hroom : s.sink.fifo.length < s.cfg.fifoDepth) :
      Move s (.channel c) (transferred c w s)
  | sink (w : Word) (rest : List Word) (l : List Symbol) (m : SinkMode) (hs : s.started = true)
      (hf : s.sink.fifo = w :: rest)
      (hw : perform (decodeWord s.cfg.enc s.sink.mode s.cfg.fmt w) (s.setFifo rest)
        = .done (((s.setFifo rest).emit l).setMode m)) :
      Move s .sink (((s.setFifo rest).emit l).setMode m)

theorem move_of_setupStep {s u : State} (hs : s.started = false) (h : setupStep s = .done u) : Move s .setup u := by
  rcases setupStep_done h with ⟨hp, rfl⟩ | ⟨hp, rfl⟩ | ⟨hp, ht⟩
  · exact .preload hs hp
  · exact .enableIrq hs hp
  · obtain ⟨hb, ha, rfl⟩ := (trigger_eq_done _ _).1 ht
    exact .start hs hp hb ha

theorem move_of_handlerStep {s u : State} (hs : s.started = true) (h : handlerStep s = .done u) :
    Move s .controller u := by
  obtain ⟨c, v, hc, hp, hop, rfl⟩ := handlerStep_done h
  obtain ⟨hb, m, a, n, hf, rfl, rfl, hhdr, hm⟩ := perform_op_done hop
  simp only [enterHandler_chan, enterHandler_headerPosted, enterHandler_cfg, enterHandler_mem] at hb hhdr hm ⊢
  refine .handle c _ m a n hs hc hp rfl hb hhdr ?_ ?_
  · rcases hm with rfl | ⟨-, -, hwf, -⟩
    · exact id
    · exact hwf
  · rcases hm with rfl | ⟨-, -, -, hx⟩
    · exact fun _ _ => rfl
    · exact hx

theorem move_of_complete {c : Chan} {s u : State} (hs : s.started = true) (hb : (s.chan c).busy = true)
    (hr : (s.chan c).remaining = 0#32) (h : complete c s = .done u) : Move s (.channel c) u := by
  obtain ⟨hob, hoa, rfl⟩ := (trigger_eq_done _ _).1 h
  rw [Chan.chainTo_eq, completeWrites_chan_other] at hob hoa
  exact .complete c hs hb hr hob hoa

/-- Every completed step of an enabled agent is a move. -/
theorem move_of_agentStep {s u : State} {a : Agent} (he : enabled s a = true) (h : agentStep a s = .done u) :
    Move s a u := by
  rcases agentStep_done he h with ⟨rfl, hs, h⟩ | ⟨rfl, hs, -, h⟩ | ⟨c, rfl, hs, hb, hr, h⟩
    | ⟨c, rfl, hs, hb, hr, hroom, h⟩ | ⟨rfl, hs, h⟩
  · exact move_of_setupStep hs h
  · exact move_of_handlerStep hs h
  · exact move_of_complete hs hb hr h
  · obtain ⟨w, -, rfl⟩ := transfer_eq_done.1 h
    exact .transfer c w hs hb hr hroom
  · obtain ⟨w, rest, l, m, hf, rfl, hw⟩ := sinkStep_done h
    exact .sink w rest l m hs hf hw

/-- A completed step of the machine is the mover's move, followed by the draw of the next turn. -/
theorem move_of_step {s t : State} (h : step s = .next t) :
    ∃ a u, mover s = some a ∧ Move s a u ∧ t = u.passTurn := by
  obtain ⟨-, a, u, hm, he, hu, rfl⟩ := step_next h
  exact ⟨a, u, hm, move_of_agentStep he hu, rfl⟩

/-! ## What the moves leave alone -/

section Preload

variable (s : State)

@[simp] theorem preload_cfg : (preload s).cfg = s.cfg := by simp [preload, preloadChan]
@[simp] theorem preload_mem : (preload s).mem = s.mem := by simp [preload, preloadChan]
@[simp] theorem preload_ctl : (preload s).ctl = s.ctl := by simp [preload, preloadChan]
@[simp] theorem preload_irq : (preload s).irq = s.irq := by simp [preload, preloadChan]
@[simp] theorem preload_sink : (preload s).sink = s.sink := by simp [preload, preloadChan]
@[simp] theorem preload_events : (preload s).events = s.events := by simp [preload, preloadChan]
@[simp] theorem preload_started : (preload s).started = s.started := by simp [preload, preloadChan]

end Preload

theorem move_cfg_eq {s u : State} {a : Agent} (h : Move s a u) : u.cfg = s.cfg := by
  cases h <;> simp [enableIrq, triggered, transferred]

/-- The controller alone writes memory. -/
theorem move_mem_eq {s u : State} {a : Agent} (h : Move s a u) (ha : a ≠ .controller) : u.mem = s.mem := by
  cases h
  case handle => exact absurd rfl ha
  all_goals simp [enableIrq, triggered, transferred]

/-- A move keeps memory's canonical form and every byte outside the scratch buffer. -/
theorem move_memory {s u : State} {a : Agent} (h : Move s a u) :
    (Memory.wf s.cfg s.mem = true → Memory.wf s.cfg u.mem = true)
      ∧ ∀ x, (regionOf s.cfg x 1).map Region.kind ≠ some .scratch →
          readByte s.cfg u.mem x = readByte s.cfg s.mem x := by
  by_cases ha : a = .controller
  · subst ha
    cases h with
    | handle c k m a n _ _ _ _ _ _ hwf hbytes => rw [handled_mem]; exact ⟨hwf, hbytes⟩
  · rw [move_mem_eq h ha]
    exact ⟨id, fun _ _ => rfl⟩

/-- Settles O55: every move keeps the form. -/
theorem stepKeepsMemoryCanonical : Obligations.StepKeepsMemoryCanonical := by
  unfold Obligations.StepKeepsMemoryCanonical
  intro s t hwf h
  obtain ⟨a, u, -, hmove, rfl⟩ := move_of_step h
  rw [State.passTurn_cfg, State.passTurn_mem, move_cfg_eq hmove]
  exact (move_memory hmove).1 hwf

/-- Settles O56: every move keeps the parameters and the bytes outside the scratch buffer. -/
theorem onlyScratchIsWritten : Obligations.OnlyScratchIsWritten := by
  unfold Obligations.OnlyScratchIsWritten
  intro s t h
  obtain ⟨a, u, -, hmove, rfl⟩ := move_of_step h
  rw [State.passTurn_cfg, State.passTurn_mem, move_cfg_eq hmove]
  exact ⟨rfl, (move_memory hmove).2⟩

/-- Settles O58: each move's output and event record extend the old ones. -/
theorem observationOnlyGrows : Obligations.ObservationOnlyGrows := by
  unfold Obligations.ObservationOnlyGrows
  intro s t h
  obtain ⟨a, u, -, hmove, rfl⟩ := move_of_step h
  cases hmove with
  | preload => simp
  | enableIrq => simp [enableIrq]
  | start => simp [triggered]
  | handle c k m a n => simpa using events_prefix_handled c k m a n s
  | complete => simp [triggered]
  | transfer => simp [transferred]
  | sink => simp

/-! ## The position (R142-R145, R150) -/

/-- The schedule's next position is the index and the flag that the payload's operation and the advance leave. -/
theorem nextPosition_eq {w : Word} {hp : Bool} {k : Payload} (hk : classify w hp = k) :
    nextPosition (w, hp) = (indexAfter (flagAfter k hp) w, flagAfter k hp) := by
  subst hk
  rw [nextPosition, payloadAt]
  cases classify w hp with
  | hdr => rfl
  | pix => rfl
  | vsync => cases hp <;> rfl
  | vblank => cases hp <;> rfl

theorem handled_position {s : State} {c : Chan} {k : Payload} {m : List Host.Cell} {a n : Word}
    (hk : classify s.ctl.scanline s.ctl.headerPosted = k) :
    (handled c k m a n s).position = nextPosition s.position := by
  rw [State.position, State.position, nextPosition_eq hk, handled_scanline, handled_headerPosted]

/-- Settles O11: the controller's move is the handler's. -/
theorem handlerFollowsSchedule : Obligations.HandlerFollowsSchedule := by
  unfold Obligations.HandlerFollowsSchedule
  intro s t hmover h
  obtain ⟨a, u, hm, hmove, rfl⟩ := move_of_step h
  cases hmover.symm.trans hm
  cases hmove with
  | handle c k m a n _ hc _ hk =>
    rw [← hc]
    exact ⟨handled_position hk, by simp⟩

/-! ## Ownership (10_state.md section 8) -/

/-- A move of another agent than the controller, after start, leaves the controller's registers and the descriptors
alone, sets no `armed` mark and clears no pending bit. -/
theorem move_descriptors {s u : State} {a : Agent} (h : Move s a u) (hs : s.started = true) (ha : a ≠ .controller) :
    u.ctl = s.ctl ∧ ∀ c, (u.chan c).src = (s.chan c).src ∧ (u.chan c).count = (s.chan c).count
      ∧ ((u.chan c).armed = true → (s.chan c).armed = true) ∧ (s.pending c = true → u.pending c = true) := by
  cases h with
  | preload hs' => simp [hs] at hs'
  | enableIrq hs' => simp [hs] at hs'
  | start hs' => simp [hs] at hs'
  | handle => exact absurd rfl ha
  | complete c =>
    refine ⟨by simp [triggered], fun d => ?_⟩
    rcases Chan.eq_or_other c d with rfl | rfl <;> simp [triggered]
  | transfer c =>
    refine ⟨by simp [transferred], fun d => ?_⟩
    rcases Chan.eq_or_other c d with rfl | rfl <;> simp [transferred]
  | sink => simp

/-- A channel's move appends to the FIFO, leaves the rest of the sink, and pends no other channel. -/
theorem move_channel_sink {s u : State} {c : Chan} (h : Move s (.channel c) u) :
    s.sink.fifo <+: u.sink.fifo ∧ u.sink.mode = s.sink.mode ∧ u.sink.out = s.sink.out
      ∧ u.pending c.other = s.pending c.other := by
  cases h with
  | complete => simp [triggered]
  | transfer => simp [transferred]

/-- The controller's move leaves the sink and the channels' live fields. -/
theorem move_controller_frame {s u : State} (h : Move s .controller u) :
    u.sink = s.sink ∧ ∀ c, (u.chan c).cur = (s.chan c).cur ∧ (u.chan c).remaining = (s.chan c).remaining
      ∧ (u.chan c).busy = (s.chan c).busy := by
  cases h with
  | handle c =>
    refine ⟨by simp, fun d => ?_⟩
    rcases Chan.eq_or_other c d with rfl | rfl <;> simp [programmed]

/-- Settles O57: one lemma for each agent's side. -/
theorem controllerIsSingleWriter : Obligations.ControllerIsSingleWriter := by
  unfold Obligations.ControllerIsSingleWriter
  intro s t hs h
  obtain ⟨a, u, hm, hmove, rfl⟩ := move_of_step h
  simp only [State.passTurn_ctl, State.passTurn_mem, State.passTurn_sink, State.passTurn_chan, State.passTurn_pending,
    hm, Option.some.injEq, ne_eq]
  refine ⟨fun ha => ?_, fun c hc => ?_, fun hc => ?_⟩
  · obtain ⟨hctl, hchan⟩ := move_descriptors hmove hs ha
    exact ⟨hctl, move_mem_eq hmove ha, hchan⟩
  · subst hc; exact move_channel_sink hmove
  · subst hc; exact move_controller_frame hmove

end Sys2Proof.Machine

/-! The engine's invariant (10_state.md section 10, 42_dma_feeder.md section 5): every move keeps it, and the faults it
rules out. -/

namespace Sys2Proof.Machine

/-! ## What the feeder's cycle says -/

/-- While channel `b` runs, a pending completion is the other channel's, and the parity flag names that one. -/
theorem eq_other_of_pending {s : State} {b c : Chan} (hb : feederAt s b = true) (hp : s.pending c = true) :
    c = b.other ∧ parityChannel s.ctl.parity = b.other ∧ (s.chan b.other).armed = false
      ∧ (s.ctl.headerPosted = true → insideHeader s.cfg (s.chan b) = true) := by
  obtain ⟨-, -, -, hpb, -, -, hcase⟩ := (feederAt_iff s b).1 hb
  obtain rfl | rfl := Chan.eq_or_other b c
  · simp [hp] at hpb
  · rcases hcase with ⟨-, hpo, -⟩ | ⟨ha, -, hpar, hin⟩
    · simp [hp] at hpo
    · exact ⟨rfl, hpar, ha, hin⟩

/-- The one busy channel is the one the cycle is at (R204). -/
theorem eq_of_busy {s : State} {b c : Chan} (hb : feederAt s b = true) (hc : (s.chan c).busy = true) : c = b := by
  obtain ⟨-, -, hob, -⟩ := (feederAt_iff s b).1 hb
  obtain rfl | rfl := Chan.eq_or_other b c
  · rfl
  · simp [hc] at hob

/-- While the other channel is armed, nothing is pending and a posted header is that channel's descriptor. -/
theorem armed_other_of_feederAt {s : State} {b : Chan} (hb : feederAt s b = true) (ha : (s.chan b.other).armed = true) :
    s.pending b.other = false ∧ parityChannel s.ctl.parity = b
      ∧ (s.ctl.headerPosted = true → (s.chan b.other).src = s.cfg.romActiveBase
          ∧ (s.chan b.other).count = BitVec.ofNat 32 activeLength) := by
  obtain ⟨-, -, -, -, -, -, ⟨-, hp, hpar, hdesc⟩ | ⟨hna, -⟩⟩ := (feederAt_iff s b).1 hb
  · exact ⟨hp, hpar, hdesc⟩
  · simp [ha] at hna

/-! ## The header's place (R312) -/

/-- A channel started on the header's descriptor has the whole header before it. -/
theorem insideHeader_of_descriptor {cfg : Config} {ch : Channel} (hc : ch.cur = cfg.romActiveBase)
    (hr : ch.remaining = BitVec.ofNat 32 activeLength) : insideHeader cfg ch = true := by
  rw [insideHeader_iff, hc, hr]
  exact ⟨by decide, rfl⟩

/-- Moving a word keeps the end of the words that remain. -/
theorem insideHeader_transfer {cfg : Config} {ch : Channel} (hr : ch.remaining ≠ 0#32)
    (h : insideHeader cfg ch = true) :
    insideHeader cfg { ch with cur := ch.cur + 4#32, remaining := ch.remaining - 1#32 } = true := by
  rw [insideHeader_iff] at h ⊢
  obtain ⟨hle, hend⟩ := h
  have hpos : ch.remaining.toNat ≠ 0 := fun h0 => hr (BitVec.eq_of_toNat_eq h0)
  simp only
  constructor
  · bv_omega
  · rw [← hend]; bv_omega

/-! ## Valid positions (R47 (a), (b)) -/

theorem validPosition_iff (p : Position) :
    validPosition p = true ↔ p.1.toNat < 525 ∧ (p.2 = true → 45 ≤ p.1.toNat) := by
  rw [validPosition, vTotal_eq, vActiveStart_eq]
  cases p.2 <;> simp

/-- From a valid position the flag is set only by the header operation, on an active line. -/
theorem hdr_of_flagAfter {p : Position} (hp : validPosition p = true) (hf : flagAfter (payloadAt p) p.2 = true) :
    payloadAt p = .hdr ∧ 45 ≤ p.1.toNat := by
  have hactive := ((validPosition_iff p).1 hp).2
  cases hk : payloadAt p with
  | hdr => exact ⟨rfl, (classify_hdr_imp hk).1⟩
  | pix => rw [hk] at hf; cases hf
  | vsync => rw [hk] at hf; have := classify_blank (.inl hk); have := hactive hf; omega
  | vblank => rw [hk] at hf; have := classify_blank (.inr hk); have := hactive hf; omega

theorem validPosition_nextPosition {p : Position} (hp : validPosition p = true) :
    validPosition (nextPosition p) = true := by
  rw [validPosition_iff, nextPosition_eq (k := payloadAt p) rfl]
  cases hf : flagAfter (payloadAt p) p.2 with
  | true => exact ⟨((validPosition_iff p).1 hp).1, fun _ => (hdr_of_flagAfter hp hf).2⟩
  | false => exact ⟨nextScanline_lt p.1, fun h => nomatch h⟩

/-! ## The moves of a started engine -/

/-- The handler reprograms the channel whose completion was pending, and the parity flag names the running one. -/
theorem feederAt_handled {s : State} {b c : Chan} {k : Payload} {a n : Word} (m : List Host.Cell)
    (hctl : controllerOk s = true) (hb : feederAt s b = true) (hp : s.pending c = true)
    (hk : classify s.ctl.scanline s.ctl.headerPosted = k)
    (hhdr : k = .hdr → a = s.cfg.romActiveBase ∧ n = BitVec.ofNat 32 activeLength) :
    feederAt (handled c k m a n s) b = true := by
  obtain ⟨rfl, hpar, -, -⟩ := eq_other_of_pending hb hp
  obtain ⟨hbusy, harm, hob, hpb, he0, he1, -⟩ := (feederAt_iff s b).1 hb
  have hchan := handled_chan_other b.other k m a n s
  have hpend := handled_pending_other b.other k m a n s
  rw [Chan.other_other] at hchan hpend
  have hheader : flagAfter k s.ctl.headerPosted = true →
      a = s.cfg.romActiveBase ∧ n = BitVec.ofNat 32 activeLength := fun hflag => by
    subst hk
    exact hhdr (hdr_of_flagAfter (p := s.position) hctl hflag).1
  rw [feederAt_iff]
  simpa [programmed, hchan, hpend, hbusy, harm, hob, hpb, he0, he1, hpar] using hheader

/-- A completion hands the run to the other channel, whose descriptor is the header's while the flag is set. -/
theorem feederAt_complete {s : State} {b : Chan} (hb : feederAt s b = true)
    (ha : (s.chan b.other).armed = true) : feederAt (triggered b.other (completeWrites b s)) b.other = true := by
  obtain ⟨hbusy, harm, hob, hpb, he0, he1, -⟩ := (feederAt_iff s b).1 hb
  obtain ⟨hp, hpar, hdesc⟩ := armed_other_of_feederAt hb ha
  have hheader : s.ctl.headerPosted = true →
      insideHeader s.cfg ((triggered b.other (completeWrites b s)).chan b.other) = true := fun hflag => by
    obtain ⟨hsrc, hcount⟩ := hdesc hflag
    exact insideHeader_of_descriptor (by simpa [triggered] using hsrc) (by simpa [triggered] using hcount)
  rw [feederAt_iff]
  simpa [triggered, harm, hp, hpar, he0, he1] using hheader

/-- A transfer of the running channel keeps the cycle. -/
theorem feederAt_transferred {s : State} {b : Chan} (w : Word) (hb : feederAt s b = true)
    (hr : (s.chan b).remaining ≠ 0#32) : feederAt (transferred b w s) b = true := by
  obtain ⟨hbusy, harm, hob, hpb, he0, he1, hcase⟩ := (feederAt_iff s b).1 hb
  rw [feederAt_iff]
  rcases hcase with ⟨hoa, hpo, hpar, hdesc⟩ | ⟨hoa, hpo, hpar, hin⟩
  · simpa [transferred, hbusy, harm, hob, hpb, he0, he1, hoa, hpo, hpar] using hdesc
  · have hheader := fun hflag => insideHeader_transfer hr (hin hflag)
    simpa [transferred, hbusy, harm, hob, hpb, he0, he1, hoa, hpo, hpar] using hheader

/-! ## The moves of the setup -/

theorem setupPhaseOk_preload {s : State} (h : setupPhaseOk s = true) : setupPhaseOk (preload s) = true := by
  rw [setupPhaseOk_iff] at h ⊢
  obtain ⟨hb0, hb1, hp0, hp1, hpar, hflag, -⟩ := h
  simp [preload, preloadChan, State.chan_ch0, State.chan_ch1, *]

theorem setupPhaseOk_enableIrq {s : State} (h : setupPhaseOk s = true) (hp : s.setup = .enableIrq) :
    setupPhaseOk (enableIrq s) = true := by
  rw [setupPhaseOk_iff] at h ⊢
  obtain ⟨hb0, hb1, -, -, hpar, hflag, -, harmed, -⟩ := h
  simp [enableIrq, *]

/-- The start step runs channel 0 on its descriptor, channel 1 armed and nothing pending. -/
theorem feederAt_start {s : State} (h : setupPhaseOk s = true) (hp : s.setup = .start) :
    feederAt (triggered .ch0 ((s.setStarted true).setSetup .done)) .ch0 = true := by
  obtain ⟨hb0, hb1, hp0, hp1, hpar, hflag, -, harmed, hen⟩ := (setupPhaseOk_iff s).1 h
  obtain ⟨-, ha1⟩ := harmed (.inr hp)
  obtain ⟨he0, he1⟩ := hen hp
  rw [feederAt_iff]
  simp [triggered, State.chan_ch0, State.chan_ch1, State.pending, parityChannel, *]

/-! ## The invariant -/

/-- Every move keeps the engine's invariant. -/
theorem engineOk_move {s u : State} {a : Agent} (hs : engineOk s = true) (h : Move s a u) : engineOk u = true := by
  cases h with
  | preload hns =>
    obtain ⟨hctl, hphase⟩ := (engineOk_not_started hns).1 hs
    refine (engineOk_not_started (by simpa using hns)).2 ⟨?_, setupPhaseOk_preload hphase⟩
    rwa [controllerOk_congr (s := s) (by simp) (by simp)]
  | enableIrq hns hp =>
    obtain ⟨hctl, hphase⟩ := (engineOk_not_started hns).1 hs
    exact (engineOk_not_started (s := enableIrq s) hns).2 ⟨hctl, setupPhaseOk_enableIrq hphase hp⟩
  | start hns hp =>
    obtain ⟨hctl, hphase⟩ := (engineOk_not_started hns).1 hs
    exact (engineOk_started rfl).2 ⟨hctl, rfl, .ch0, feederAt_start hphase hp⟩
  | handle c k m a n hst _ hp hk _ hhdr =>
    obtain ⟨hctl, hdone, b, hb⟩ := (engineOk_started hst).1 hs
    refine (engineOk_started (by simpa using hst)).2
      ⟨?_, by simpa using hdone, b, feederAt_handled m hctl hb hp hk hhdr⟩
    have hnext : validPosition (handled c k m a n s).position = true := by
      rw [handled_position hk]; exact validPosition_nextPosition hctl
    exact hnext
  | complete c hst hbusy _ _ hoa =>
    obtain ⟨hctl, hdone, b, hb⟩ := (engineOk_started hst).1 hs
    obtain rfl := eq_of_busy hb hbusy
    refine (engineOk_started (by simpa [triggered] using hst)).2 ⟨?_, by simpa [triggered] using hdone, _,
      feederAt_complete hb hoa⟩
    rwa [controllerOk_congr (s := s) (by simp [triggered]) (by simp [triggered])]
  | transfer c w hst hbusy hr _ =>
    obtain ⟨hctl, hdone, b, hb⟩ := (engineOk_started hst).1 hs
    obtain rfl := eq_of_busy hb hbusy
    refine (engineOk_started (by simpa [transferred] using hst)).2 ⟨?_, by simpa [transferred] using hdone, _,
      feederAt_transferred w hb hr⟩
    rwa [controllerOk_congr (s := s) (by simp [transferred]) (by simp [transferred])]
  | sink =>
    exact (engineOk_congr (s := s) rfl rfl rfl rfl rfl rfl rfl).trans hs

/-- Settles O48: a completed step is a move and a draw of the next turn. -/
theorem stepKeepsEngineOk : Obligations.StepKeepsEngineOk := by
  unfold Obligations.StepKeepsEngineOk
  intro s t hs h
  obtain ⟨a, u, -, hmove, rfl⟩ := move_of_step h
  rw [engineOk_passTurn]
  exact engineOk_move hs hmove

/-! ## The faults a step can meet under the invariant -/

theorem started_of_enabled {s : State} {a : Agent} (he : enabled s a = true) (ha : a ≠ .setup) : s.started = true := by
  cases a with
  | setup => exact absurd rfl ha
  | controller => exact (Bool.and_eq_true_iff.1 he).1
  | channel c => exact (Bool.and_eq_true_iff.1 he).1
  | sink => exact (Bool.and_eq_true_iff.1 he).1

theorem busy_of_enabled {s : State} {c : Chan} (he : enabled s (.channel c) = true) : (s.chan c).busy = true := by
  rcases Bool.or_eq_true_iff.1 (Bool.and_eq_true_iff.1 he).2 with h | h
  · simp only [transferEnabled, Bool.and_eq_true] at h
    obtain ⟨⟨⟨hb, -⟩, -⟩, -⟩ := h
    exact hb
  · exact (Bool.and_eq_true_iff.1 h).1

/-- The interrupt line is asserted by a pending completion (R40). -/
theorem pending_of_irqLine {s : State} (h : irqLine s = true) : ∃ c, s.pending c = true := by
  rcases Bool.or_eq_true_iff.1 h with h | h
  · exact ⟨.ch0, (Bool.and_eq_true_iff.1 h).1⟩
  · exact ⟨.ch1, (Bool.and_eq_true_iff.1 h).1⟩

/-- The faults a step can meet from a state with the engine's invariant. A race needs a posted header, whose pixel row is
then being copied. -/
inductive EngineFault (s : State) : Fault → Prop where
  | stuck : EngineFault s .stuck
  | underrun (c : Chan) : EngineFault s (.underrun c)
  | zeroCount (c : Chan) : EngineFault s (.zeroCount c)
  | misaligned (c : Chan) (a : Word) : EngineFault s (.misaligned c a)
  | unwrittenRead (who : Reader) (a : Word) : EngineFault s (.unwrittenRead who a)
  | rowRange (r : Nat) : EngineFault s (.rowRange r)
  | scratchRace (k : Chan) (hf : s.cfg.fmt = .p1) (hk : stillReadsScratch s k)
      (hin : insideHeader s.cfg (s.chan k) = true) : EngineFault s (.scratchRace k)

theorem engineFault_of_setupStep {s u : State} {f : Fault} (hs : engineOk s = true) (hns : s.started = false)
    (h : setupStep s = .fault f u) : EngineFault s f := by
  obtain ⟨-, hphase⟩ := (engineOk_not_started hns).1 hs
  obtain ⟨hb0, -⟩ := (setupPhaseOk_iff s).1 hphase
  unfold setupStep at h
  split at h
  · cases h
  · cases h
  · obtain ⟨-, ⟨hb, -⟩ | ⟨-, -, rfl⟩⟩ := (trigger_eq_fault _ _).1 h
    · simp [State.chan_ch0, hb0] at hb
    · exact .underrun _
  · cases h; exact .stuck

theorem engineFault_of_channelStep {s u : State} {b c : Chan} {f : Fault} (hb : feederAt s b = true)
    (hc : (s.chan c).busy = true) (h : channelStep c s = .fault f u) : EngineFault s f := by
  obtain rfl := eq_of_busy hb hc
  obtain ⟨-, -, hob, -⟩ := (feederAt_iff s _).1 hb
  unfold channelStep at h
  split at h
  · obtain ⟨-, ⟨hbusy, -⟩ | ⟨-, -, rfl⟩⟩ := (trigger_eq_fault _ _).1 h
    · simp [hob] at hbusy
    · exact .underrun _
  · obtain rfl | rfl | ⟨a, rfl⟩ := transfer_fault h
    · exact .misaligned ..
    · exact .stuck
    · exact .unwrittenRead ..

theorem engineFault_of_handlerStep {s u : State} {b : Chan} {f : Fault} (hb : feederAt s b = true)
    (hline : irqLine s = true) (h : handlerStep s = .fault f u) : EngineFault s f := by
  obtain ⟨d, hd⟩ := pending_of_irqLine hline
  obtain ⟨rfl, hpar, -, hheader⟩ := eq_other_of_pending hb hd
  obtain ⟨-, -, hob, -⟩ := (feederAt_iff s b).1 hb
  rcases handlerStep_fault h with ⟨hp, -⟩ | ⟨c, rfl, -, hop⟩
  · rw [hpar, hd] at hp; cases hp
  · rcases perform_op_fault hop with ⟨hbusy, -⟩ | rfl | ⟨-, -, rfl⟩ | ⟨hpix, hf, k, rfl, hrace⟩ | ⟨e, rfl⟩
    · simp [hpar, hob] at hbusy
    · exact .zeroCount _
    · exact .rowRange _
    · have hreads : stillReadsScratch s k := by
        simpa [stillReadsScratch] using racingChannel_reads hf hrace
      obtain rfl := eq_of_busy hb hreads.1
      exact .scratchRace _ (by simpa using hf) hreads (hheader (classify_pix_imp hpix).2)
    · exact .unwrittenRead ..

theorem engineFault_of_step {s : State} {f : Fault} (hs : engineOk s = true) (hf : s.fault = none)
    (h : step s = .fault f) : EngineFault s f := by
  rcases step_fault h with hmark | rfl | ⟨a, u, -, he, ha⟩
  · rw [hf] at hmark; cases hmark
  · exact .stuck
  · by_cases hsetup : a = .setup
    · subst hsetup
      exact engineFault_of_setupStep hs (enabled_setup_iff.1 he).1 ha
    · have hst := started_of_enabled he hsetup
      obtain ⟨-, -, b, hb⟩ := (engineOk_started hst).1 hs
      cases a with
      | setup => exact absurd rfl hsetup
      | controller => exact engineFault_of_handlerStep hb (Bool.and_eq_true_iff.1 he).2 ha
      | channel c => exact engineFault_of_channelStep hb (busy_of_enabled he) ha
      | sink => exact absurd ha (sinkStep_not_fault (by simpa [enabled, hst] using he))

/-- Settles O50: none of the three is an `EngineFault`. -/
theorem engineNeverDesyncs : Obligations.EngineNeverDesyncs := by
  unfold Obligations.EngineNeverDesyncs
  refine fun s hs hf => ⟨fun c h => ?_, fun c h => ?_, fun p a b h => ?_⟩
  · cases engineFault_of_step hs hf h
  · cases engineFault_of_step hs hf h
  · cases engineFault_of_step hs hf h

/-! ## The race (R148, R312) -/

theorem rowBytes_p1 {cfg : Config} (hf : cfg.fmt = .p1) : rowBytes cfg = 640 := by
  simp [rowBytes, bpp, hf, Config.hAct]

/-- Under a correct placement the scratch buffer does not wrap. -/
theorem scratch_end_le {cfg : Config} (hp : placementOk cfg = true) (hf : cfg.fmt = .p1) :
    cfg.scratchBase.toNat + 640 ≤ 2 ^ 32 := by
  have hmem : ⟨.scratch, cfg.scratchBase.toNat, rowBytes cfg⟩ ∈ regions cfg := by simp [regions, hf]
  simpa [rowBytes_p1 hf] using region_end_le_of_placementOk hp hmem

/-- No byte of the header sequence lies in the scratch buffer. -/
theorem header_apart_scratch {cfg : Config} (hp : placementOk cfg = true) (hf : cfg.fmt = .p1) {i j : Nat} (hi : i < 36)
    (hj : j < 640) : cfg.romActiveBase.toNat + i ≠ cfg.scratchBase.toNat + j := fun he => by
  have hheader : regionOf cfg (cfg.romActiveBase.toNat + i) 1 = some ⟨.romActive, cfg.romActiveBase.toNat, 36⟩ :=
    regionOf_eq_some_of_placementOk hp Nat.one_pos (storesWords_romActive cfg).mem
      ((Region.holds_iff ..).2 (by simp only; omega))
  have hscratch := regionOf_scratchBase_add hp hf hj
  rw [← he, hheader] at hscratch
  cases hscratch

/-- A channel inside the header sequence reads no scratch byte. -/
theorem not_stillReadsScratch_of_insideHeader {s : State} {k : Chan} (hp : placementOk s.cfg = true)
    (hf : s.cfg.fmt = .p1) (hin : insideHeader s.cfg (s.chan k) = true) : ¬ stillReadsScratch s k := by
  rintro ⟨-, i, j, hi, hj, he⟩
  obtain ⟨hle, hend⟩ := (insideHeader_iff _ _).1 hin
  have hheader := region_end_le_of_placementOk hp (storesWords_romActive s.cfg).mem
  have hscratch := scratch_end_le hp hf
  have h9 : activeLength = 9 := rfl
  rw [h9] at hheader
  simp only at hheader
  refine header_apart_scratch hp hf (i := 36 - 4 * (s.chan k).remaining.toNat + i) (by omega) hj ?_
  bv_omega

/-- Settles O51: the channel a row's copy could race with is inside the header sequence. -/
theorem scratchRaceUnreachable : Obligations.ScratchRaceUnreachable := by
  unfold Obligations.ScratchRaceUnreachable
  intro s k hs hp hf h
  cases engineFault_of_step hs hf h with
  | scratchRace _ hfmt hk hin => exact not_stillReadsScratch_of_insideHeader hp hfmt hin hk

/-! ## The missed deadline (R197, R310) -/

/-- Settles O52: a pending completion's channel is neither busy nor armed, so its trigger is the missed deadline. -/
theorem missedDeadlineFaults : Obligations.MissedDeadlineFaults := by
  unfold Obligations.MissedDeadlineFaults
  intro s b hs hu hm hr hp
  have he := mover_enabled hm
  obtain ⟨-, -, b', hb⟩ := (engineOk_started (started_of_enabled he (by simp))).1 hs
  obtain rfl := eq_of_busy hb (busy_of_enabled he)
  obtain ⟨-, -, hob, -⟩ := (feederAt_iff s _).1 hb
  obtain ⟨-, -, hoa, -⟩ := eq_other_of_pending hb hp
  rw [step_of_completion hu hm hr,
    trigger_of_unarmed (by rwa [completeWrites_chan_other]) (by rwa [completeWrites_chan_other])]
  rfl

/-! ## No deadlock (R270) -/

/-- Settles O53: the busy channel can complete or move a word, or the FIFO is full and the sink can pop. -/
theorem someAgentCanMove : Obligations.SomeAgentCanMove := by
  unfold Obligations.SomeAgentCanMove
  intro s hs hu hst hdepth hread
  obtain ⟨-, -, b, hb⟩ := (engineOk_started hst).1 hs
  obtain ⟨hbusy, -⟩ := (feederAt_iff s b).1 hb
  by_cases hr : (s.chan b).remaining = 0#32
  · exact mover_isSome (a := .channel b) (by simp [enabled, hst, completeEnabled, hbusy, hr])
  · by_cases hroom : s.sink.fifo.length < s.cfg.fifoDepth
    · exact mover_isSome (a := .channel b)
        (by simp [enabled, hst, transferEnabled, fifoHasRoom, hbusy, hr, hroom, hread b hbusy hr])
    · have hne : s.sink.fifo ≠ [] := fun h => by rw [h] at hroom; simp at hroom; omega
      exact mover_isSome (a := .sink) (by simp [enabled, hst, hne])

/-! ## The five invariants (R47) -/

/-- Settles O49: the two channels' clauses from the cycle at the one busy channel. -/
theorem engineOkGivesTheFive : Obligations.EngineOkGivesTheFive := by
  unfold Obligations.EngineOkGivesTheFive
  intro s hs hst
  obtain ⟨hctl, -, b, hb⟩ := (engineOk_started hst).1 hs
  obtain ⟨hbusy, -, hob, hpb, -⟩ := (feederAt_iff s b).1 hb
  obtain ⟨hlt, hactive⟩ := (controllerOk_iff s).1 hctl
  refine ⟨hlt, hactive, ?_, ?_, ?_, fun hline => ?_⟩
  · rintro ⟨h0, h1⟩
    cases b
    · rw [State.pending, h0] at hpb; cases hpb
    · rw [State.pending, h1] at hpb; cases hpb
  · rintro ⟨h0, h1⟩
    cases eq_of_busy (c := .ch0) hb h0
    cases eq_of_busy (c := .ch1) hb h1
  · cases b
    · exact .inl hbusy
    · exact .inr hbusy
  · obtain ⟨d, hd⟩ := pending_of_irqLine hline
    obtain ⟨-, hpar, -⟩ := eq_other_of_pending hb hd
    rw [hpar, hob]

end Sys2Proof.Machine

/-! The sink (43_sink_commands.md): which words run (R240, R241), the words' frames, the sink's invariant (R41), and the
symbols of a line (R242). -/

namespace Sys2Proof.Machine

/-! ## Each kind of word (R100) -/

/-- Every control-data row is the hold of some word (R238). -/
theorem perform_controlData {i : Instr} (hk : i.kind = .controlData) (s : State) : ∃ w, perform i s = holdData w s := by
  cases i <;> cases hk <;> exact ⟨_, rfl⟩

/-- Every pixel row is `PixelData` of its format for some pixels (R239). -/
theorem perform_pixel {i : Instr} {fmt : PixelFormat} (hk : i.kind = .pixel fmt) (s : State) :
    ∃ px, perform i s = pixelData fmt px s := by
  cases i <;> cases hk <;> exact ⟨_, rfl⟩

theorem inCmd_of_ne {s : State} (h : s.sink.mode ≠ .cmd) (r : Res) : inCmd s r = .refuse .notInMode s := by
  unfold inCmd
  split
  · rename_i hm; exact absurd hm h
  · rfl
  · rfl

theorem holdData_of_ne {s : State} (h : ∀ n, s.sink.mode ≠ .rawData n) (w : Word) :
    holdData w s = .refuse .notInMode s := by
  unfold holdData
  split
  · rename_i n hm; exact absurd hm (h n)
  · rfl
  · rfl

/-- A pixel word that the mode or the run's format does not read is refused (R100). -/
theorem pixelData_of_not_readIn {s : State} {fmt : PixelFormat}
    (h : (Kind.pixel fmt).readIn s.sink.mode s.cfg.fmt = false) (px : List Symbol) :
    pixelData fmt px s = .refuse .notInMode s := by
  unfold pixelData
  split
  · rename_i n hm
    rw [hm] at h
    exact if_pos fun hf => by simp [Kind.readIn, hf] at h
  · rfl
  · rfl

theorem pixelData_partial {s : State} {n : Nat} (hm : s.sink.mode = .pixData n) (hn : n < ppw s.cfg) (px : List Symbol) :
    pixelData s.cfg.fmt px s = .refuse .tmdsPartialWord s := by
  simp [pixelData, hm, hn]

/-- Outside mode `CMD` every command is refused. -/
theorem perform_command_of_ne {i : Instr} {s : State} (hk : i.kind = .command) (h : s.sink.mode ≠ .cmd) :
    ∃ r, perform i s = .refuse r s := by
  cases i <;> cases hk
  case rawRepeat => exact ⟨_, inCmd_of_ne h _⟩
  case tmds => exact ⟨_, inCmd_of_ne h _⟩
  case nop => exact ⟨_, inCmd_of_ne h _⟩
  all_goals exact ⟨_, rfl⟩

/-- A word that the mode or the run's format does not read is refused. -/
theorem perform_of_not_readIn {i : Instr} {s : State} (hk : i.kind ≠ .operation)
    (h : i.kind.readIn s.sink.mode s.cfg.fmt = false) : ∃ r, perform i s = .refuse r s := by
  cases hkind : i.kind with
  | command => exact perform_command_of_ne hkind fun hm => by simp [hkind, hm, Kind.readIn] at h
  | controlData =>
    obtain ⟨w, hw⟩ := perform_controlData hkind s
    exact ⟨_, hw.trans (holdData_of_ne (fun n hm => by simp [hkind, hm, Kind.readIn] at h) w)⟩
  | pixel fmt =>
    obtain ⟨px, hpx⟩ := perform_pixel hkind s
    exact ⟨_, hpx.trans (pixelData_of_not_readIn (by rwa [← hkind]) px)⟩
  | operation => exact absurd hkind hk

/-- The active row of an index below 45, taken modulo 2^32 (log entry 23). -/
theorem activeRow_below {w : Word} (h : w.toNat < 45) : activeRow w = w.toNat + (2 ^ 32 - 45) := by
  have h45 : (BitVec.ofNat 32 Config.vActiveStart).toNat = 45 := rfl
  rw [activeRow, BitVec.toNat_sub, h45]
  omega

/-- Settles O23: the row past the asset, the words by their kind, the partial word by its pixels. -/
theorem wordsRefusedOutsideTheirMode : Obligations.WordsRefusedOutsideTheirMode := by
  unfold Obligations.WordsRefusedOutsideTheirMode
  refine ⟨fun c s hs hrow => ?_, fun i s hk => ⟨fun h => ?_, fun n hm hn hkind => ?_⟩⟩
  · rw [← activeRow_below hs] at hrow ⊢
    exact exec_opPix_of_rowMap_none c (rowMap_past hrow)
  · obtain ⟨r, hr⟩ := perform_of_not_readIn hk h
    exact ⟨r, exec_of_refuse hr⟩
  · obtain ⟨px, hpx⟩ := perform_pixel hkind s
    exact exec_of_refuse (hpx.trans (pixelData_partial hm hn px))

/-! ## Admission (R116-R118, R240, R241) -/

/-- In mode `CMD` an admitted command completes. -/
theorem perform_of_admitted {i : Instr} {s : State} (hm : s.sink.mode = .cmd) (hk : i.kind = .command)
    (h : admitted s.cfg i = true) : ∃ t, perform i s = .done t := by
  cases i <;> cases hk <;> simp only [admitted, Bool.false_eq_true, Bool.and_eq_true, bne_iff_ne, beq_iff_eq] at h
  case rawRepeat n => exact ⟨_, rawRepeatRes_eq_done.2 ⟨hm, h, rfl⟩⟩
  case tmds n => exact ⟨_, tmdsRes_eq_done.2 ⟨hm, h.1, by simpa [wholeWords] using h.2, rfl⟩⟩
  case nop n => exact ⟨_, nopRes_eq_done.2 ⟨hm, h, rfl⟩⟩

/-- In mode `CMD` a command that is not admitted is refused. -/
theorem perform_of_not_admitted {i : Instr} {s : State} (hm : s.sink.mode = .cmd) (hk : i.kind = .command)
    (h : admitted s.cfg i = false) : ∃ r, perform i s = .refuse r s := by
  cases i <;> cases hk
  case rawRepeat n =>
    have hn : n = 0 := by simpa [admitted] using h
    exact ⟨_, hn ▸ rawRepeatRes_zero hm⟩
  case tmds n =>
    by_cases hn : n = 0
    · exact ⟨_, hn ▸ tmdsRes_zero hm⟩
    · exact ⟨_, tmdsRes_partial hm (by simpa [admitted, wholeWords, hn] using h)⟩
  case nop n => exact ⟨_, nopRes_nonzero hm (by simpa [admitted] using h)⟩
  all_goals exact ⟨_, rfl⟩

theorem decodeWord_cmd_kind (e : Encoding) (fmt : PixelFormat) (w : Word) :
    (decodeWord e .cmd fmt w).kind = .command := Kind.readIn_cmd.1 (spells_decodeCommand e fmt w).readIn

/-- Settles O26: the admission decides; an opcode no command has and an upper bit give the refusal its name. -/
theorem sinkAdmitsExactly : Obligations.SinkAdmitsExactly := by
  unfold Obligations.SinkAdmitsExactly
  refine fun w s hm => ⟨fun h => ?_, fun h => ?_, fun hup hres => ?_, fun hup => ?_⟩
  · obtain ⟨t, ht⟩ := perform_of_admitted hm (decodeWord_cmd_kind ..) h
    exact ⟨t, exec_eq_next.2 ht⟩
  · obtain ⟨r, hr⟩ := perform_of_not_admitted hm (decodeWord_cmd_kind ..) h
    exact ⟨r, exec_of_refuse hr⟩
  · rw [decodeWord, decodeCommand, if_pos hup]
    exact exec_reservedOpcode hres _ s
  · rw [decodeWord, decodeCommand_of_upperField_ne_zero hup]
    exact exec_of_refuse rfl

/-! ## Frames -/

/-- Settles O29: a completed command is a change of mode, and the no-op not even that. -/
theorem commandFrame : Obligations.CommandFrame := by
  unfold Obligations.CommandFrame
  intro i n s t hi h
  rw [exec_eq_next] at h
  rcases hi with rfl | rfl | rfl
  · obtain ⟨-, -, rfl⟩ := rawRepeatRes_eq_done.1 h
    simp
  · obtain ⟨-, -, -, rfl⟩ := tmdsRes_eq_done.1 h
    simp
  · obtain ⟨-, -, rfl⟩ := nopRes_eq_done.1 h
    simp

/-- Settles O30: a completed word appends to the output and sets the mode. -/
theorem dataWordFrame : Obligations.DataWordFrame := by
  unfold Obligations.DataWordFrame
  intro i s t hk h
  have hword : i.kind ≠ .operation := by rcases hk with hk | hk | hk <;> simp [hk]
  obtain ⟨l, m, rfl⟩ := perform_word_done hword (exec_eq_next.1 h)
  simp

/-! ## The sink's invariant (R41, R103, R232, R233) -/

/-- A completed well-formed command keeps the sink's invariant: the count it sets fits its field and is admitted. -/
theorem sinkOk_command {i : Instr} {s t : State} (hk : i.kind = .command) (hwf : i.wf s.cfg.enc = true)
    (hs : sinkOk s = true) (h : perform i s = .done t) : sinkOk t = true := by
  obtain ⟨hfifo, -⟩ := (sinkOk_iff s).1 hs
  cases i <;> cases hk
  case rawRepeat n =>
    obtain ⟨-, hn, rfl⟩ := rawRepeatRes_eq_done.1 h
    refine (sinkOk_iff _).2 ⟨hfifo, fun j hj => ?_, fun j hj => by cases hj⟩
    cases hj
    exact ⟨Nat.pos_of_ne_zero hn, of_decide_eq_true hwf⟩
  case tmds n =>
    obtain ⟨-, hn, hmod, rfl⟩ := tmdsRes_eq_done.1 h
    refine (sinkOk_iff _).2 ⟨hfifo, fun j hj => (by cases hj), fun j hj => ?_⟩
    cases hj
    exact ⟨Nat.pos_of_ne_zero hn, of_decide_eq_true hwf, hmod⟩
  case nop n =>
    obtain ⟨-, -, rfl⟩ := nopRes_eq_done.1 h
    exact hs
  all_goals cases h

/-- So does a pixel word: it takes whole words off the count. -/
theorem sinkOk_pixelData {fmt : PixelFormat} {px : List Symbol} {s t : State} (hs : sinkOk s = true)
    (h : pixelData fmt px s = .done t) : sinkOk t = true := by
  obtain ⟨hfifo, -, hpix⟩ := (sinkOk_iff s).1 hs
  obtain ⟨n, hm, -, hle, rfl⟩ := pixelData_eq_done.1 h
  obtain ⟨-, hlt, hmod⟩ := hpix n hm
  refine (sinkOk_iff _).2 ⟨hfifo, fun j hj => absurd hj (modeAfterPixels_ne_rawData _ _ _), fun j hj => ?_⟩
  obtain ⟨rfl, hpos⟩ := modeAfterPixels_eq_pixData.1 hj
  exact ⟨hpos, Nat.lt_of_le_of_lt (Nat.sub_le ..) hlt,
    Nat.mod_eq_zero_of_dvd (Nat.dvd_sub (Nat.dvd_of_mod_eq_zero hmod) (Nat.dvd_refl _))⟩

/-- A completed well-formed word keeps the sink's invariant. -/
theorem sinkOk_perform {i : Instr} {s t : State} (hk : i.kind ≠ .operation) (hwf : i.wf s.cfg.enc = true)
    (hs : sinkOk s = true) (h : perform i s = .done t) : sinkOk t = true := by
  cases hkind : i.kind with
  | command => exact sinkOk_command hkind hwf hs h
  | controlData =>
    obtain ⟨w, hw⟩ := perform_controlData hkind s
    obtain ⟨n, -, rfl⟩ := holdData_eq_done.1 (hw.symm.trans h)
    exact (sinkOk_iff _).2 ⟨((sinkOk_iff s).1 hs).1, fun j hj => (by cases hj), fun j hj => by cases hj⟩
  | pixel fmt =>
    obtain ⟨px, hpx⟩ := perform_pixel hkind s
    exact sinkOk_pixelData hs (hpx.symm.trans h)
  | operation => exact absurd hkind hk

/-- The sink's invariant reads the parameters and the sink, nothing else. -/
theorem sinkOk_congr {s t : State} (hc : t.cfg = s.cfg) (hs : t.sink = s.sink) : sinkOk t = sinkOk s := by
  rw [sinkOk, sinkOk, hc, hs]

/-- With a shorter FIFO, and the mode as it was, the invariant stays. -/
theorem sinkOk_setFifo {s : State} {ws : List Word} (hs : sinkOk s = true) (hws : ws.length ≤ s.cfg.fifoDepth) :
    sinkOk (s.setFifo ws) = true := by
  obtain ⟨-, hraw, hpix⟩ := (sinkOk_iff s).1 hs
  exact (sinkOk_iff _).2 ⟨hws, hraw, hpix⟩

/-- Every move keeps the sink's invariant. -/
theorem sinkOk_move {s u : State} {a : Agent} (hs : sinkOk s = true) (h : Move s a u) : sinkOk u = true := by
  cases h with
  | preload => rwa [sinkOk_congr (preload_cfg s) (preload_sink s)]
  | enableIrq => exact hs
  | start => rwa [sinkOk_congr (s := s) (by simp [triggered]) (by simp [triggered])]
  | handle => rwa [sinkOk_congr (handled_cfg ..) (handled_sink ..)]
  | complete => rwa [sinkOk_congr (s := s) (by simp [triggered]) (by simp [triggered])]
  | transfer c w _ _ _ hroom =>
    rw [sinkOk_congr (s := s.push w) (by simp [transferred]) (by simp [transferred])]
    exact sinkOk_setFifo (ws := s.sink.fifo ++ [w]) hs (by simpa using hroom)
  | sink w rest l m _ hf hw =>
    obtain ⟨hfifo, -⟩ := (sinkOk_iff s).1 hs
    have hrest : rest.length ≤ s.cfg.fifoDepth := by rw [hf, List.length_cons] at hfifo; omega
    exact sinkOk_perform (s := s.setFifo rest) (decodeWord_kind _ _ _ _) (spells_decodeWord ..).wf
      (sinkOk_setFifo hs hrest) hw

/-- Settles O54: a completed step is a move and a draw of the next turn. -/
theorem stepKeepsSinkOk : Obligations.StepKeepsSinkOk := by
  unfold Obligations.StepKeepsSinkOk
  intro s t hs h
  obtain ⟨a, u, -, hmove, rfl⟩ := move_of_step h
  exact (sinkOk_congr (s := u) rfl rfl).trans (sinkOk_move hs hmove)

/-! ## Runs of sink steps (R231) -/

/-- In mode `m` the words `ws` at the head of the FIFO emit the symbols `l` and leave mode `m'`. -/
def Emits (cfg : Config) (m : SinkMode) (ws : List Word) (l : List Symbol) (m' : SinkMode) : Prop :=
  ∀ (s : State) (rest : List Word), s.cfg = cfg → s.sink.mode = m → s.sink.fifo = ws ++ rest →
    sinkRun ws.length s = .done (((s.setFifo rest).emit l).setMode m')

theorem sinkRun_add (m n : Nat) (s : State) : sinkRun (m + n) s = (sinkRun m s).andThen (sinkRun n) := by
  induction m generalizing s with
  | zero => rw [Nat.zero_add]; rfl
  | succ m ih =>
    rw [Nat.add_right_comm, sinkRun, sinkRun]
    cases sinkStep s with
    | done t => exact ih t
    | fault f t => rfl
    | refuse r t => rfl

theorem Emits.append {cfg : Config} {m m' m'' : SinkMode} {ws ws' : List Word} {l l' : List Symbol}
    (h : Emits cfg m ws l m') (h' : Emits cfg m' ws' l' m'') : Emits cfg m (ws ++ ws') (l ++ l') m'' := by
  intro s rest hc hm hf
  rw [List.append_assoc] at hf
  rw [List.length_append, sinkRun_add, h s (ws' ++ rest) hc hm hf, Res.done_andThen,
    h' (((s.setFifo (ws' ++ rest)).emit l).setMode m') rest hc rfl rfl]
  simp [State.emit, State.setMode, State.setFifo]

theorem emits_nil (cfg : Config) (m : SinkMode) : Emits cfg m [] [] m := by
  rintro s rest - rfl hf
  rw [List.nil_append] at hf
  subst hf
  simp [sinkRun, State.emit, State.setMode, State.setFifo]

/-- One word: what its meaning in the mode leaves. -/
theorem emits_word {cfg : Config} {m m' : SinkMode} {w : Word} {l : List Symbol}
    (h : ∀ s : State, s.cfg = cfg → s.sink.mode = m →
      perform (decodeWord cfg.enc m cfg.fmt w) s = .done ((s.emit l).setMode m')) : Emits cfg m [w] l m' := by
  rintro s rest rfl rfl hf
  have hstep : sinkStep s = .done (((s.setFifo rest).emit l).setMode m') := by
    rw [sinkStep, hf]
    exact h (s.setFifo rest) rfl rfl
  simp only [List.length_singleton, sinkRun, hstep, Res.done_andThen]

/-! ## The parts of a line (R113-R115, R171-R173) -/

section Parts

variable {cfg : Config} (he : cfg.enc.ok = true)

include he

/-- A command word of a count the ROM uses spells its command in mode `CMD` (R103). -/
theorem decodeWord_rom_command (op : BitVec 4) {n : Nat} (hn : n < 2 ^ 10) :
    decodeWord cfg.enc .cmd cfg.fmt (commandWord cfg.enc op n) = commandOf cfg.enc op n := by
  obtain ⟨-, hwidth, -⟩ := (Encoding.ok_iff _).1 he
  exact decodeWord_commandWord he cfg.fmt op
    (decide_eq_true (Nat.lt_of_lt_of_le hn (Nat.pow_le_pow_right (by decide) hwidth)))

/-- A hold emits its control word for its clocks. -/
theorem emits_hold {n : Nat} (h0 : n ≠ 0) (hn : n < 2 ^ 10) (va ha : Bool) :
    Emits cfg .cmd (hold cfg n va ha) (holdClocks cfg n va ha) .cmd := by
  refine Emits.append (m' := .rawData n) (l := []) (emits_word fun s hc hm => ?_) (emits_word fun s hc hm => ?_)
  · obtain ⟨-, hrawRepeat, -⟩ := commandOf_assigned he n
    rw [decodeWord_rom_command he _ hn, hrawRepeat]
    exact rawRepeatRes_eq_done.2 ⟨hm, h0, by simp [State.emit]⟩
  · subst hc
    exact (perform_decodeControl _ s).trans (holdData_eq_done.2 ⟨n, hm, rfl⟩)

theorem emits_nop : Emits cfg .cmd [nopWord cfg] [] .cmd := emits_word fun s _ hm => by
  obtain ⟨-, -, -, -, hnop⟩ := commandOf_assigned he 0
  rw [nopWord, decodeWord_rom_command he _ (by decide), hnop]
  exact nopRes_eq_done.2 ⟨hm, rfl, by rw [← hm]; simp [State.emit, State.setMode]⟩

/-- The padding emits nothing (R178). -/
theorem emits_padding (k : Nat) : Emits cfg .cmd (List.replicate k (nopWord cfg)) [] .cmd := by
  induction k with
  | zero => exact emits_nil cfg .cmd
  | succ k ih => exact (emits_nop he).append ih

/-- The marker opens a row of 640 pixels, a whole number of pixel words (R114, R233). -/
theorem emits_marker : Emits cfg .cmd [markerWord cfg] [] (.pixData Config.hAct) := emits_word fun s hc hm => by
  obtain ⟨-, -, htmds, -⟩ := commandOf_assigned he Config.hAct
  rw [markerWord, decodeWord_rom_command he _ (by decide), htmds]
  refine tmdsRes_eq_done.2 ⟨hm, by decide, ?_, by simp [State.emit]⟩
  cases hf : s.cfg.fmt with
  | p1 => rw [ppw_p1 hf]; rfl
  | p2 => rw [ppw_p2 hf]; rfl

/-- A blanking sequence emits its line (R171, R172, R242). -/
theorem emits_blankSequence (va : Bool) : Emits cfg .cmd (blankSequence cfg va) (blankLine cfg va) .cmd := by
  have hline := (((emits_hold he (n := Config.hFp) (by decide) (by decide) va false).append
    (emits_hold he (n := Config.hSw) (by decide) (by decide) va true)).append
    (emits_hold he (n := Config.hBp + Config.hAct) (by decide) (by decide) va false)).append
    (emits_padding he cfg.blankPad)
  rwa [List.append_nil] at hline

/-- The header sequence emits the blanking of an active line and opens the row (R173, R242). -/
theorem emits_romActive : Emits cfg .cmd (romActive cfg) (activeBlanking cfg) (.pixData Config.hAct) := by
  have hheader := (((((emits_hold he (n := Config.hFp) (by decide) (by decide) false false).append
    (emits_nop he)).append (emits_hold he (n := Config.hSw) (by decide) (by decide) false true)).append
    (emits_nop he)).append (emits_hold he (n := Config.hBp) (by decide) (by decide) false false)).append
    (emits_marker he)
  rwa [List.append_nil, List.append_nil, List.append_nil] at hheader

end Parts

/-! ## A row of pixels (R239) -/

/-- The pixels of a word, whatever the format, are `PPW` symbols (R75). -/
theorem length_wordPixels (cfg : Config) (w : Word) : (wordPixels cfg.fmt w).length = ppw cfg := by
  cases hf : cfg.fmt with
  | p1 => rw [ppw_p1 hf]; rfl
  | p2 => rw [ppw_p2 hf]; rfl

/-- A pixel word of the run's format is `PixelData` of its pixels. -/
theorem perform_decodePixel (s : State) (w : Word) :
    perform (decodePixel s.cfg.fmt w) s = pixelData s.cfg.fmt (wordPixels s.cfg.fmt w) s := by
  cases s.cfg.fmt <;> rfl

theorem ppw_pos (cfg : Config) : 0 < ppw cfg := by
  cases hf : cfg.fmt with
  | p1 => rw [ppw_p1 hf]; decide
  | p2 => rw [ppw_p2 hf]; decide

/-- A pixel word with `n` more to come emits its pixels and takes them off the count. -/
theorem emits_pixelWord (cfg : Config) (w : Word) (n : Nat) :
    Emits cfg (.pixData (n * ppw cfg + ppw cfg)) [w] (wordPixels cfg.fmt w)
      (if n = 0 then .cmd else .pixData (n * ppw cfg)) := by
  refine emits_word fun s hc hm => ?_
  subst hc
  refine (perform_decodePixel s w).trans (pixelData_eq_done.2 ⟨_, hm, rfl, Nat.le_add_left .., ?_⟩)
  have hzero : n * ppw s.cfg = 0 ↔ n = 0 := by simp [(ppw_pos s.cfg).ne']
  rw [modeAfterPixels, Nat.add_sub_cancel]
  simp only [hzero]

/-- A row of words emits its pixels and uses up the count (R239). -/
theorem emits_row (cfg : Config) {row : List Word} (hne : row ≠ []) :
    Emits cfg (.pixData (row.length * ppw cfg)) row (row.flatMap (wordPixels cfg.fmt)) .cmd := by
  induction row with
  | nil => exact absurd rfl hne
  | cons w row ih =>
    have hw := emits_pixelWord cfg w row.length
    rw [List.length_cons, Nat.succ_mul]
    by_cases hrow : row = []
    · subst hrow
      simpa using hw
    · rw [if_neg (by simpa using hrow)] at hw
      exact hw.append (ih hrow)

/-! ## Lines (R242) -/

/-- The run of a whole line that leaves mode `CMD`. -/
theorem Emits.sinkRun_eq {s : State} {ws rest : List Word} {l : List Symbol} (h : Emits s.cfg .cmd ws l .cmd)
    (hm : s.sink.mode = .cmd) (hf : s.sink.fifo = ws ++ rest) :
    sinkRun ws.length s = .done ((s.setFifo rest).emit l) := by
  rw [h s rest rfl hm hf, ← hm]
  rfl

theorem length_holdClocks (cfg : Config) (n : Nat) (va ha : Bool) : (holdClocks cfg n va ha).length = n :=
  List.length_replicate

/-- Settles O27: the line is the holds of its sequence, the padding emitting nothing. -/
theorem blankingLineEmits800 : Obligations.BlankingLineEmits800 := by
  unfold Obligations.BlankingLineEmits800
  intro va rest s he hm hf
  refine ⟨?_, ?_⟩
  · rw [← length_blankSequence s.cfg va]
    exact (emits_blankSequence he va).sinkRun_eq hm hf
  · rw [blankLine, List.length_append, List.length_append, length_holdClocks, length_holdClocks, length_holdClocks]
    rfl

/-- A row has `ROW_WORDS` words of `PPW` pixels each, 640 in all (R10). -/
theorem rowWords_mul_ppw (cfg : Config) : rowWords cfg * ppw cfg = Config.hAct := by
  cases hf : cfg.fmt <;> simp [rowWords, rowBytes, ppw, bpp, hf, Config.hAct]

/-- Settles O28: the header's sequence, then the row. -/
theorem activeLineEmits800 : Obligations.ActiveLineEmits800 := by
  unfold Obligations.ActiveLineEmits800
  intro row rest s he hm hrow hf
  have hpixels : row.length * ppw s.cfg = Config.hAct := by rw [hrow, rowWords_mul_ppw]
  have hne : row ≠ [] := fun h => by rw [h] at hpixels; simp [Config.hAct] at hpixels
  have hline := emits_row s.cfg hne
  rw [hpixels] at hline
  refine ⟨?_, ?_, ?_⟩
  · rw [← hrow, ← length_romActive s.cfg, ← List.length_append]
    exact ((emits_romActive he).append hline).sinkRun_eq hm hf
  · rw [activeBlanking, List.length_append, List.length_append, length_holdClocks, length_holdClocks, length_holdClocks]
    rfl
  · simpa [List.length_flatMap, length_wordPixels, Config.hAct] using hpixels

end Sys2Proof.Machine

/-! The steps of the machine (R15, R271, R272): marks, turns, the agents' conditions, what the sink's, the controller's and
a channel's step is; the run of transfers and the reads it makes; reset and start. -/

namespace Sys2Proof.Machine

/-! ## Marks and turns (R271, R272) -/

theorem stepRes_of_fault {s : State} {f : Fault} (h : s.fault = some f) : stepRes s = .fault f s := by
  rw [stepRes, h]

theorem stepRes_of_refused {s : State} {r : Refusal} (hf : s.fault = none) (h : s.refused = some r) :
    stepRes s = .refuse r s := by
  rw [stepRes, hf, h]

theorem marked_fault_self {s : State} {f : Fault} (h : s.fault = some f) : (Res.fault f s).marked = s := by
  rw [Res.marked, ← h]

theorem marked_refuse_self {s : State} {r : Refusal} (h : s.refused = some r) : (Res.refuse r s).marked = s := by
  rw [Res.marked, ← h]

theorem Res.marked_of_outcome_fault {r : Res} {f : Fault} (h : r.outcome = .fault f) : r.marked.fault = some f := by
  cases r <;> cases h
  rfl

theorem Res.marked_of_outcome_refused {r : Res} {f : Refusal} (h : r.outcome = .refused f) :
    r.marked.refused = some f := by
  cases r <;> cases h
  rfl

/-- Settles O59: a mark answers before any agent moves, and a stop's marked state holds it. -/
theorem marksAreFinal : Obligations.MarksAreFinal := by
  unfold Obligations.MarksAreFinal
  refine fun s => ⟨fun f h => ?_, fun r hf h => ?_, fun f h => Res.marked_of_outcome_fault h,
    fun r h => Res.marked_of_outcome_refused h⟩
  · rw [step, nextMarked, stepRes_of_fault h]
    exact ⟨rfl, marked_fault_self h⟩
  · rw [step, nextMarked, stepRes_of_refused hf h]
    exact ⟨rfl, marked_refuse_self h⟩

/-- Settles O60: the mover is the agent the turn names. -/
theorem anyEnabledAgentMayMove : Obligations.AnyEnabledAgentMayMove := by
  unfold Obligations.AnyEnabledAgentMayMove
  intro s hu he
  exact step_of_mover hu (if_pos he)

/-! ## The agents' conditions (R43, R193, R196, R231, R262) -/

theorem enabled_controller_iff {s : State} : enabled s .controller = true ↔ s.started = true
    ∧ ((s.irq.pending0 = true ∧ s.irq.enable0 = true) ∨ (s.irq.pending1 = true ∧ s.irq.enable1 = true)) := by
  simp [enabled, irqLine]

theorem enabled_channel_iff {s : State} {c : Chan} : enabled s (.channel c) = true ↔
    s.started = true ∧ (s.chan c).busy = true
      ∧ ((s.chan c).remaining = 0#32
          ∨ (s.sink.fifo.length < s.cfg.fifoDepth ∧ readWord s.cfg s.mem (s.chan c).cur ≠ .notAdmitted)) := by
  by_cases hr : (s.chan c).remaining = 0#32
  · simp [enabled, transferEnabled, completeEnabled, hr]
  · simp [enabled, transferEnabled, completeEnabled, fifoHasRoom, hr, and_assoc]

theorem enabled_sink_iff {s : State} : enabled s .sink = true ↔ s.started = true ∧ s.sink.fifo ≠ [] := by
  simp [enabled]

/-- Settles O36: one lemma an agent; the mover is enabled. -/
theorem agentsEnabled : Obligations.AgentsEnabled := by
  unfold Obligations.AgentsEnabled
  refine fun s _ => ⟨enabled_setup_iff, enabled_controller_iff, fun c => enabled_channel_iff, enabled_sink_iff,
    fun hs a hm => eq_setup_of_enabled hs (mover_enabled hm), fun hs hm => ?_⟩
  obtain ⟨hns, -⟩ := enabled_setup_iff.1 (mover_enabled hm)
  rw [hs] at hns
  cases hns

/-! ## One agent's step -/

theorem sinkStep_of_cons {s : State} {w : Word} {rest : List Word} (h : s.sink.fifo = w :: rest) :
    sinkStep s = perform (decodeWord s.cfg.enc s.sink.mode s.cfg.fmt w) (s.setFifo rest) := by
  rw [sinkStep, h]

/-- Settles O32: the word's bytes decode as the word. -/
theorem stepRunsDecodedWord : Obligations.StepRunsDecodedWord := by
  unfold Obligations.StepRunsDecodedWord
  intro s w rest i hu hm hf hi
  rw [decodeBytes_wordBytes] at hi
  cases hi
  rw [step_of_mover hu hm, agentStep, sinkStep_of_cons hf, exec_eq_outcome]

theorem handlerStep_of_pending {s : State} {c : Chan} (hc : c = parityChannel s.ctl.parity) (hp : s.pending c = true) :
    handlerStep s = (perform (selectedOp s c) (enterHandler c s)).andThen fun t =>
      .done (leaveHandler s c (classify s.ctl.scanline s.ctl.headerPosted) t) := by
  rw [handlerStep, identify_ok.2 ⟨hc, hp⟩]

theorem enterHandler_eq (c : Chan) (s : State) :
    enterHandler c s = (s.setPending c false).setParity (!s.ctl.parity) := by
  simp [enterHandler, toggle, acknowledge]

theorem mapOutcome_mapOutcome (f g : State → State) (o : Host.Outcome State Fault Refusal) :
    mapOutcome f (mapOutcome g o) = mapOutcome (fun s => f (g s)) o := by
  cases o <;> rfl

/-- Settles O33: the handler's step around the selected operation. -/
theorem stepRunsSelectedOperation : Obligations.StepRunsSelectedOperation := by
  unfold Obligations.StepRunsSelectedOperation
  intro s c hu hm hc hp
  rw [step_of_mover hu hm, agentStep, handlerStep_of_pending hc hp, Res.outcome_andThen_done, mapOutcome_mapOutcome,
    ← exec_eq_outcome, enterHandler_eq]
  rfl

theorem transfer_of_value {c : Chan} {s : State} {w : Word} (h : readWord s.cfg s.mem (s.chan c).cur = .value w) :
    transfer c s = .done (transferred c w s) := transfer_eq_done.2 ⟨w, h, rfl⟩

/-- Settles O37: the transfer of the word read. -/
theorem transferMovesOneWord : Obligations.TransferMovesOneWord := by
  unfold Obligations.TransferMovesOneWord
  intro c s w hu hm hr hw
  rw [step_of_transfer hu hm hr, transfer_of_value hw]
  rfl

/-! ## A run of transfers (R194) -/

theorem add_ofNat_four_mul_succ (a : Word) (i : Nat) :
    a + BitVec.ofNat 32 (4 * (i + 1)) = a + 4#32 + BitVec.ofNat 32 (4 * i) := by
  rw [Nat.mul_succ, Nat.add_comm, BitVec.ofNat_add, BitVec.add_assoc]

/-- Settles O41: by induction on the words; a transfer leaves the reads of the later ones as they were. -/
theorem transferRunPushesWords : Obligations.TransferRunPushesWords := by
  unfold Obligations.TransferRunPushesWords
  intro c ws
  induction ws with
  | nil => intro s _; exact ⟨s, rfl, by simp⟩
  | cons w ws ih =>
    intro s hread
    have hw : readWord s.cfg s.mem (s.chan c).cur = .value w := by
      simpa [eq_comm] using hread 0 (Nat.succ_pos _)
    obtain ⟨t, ht, hrest⟩ := ih (transferred c w s) fun i hi => by
      have := hread (i + 1) (Nat.succ_lt_succ hi)
      rw [List.getElem?_cons_succ, add_ofNat_four_mul_succ] at this
      simpa [transferred] using this
    refine ⟨t, ?_, ?_⟩
    · rw [List.length_cons, transferRun, transfer_of_value hw]; exact ht
    · rw [List.length_cons, add_ofNat_four_mul_succ, Nat.add_comm ws.length, BitVec.ofNat_add, ← BitVec.sub_sub]
      simpa [transferred] using hrest

/-! ## The admission of a read (R73) -/

theorem regionOf_eq_none_iff {cfg : Config} {a n : Nat} :
    regionOf cfg a n = none ↔ ∀ r ∈ regions cfg, ¬ (r.base ≤ a ∧ a + n ≤ r.base + r.size) := by
  simp [regionOf, List.find?_eq_none, Region.holds_iff]

theorem regionOf_isSome_iff {cfg : Config} {a n : Nat} :
    (regionOf cfg a n).isSome = true ↔ ∃ r ∈ regions cfg, r.base ≤ a ∧ a + n ≤ r.base + r.size := by
  simp [regionOf, List.find?_isSome, Region.holds_iff]

/-- An aligned read inside one region finds an unwritten byte, or its four bytes are all written. -/
theorem readWord_unwritten_or {cfg : Config} (m : List Host.Cell) {a : Word} (ha : a.toNat % 4 = 0)
    (hr : (regionOf cfg a.toNat 4).isSome = true) :
    (∃ e, readWord cfg m a = .unwritten e) ∨ ∀ k < 4, readByte cfg m (a.toNat + k) ≠ none := by
  obtain ⟨r, hr⟩ := Option.isSome_iff_exists.1 hr
  rw [readWord, if_neg (by omega), hr, if_neg (by simp)]
  split
  · exact .inl ⟨_, rfl⟩
  · exact .inl ⟨_, rfl⟩
  · exact .inl ⟨_, rfl⟩
  · exact .inl ⟨_, rfl⟩
  · rename_i h0 h1 h2 h3
    refine .inr fun k hk => ?_
    interval_cases k
    · simp [h0]
    · simp [h1]
    · simp [h2]
    · simp [h3]

/-- Settles O35: the checks in their order. -/
theorem readAdmission : Obligations.ReadAdmission := by
  unfold Obligations.ReadAdmission
  refine fun cfg m a => ⟨fun ha => if_pos ha, fun ha hr => ?_, fun ha hr ⟨k, hk, hb⟩ => ?_,
    fun ha hr b0 b1 b2 b3 h0 h1 h2 h3 => ?_⟩
  · simp [readWord, ha, regionOf_eq_none_iff.2 hr]
  · rcases readWord_unwritten_or m ha (regionOf_isSome_iff.2 hr) with h | h
    · exact h
    · exact absurd hb (h k hk)
  · obtain ⟨r, hr⟩ := Option.isSome_iff_exists.1 (regionOf_isSome_iff.2 hr)
    simp [readWord, ha, hr, h0, h1, h2, h3, wordOfBytes]

/-! ## Reset and start (R49, R290-R296) -/

theorem run_succ_of_step {s t : State} (n : Nat) (h : step s = .next t) :
    Host.Core.run Sys2Proof.core (n + 1) s = Host.Core.run Sys2Proof.core n t := by
  have h : Sys2Proof.core.step s = .next t := h
  simp only [Host.Core.run, h]

/-- Settles O46: the three setup steps, each from the state the one before leaves. -/
theorem stateAfterStart : Obligations.StateAfterStart := by
  unfold Obligations.StateAfterStart
  intro cfg image
  have hpreload := step_of_setupStep (s := State.resetWith cfg image) rfl rfl nofun (setupStep_of_preload rfl)
  have henable := step_of_setupStep (s := (preload (State.resetWith cfg image)).passTurn) rfl rfl nofun
    (setupStep_of_enableIrq rfl)
  have hstart := step_of_setupStep (s := (enableIrq (preload (State.resetWith cfg image)).passTurn).passTurn) rfl rfl
    nofun (setupStep_of_start rfl rfl rfl)
  have hrun := ((run_succ_of_step 2 hpreload).trans (run_succ_of_step 1 henable)).trans (run_succ_of_step 0 hstart)
  exact ⟨_, hrun, rfl, rfl, rfl, rfl, rfl, rfl, rfl, rfl, rfl, rfl, rfl, rfl⟩

/-- Under a correct placement an asset byte lies in the asset's region. -/
theorem regionOf_assetBase_add {cfg : Config} {off : Nat} (hp : placementOk cfg = true)
    (hoff : off < cfg.assetW * cfg.assetH * bpp cfg) : regionOf cfg (cfg.assetBase.toNat + off) 1
      = some ⟨.asset, cfg.assetBase.toNat, cfg.assetW * cfg.assetH * bpp cfg⟩ :=
  regionOf_eq_some_of_placementOk hp Nat.one_pos (by simp [regions]) ((Region.holds_iff ..).2 (by simp only; omega))

/-- Settles O47: the registers by `State.resetWith`'s definition, the asset byte by its region. -/
theorem resetMeetsInvariants : Obligations.ResetMeetsInvariants := by
  unfold Obligations.ResetMeetsInvariants
  refine fun cfg image => ⟨(engineOk_not_started rfl).2 ⟨rfl, rfl⟩,
    (sinkOk_iff _).2 ⟨Nat.zero_le _, fun n h => (by cases h), fun n h => by cases h⟩, wf_resetWith,
    fun hp off hoff => ?_⟩
  have hr := regionOf_assetBase_add hp hoff
  cases hw : cfg.assetWritten with
  | true => simp [readByte, holdsCell, unlisted, hr, hw]
  | false => simp [readByte, holdsCell, hr, hw, lookup_resetWith, assetCell]

end Sys2Proof.Machine

/-! The schedule of payloads (40_timing_generator.md section 7, R153-R155). -/

namespace Sys2Proof.Machine

/-! ## One handler step of the schedule -/

theorem nextPosition_blanking {w : Word} (h : w.toNat < 45) : nextPosition (w, false) = (nextScanline w, false) := by
  rw [nextPosition_eq rfl]
  cases hk : classify w false with
  | vsync => rfl
  | vblank => rfl
  | hdr => have := (classify_hdr_imp hk).1; omega
  | pix => cases (classify_pix_imp hk).2

theorem nextPosition_header {w : Word} (h : 45 ≤ w.toNat) : nextPosition (w, false) = (w, true) :=
  nextPosition_eq (classify_active false h)

theorem nextPosition_row {w : Word} (h : 45 ≤ w.toNat) : nextPosition (w, true) = (nextScanline w, false) :=
  nextPosition_eq (classify_active true h)

/-- Settles O10: the header's step, then the row's. -/
theorem twoInvocationsPerActiveLine : Obligations.TwoInvocationsPerActiveLine := by
  unfold Obligations.TwoInvocationsPerActiveLine
  intro s h45 h525
  have hheader := nextPosition_header h45
  have hrow := nextPosition_row h45
  simp only [schedule, positionAfter, hheader, hrow, payloadAt, classify_active _ h45]
  exact ⟨rfl, trivial, rfl⟩

/-! ## The period (R154) -/

/-- The place of a position in the vertical period: one step for each blanking line, two for each active line. -/
def phase (p : Position) : Nat :=
  if p.1.toNat < 45 then p.1.toNat else 45 + 2 * (p.1.toNat - 45) + p.2.toNat

theorem phase_blanking {w : Word} (hp : Bool) (h : w.toNat < 45) : phase (w, hp) = w.toNat := if_pos h

theorem phase_active {w : Word} (hp : Bool) (h : 45 ≤ w.toNat) :
    phase (w, hp) = 45 + 2 * (w.toNat - 45) + hp.toNat := if_neg (by simp only; omega)

/-- A valid position below the active lines has the flag clear. -/
theorem flag_of_validPosition {w : Word} {hp : Bool} (hv : validPosition (w, hp) = true) (h : w.toNat < 45) :
    hp = false := by
  cases hp with
  | false => rfl
  | true => have := ((validPosition_iff _).1 hv).2 rfl; simp only at this; omega

theorem phase_nextScanline {w : Word} (h : w.toNat < 525) : phase (nextScanline w, false) =
    if w.toNat < 44 then w.toNat + 1 else if w.toNat = 524 then 0 else 45 + 2 * (w.toNat + 1 - 45) := by
  have hnext : (nextScanline w).toNat = (w.toNat + 1) % 525 := nextScanline_toNat w
  simp only [phase, hnext, Bool.toNat_false]
  split_ifs <;> omega

/-- A handler step goes one place on, the last place leading to the first. -/
theorem phase_nextPosition {p : Position} (hv : validPosition p = true) :
    phase (nextPosition p) = (phase p + 1) % 1005 := by
  obtain ⟨w, hp⟩ := p
  obtain ⟨hlt, -⟩ := (validPosition_iff _).1 hv
  simp only at hlt
  by_cases h45 : w.toNat < 45
  · cases flag_of_validPosition hv h45
    rw [nextPosition_blanking h45, phase_nextScanline hlt, phase_blanking _ h45]
    split_ifs <;> omega
  · cases hp with
    | false =>
      rw [nextPosition_header (by omega), phase_active _ (by omega), phase_active _ (by omega), Bool.toNat_true,
        Bool.toNat_false]
      omega
    | true =>
      rw [nextPosition_row (by omega), phase_nextScanline hlt, phase_active _ (by omega), Bool.toNat_true]
      split_ifs <;> omega

theorem phase_lt {p : Position} (hv : validPosition p = true) : phase p < 1005 := by
  obtain ⟨hlt, -⟩ := (validPosition_iff _).1 hv
  have := p.2.toNat_lt
  rw [phase]
  split_ifs <;> omega

/-- The place determines the valid position. -/
theorem eq_of_phase_eq {p q : Position} (hp : validPosition p = true) (hq : validPosition q = true)
    (h : phase p = phase q) : p = q := by
  obtain ⟨v, b⟩ := p
  obtain ⟨w, d⟩ := q
  have hb := b.toNat_lt
  have hd := d.toNat_lt
  simp only [phase] at h
  by_cases hv : v.toNat < 45
  · rw [if_pos hv] at h
    have hw : w.toNat < 45 := by by_contra hw; rw [if_neg hw] at h; omega
    rw [if_pos hw] at h
    rw [flag_of_validPosition hp hv, flag_of_validPosition hq hw, BitVec.eq_of_toNat_eq h]
  · rw [if_neg hv] at h
    have hw : ¬ w.toNat < 45 := fun hw => by rw [if_pos hw] at h; omega
    rw [if_neg hw] at h
    have hflags : ∀ b d : Bool, b.toNat = d.toNat → b = d := by decide
    rw [BitVec.eq_of_toNat_eq (show v.toNat = w.toNat by omega), hflags b d (by omega)]

theorem validPosition_positionAfter {p : Position} (hv : validPosition p = true) (n : Nat) :
    validPosition (positionAfter n p) = true := by
  induction n generalizing p with
  | zero => exact hv
  | succ n ih => exact ih (validPosition_nextPosition hv)

theorem phase_positionAfter {p : Position} (hv : validPosition p = true) (n : Nat) :
    phase (positionAfter n p) = (phase p + n) % 1005 := by
  induction n generalizing p with
  | zero => exact (Nat.mod_eq_of_lt (phase_lt hv)).symm
  | succ n ih =>
    rw [positionAfter, ih (validPosition_nextPosition hv), phase_nextPosition hv]
    omega

/-- Settles O9: the period's 1005 steps come back to the same place. -/
theorem schedulePeriodic : Obligations.SchedulePeriodic := by
  unfold Obligations.SchedulePeriodic
  intro p hv
  refine eq_of_phase_eq (validPosition_positionAfter hv _) hv ?_
  have hsteps : frameSteps = 1005 := rfl
  rw [phase_positionAfter hv, hsteps, Nat.add_mod_right, Nat.mod_eq_of_lt (phase_lt hv)]

/-! ## The payloads of a period (R153) -/

theorem nextScanline_ofNat {a : Nat} (h : a + 1 < 525) : nextScanline (BitVec.ofNat 32 a) = BitVec.ofNat 32 (a + 1) := by
  apply BitVec.eq_of_toNat_eq
  rw [nextScanline_toNat, BitVec.toNat_ofNat, BitVec.toNat_ofNat, vTotal_eq]
  omega

/-- `n` blanking lines of one class, from line `a` on: one payload a line. -/
theorem schedule_blanking {k : Payload} {a n : Nat} (m : Nat) (ha : a + n ≤ 45)
    (hk : ∀ s, a ≤ s → s < a + n → classify (BitVec.ofNat 32 s) false = k) :
    schedule (n + m) (BitVec.ofNat 32 a, false)
      = (List.range' a n).map (fun s => (BitVec.ofNat 32 s, k)) ++ schedule m (BitVec.ofNat 32 (a + n), false) := by
  induction n generalizing a with
  | zero => simp
  | succ n ih =>
    have hlt : (BitVec.ofNat 32 a).toNat < 45 := by rw [BitVec.toNat_ofNat]; omega
    rw [Nat.add_right_comm, schedule, nextPosition_blanking hlt, nextScanline_ofNat (by omega),
      ih (by omega) fun s h1 h2 => hk s (by omega) (by omega), payloadAt, hk a (Nat.le_refl a) (by omega),
      List.range'_succ, List.map_cons, List.cons_append, Nat.add_assoc a 1 n, Nat.add_comm 1 n]

/-- `n` active lines, from line `a` on: the header and the pixel row of each. -/
theorem schedule_active {a n : Nat} (ha : 45 ≤ a) (hn : a + n ≤ 525) :
    schedule (2 * n) (BitVec.ofNat 32 a, false)
      = (List.range' a n).flatMap (fun s => [(BitVec.ofNat 32 s, .hdr), (BitVec.ofNat 32 s, .pix)]) := by
  induction n generalizing a with
  | zero => rfl
  | succ n ih =>
    have h45 : 45 ≤ (BitVec.ofNat 32 a).toNat := by rw [BitVec.toNat_ofNat]; omega
    have hrest : schedule (2 * n) (nextScanline (BitVec.ofNat 32 a), false)
        = (List.range' (a + 1) n).flatMap (fun s => [(BitVec.ofNat 32 s, .hdr), (BitVec.ofNat 32 s, .pix)]) := by
      cases n with
      | zero => rfl
      | succ n => rw [nextScanline_ofNat (by omega)]; exact ih (by omega) (by omega)
    rw [Nat.mul_succ, schedule, nextPosition_header h45, schedule, nextPosition_row h45, hrest, payloadAt, payloadAt,
      classify_active _ h45, classify_active _ h45, List.range'_succ, List.flatMap_cons]
    rfl

/-- Settles O8: the three runs of blanking lines, then the active lines. -/
theorem frameSchedule : Obligations.FrameSchedule := by
  unfold Obligations.FrameSchedule
  have htoNat : ∀ s : Nat, s < 45 → (BitVec.ofNat 32 s).toNat = s := fun s h => by rw [BitVec.toNat_ofNat]; omega
  have hporch := schedule_blanking (k := .vblank) (a := 0) (n := 10) 995 (by omega) fun s _ h =>
    classify_eq_vblank false (.inl (by rw [htoNat s (by omega)]; omega))
  have hsync := schedule_blanking (k := .vsync) (a := 10) (n := 2) 993 (by omega) fun s _ h =>
    classify_eq_vsync false (by rw [htoNat s (by omega)]; omega)
  have hback := schedule_blanking (k := .vblank) (a := 12) (n := 33) 960 (by omega) fun s _ h =>
    classify_eq_vblank false (.inr (by rw [htoNat s (by omega)]; omega))
  have hactive := schedule_active (a := 45) (n := 480) (by omega) (by omega)
  refine hporch.trans ?_
  rw [hsync, hback, hactive, ← List.append_assoc, ← List.append_assoc]
  rfl

end Sys2Proof.Machine

/-! The pixel operation (40_timing_generator.md sections 3 and 4): the asset row itself for `P2`, the scratch copy for `P1`
(R145-R149), where it stops (R273); the frame of the payload operations. -/

namespace Sys2Proof.Machine

/-! ## The frame of an operation -/

/-- A scratch byte lies in the scratch buffer, so what an operation leaves of the bytes outside it is as before. -/
theorem not_scratch_of_outside {cfg : Config} {x : Nat}
    (h : ¬ (cfg.scratchBase.toNat ≤ x ∧ x < cfg.scratchBase.toNat + rowBytes cfg)) :
    (regionOf cfg x 1).map Region.kind ≠ some .scratch :=
  fun hs => h (scratch_byte hs).2

/-- Settles O31: a completed operation is a descriptor, a flag, and for a `P1` row the scratch bytes. -/
theorem operationFrame : Obligations.OperationFrame := by
  unfold Obligations.OperationFrame
  intro i c s t hi h
  obtain ⟨k, rfl⟩ : ∃ k, i = payloadInstr k c := by
    rcases hi with rfl | rfl | rfl | rfl
    · exact ⟨.vsync, rfl⟩
    · exact ⟨.vblank, rfl⟩
    · exact ⟨.hdr, rfl⟩
    · exact ⟨.pix, rfl⟩
  obtain ⟨-, m, a, n, hp, rfl, rfl, -, hm⟩ := perform_op_done (exec_eq_next.1 h)
  have hflag : payloadInstr k c = .opVsync c ∨ payloadInstr k c = .opVblank c →
      flagAfter k s.ctl.headerPosted = s.ctl.headerPosted := by
    cases k <;> simp [payloadInstr, flagAfter]
  have hbytes : ∀ x, ¬ (payloadInstr k c = .opPix c ∧ s.cfg.fmt = .p1 ∧ s.cfg.scratchBase.toNat ≤ x
      ∧ x < s.cfg.scratchBase.toNat + rowBytes s.cfg) → readByte s.cfg m x = readByte s.cfg s.mem x := by
    intro x hx
    rcases hm with rfl | ⟨rfl, hf, -, hout⟩
    · rfl
    · exact hout x (not_scratch_of_outside fun h => hx ⟨rfl, hf, h⟩)
  have hall := And.intro hflag hbytes
  simpa [programmed] using hall

/-! ## `P2`: the asset row itself (R145, R147, R149) -/

theorem perform_opPix_p2 {s : State} {a : Nat} (c : Chan) (hf : s.cfg.fmt = .p2)
    (hrow : rowMap s.cfg (activeRow s.ctl.scanline) = some a) : perform (.opPix c) s =
      (program c (s.cfg.assetBase + BitVec.ofNat 32 (a * (s.cfg.assetW * 2))) 320#32 s).andThen
        fun t => .done (t.setHeaderPosted false) := by
  simp [perform, opPixRes, hrow, hf, rowAddr, rowWords, rowBytes, bpp, Config.hAct]

/-- Settles O17: `Program` of the row's address. -/
theorem opPixP2ReadsAsset : Obligations.OpPixP2ReadsAsset := by
  unfold Obligations.OpPixP2ReadsAsset
  intro c s r a hf hs hrow
  rw [← activeRow_index hs] at hrow
  refine ⟨fun hb => ?_, fun hb => ?_, fun q hq hk => ?_⟩
  · rw [exec_eq_outcome, perform_opPix_p2 c hf hrow, program_of_idle _ hb (by decide)]; rfl
  · rw [exec_eq_outcome, perform_opPix_p2 c hf hrow, program_of_busy _ _ hb]; rfl
  · rw [(scratch_region hq hk).1] at hf; cases hf

/-! ## `P1`: the copy, then the descriptor (R145, R148) -/

theorem perform_opPix_p1 {s : State} {a : Nat} (c : Chan) (hf : s.cfg.fmt = .p1)
    (hrow : rowMap s.cfg (activeRow s.ctl.scanline) = some a) : perform (.opPix c) s =
      ((copyRow (rowAddr s.cfg a) s).andThen (program c s.cfg.scratchBase 160#32)).andThen
        fun t => .done (t.setHeaderPosted false) := by
  simp [perform, opPixRes, hrow, hf, rowWords, rowBytes, bpp, Config.hAct]

/-- With no channel racing, the row copy is its loop over the 640 bytes of the row. -/
theorem copyRow_eq_copyBytes {s : State} (a : Word) (hf : s.cfg.fmt = .p1) (hrace : ∀ k, ¬ stillReadsScratch s k) :
    copyRow a s = copyBytes s a s.cfg.scratchBase 640 s.mem := by
  rw [copyRow, (racingChannel_none_iff hf).2 hrace, rowBytes_p1 hf]

/-- An address of the scratch buffer does not wrap where the buffer does not. -/
theorem toNat_scratchBase_add {cfg : Config} {j : Nat} (hend : cfg.scratchBase.toNat + 640 ≤ 2 ^ 32) (hj : j < 640) :
    (cfg.scratchBase + BitVec.ofNat 32 j).toNat = cfg.scratchBase.toNat + j := by
  rw [BitVec.toNat_add, BitVec.toNat_ofNat]
  omega

/-- Under a correct placement every byte of the scratch buffer may be written. -/
theorem writeRefusal_scratch {cfg : Config} {j : Nat} (hp : placementOk cfg = true) (hf : cfg.fmt = .p1) (hj : j < 640) :
    writeRefusal cfg (cfg.scratchBase + BitVec.ofNat 32 j) = none := by
  rw [writeRefusal_none, toNat_scratchBase_add (scratch_end_le hp hf) hj]
  exact regionOf_scratchBase_add hp hf hj

/-- Under a correct placement, with no race and every byte of the row written when it is reached, the copy completes. -/
theorem copyRow_completes {s : State} {a : Nat} (hf : s.cfg.fmt = .p1) (hp : placementOk s.cfg = true)
    (hrace : ∀ k, ¬ stillReadsScratch s k) (hrow : ∀ j, j < 640 → rowByteWritten s a j) :
    ∃ m, copyRow (rowAddr s.cfg a) s = .done (s.setMem m) := by
  rw [copyRow_eq_copyBytes _ hf hrace]
  exact copyBytes_completes (fun j hj => writeRefusal_scratch hp hf hj)
    fun j hj => (rowByteWritten_iff hf a j).1 (hrow j hj)

/-- Settles O18: the copy's bytes from `copyBytes_data`, the others from `copyBytes_eq_done`. -/
theorem opPixP1CopiesRow : Obligations.OpPixP1CopiesRow := by
  unfold Obligations.OpPixP1CopiesRow
  intro c s r a hf hp hb hs hrow hrace hwritten
  rw [← activeRow_index hs] at hrow
  obtain ⟨m, hm⟩ := copyRow_completes hf hp hrace hwritten
  have haddr := fun j (hj : j < 640) => toNat_scratchBase_add (scratch_end_le hp hf) hj
  have hcopy := hm
  rw [copyRow_eq_copyBytes _ hf hrace] at hcopy
  refine ⟨m, ?_, fun j hj => ?_, fun x hx => ?_⟩
  · rw [exec_eq_outcome, perform_opPix_p1 c hf hrow, hm, Res.done_andThen,
      program_of_idle _ (by simpa using hb) (by decide)]
    simp [programmed]
  · obtain ⟨hagain, hfirst⟩ := copyBytes_data (by decide) hcopy hj
    simp only [haddr j hj, ← rowByteAddr_eq hf] at hagain hfirst
    refine ⟨fun hnot => hfirst fun i hi he => hnot ⟨i, hi, he⟩, fun i hi he => ?_⟩
    rw [hagain i hi he, haddr i (by omega)]
  · obtain ⟨m', he, -, -, hout⟩ := copyBytes_eq_done hcopy
    obtain rfl : m = m' := congrArg State.mem he
    refine hout x fun j hj => ?_
    rw [haddr j hj]
    omega

/-! ## Where the `P1` row operation stops (R72, R73, R148, R273) -/

section Stops

variable {s : State} {a : Nat} (c : Chan) (hf : s.cfg.fmt = .p1)
  (hrow : rowMap s.cfg (activeRow s.ctl.scanline) = some a)

include hf hrow

theorem exec_opPix_of_copy_fault {f : Fault} {t : State} (h : copyRow (rowAddr s.cfg a) s = .fault f t) :
    exec (.opPix c) s = .fault f := by
  rw [exec_eq_outcome, perform_opPix_p1 c hf hrow, h]; rfl

theorem exec_opPix_of_copy_refuse {r : Refusal} {t : State} (h : copyRow (rowAddr s.cfg a) s = .refuse r t) :
    exec (.opPix c) s = .refused r := by
  rw [exec_eq_outcome, perform_opPix_p1 c hf hrow, h]; rfl

/-- A busy channel with scratch bytes still to read stops the copy first. -/
theorem exec_opPix_race (h : ∃ k, stillReadsScratch s k) :
    ∃ k, stillReadsScratch s k ∧ exec (.opPix c) s = .fault (.scratchRace k) := by
  cases hr : racingChannel s with
  | none =>
    obtain ⟨k, hk⟩ := h
    exact absurd hk ((racingChannel_none_iff hf).1 hr k)
  | some k =>
    exact ⟨k, racingChannel_reads hf hr, exec_opPix_of_copy_fault c hf hrow (t := s) (by rw [copyRow, hr])⟩

variable (hrace : ∀ k, ¬ stillReadsScratch s k)

include hrace

/-- The copy is refused at its first target that may not be written, where its sources up to there are written. -/
theorem exec_opPix_refused {n : Nat} {f : Refusal} (hn : n < 640) (hread : ∀ j, j ≤ n → rowByteWritten s a j)
    (hw : ∀ j, j < n → writeRefusal s.cfg (s.cfg.scratchBase + BitVec.ofNat 32 j) = none)
    (hf' : writeRefusal s.cfg (s.cfg.scratchBase + BitVec.ofNat 32 n) = some f) :
    exec (.opPix c) s = .refused f := by
  have hread' := fun j hj => (rowByteWritten_iff hf a j).1 (hread j hj)
  obtain ⟨t, ht⟩ := (copyBytes_stops hn hw fun j hj => hread' j (Nat.le_of_lt hj)).2 f (hread' n (Nat.le_refl n)) hf'
  exact exec_opPix_of_copy_refuse c hf hrow ((copyRow_eq_copyBytes _ hf hrace).trans ht)

/-- The copy faults at its first source that nothing has written, where the targets before it may be written. -/
theorem exec_opPix_unwritten {n : Nat} (hn : n < 640) (hun : ¬ rowByteWritten s a n)
    (hw : ∀ j, j < n → writeRefusal s.cfg (s.cfg.scratchBase + BitVec.ofNat 32 j) = none) :
    ∃ e, exec (.opPix c) s = .fault (.unwrittenRead .controller e) := by
  induction n using Nat.strong_induction_on with
  | _ n ih =>
    by_cases hearlier : ∃ j, j < n ∧ ¬ rowByteWritten s a j
    · obtain ⟨j, hj, hunj⟩ := hearlier
      exact ih j hj (by omega) hunj fun i hi => hw i (by omega)
    · have hread : ∀ j, j < n → rowByteWritten s a j := fun j hj => by
        by_contra h
        exact hearlier ⟨j, hj, h⟩
      obtain ⟨t, ht⟩ := (copyBytes_stops hn hw fun j hj => (rowByteWritten_iff hf a j).1 (hread j hj)).1
        (mt (rowByteWritten_iff hf a n).2 hun)
      exact ⟨_, exec_opPix_of_copy_fault c hf hrow ((copyRow_eq_copyBytes _ hf hrace).trans ht)⟩

/-- After a copy that completes, a busy channel stops the operation. -/
theorem exec_opPix_busy (hp : placementOk s.cfg = true) (hb : (s.chan c).busy = true)
    (hwritten : ∀ j, j < 640 → rowByteWritten s a j) : exec (.opPix c) s = .fault (.busyReprogram c) := by
  obtain ⟨m, hm⟩ := copyRow_completes hf hp hrace hwritten
  rw [exec_eq_outcome, perform_opPix_p1 c hf hrow, hm, Res.done_andThen, program_of_busy _ _ (by simpa using hb)]
  rfl

end Stops

/-! ## The region of a target (R71, R72) -/

/-- The regions of the ROM sequences, the first of a run's regions. -/
def romRegions (cfg : Config) : List Region := (regions cfg).take 3

theorem regionOf_eq_or (cfg : Config) (x n : Nat) : regionOf cfg x n =
    ((romRegions cfg).find? (·.holds x n)).or (((regions cfg).drop 3).find? (·.holds x n)) := by
  rw [romRegions, ← List.find?_append, List.take_append_drop]; rfl

/-- The region of the asset. -/
def assetRegion (cfg : Config) : Region := ⟨.asset, cfg.assetBase.toNat, cfg.assetW * cfg.assetH * bpp cfg⟩

/-- A region is a ROM sequence's, the asset's, or the scratch buffer's. -/
theorem mem_regions_cases {cfg : Config} {q : Region} (hq : q ∈ regions cfg) :
    q ∈ romRegions cfg ∨ q = assetRegion cfg ∨ q.kind = .scratch := by
  rw [← List.take_append_drop 3 (regions cfg), List.mem_append] at hq
  refine hq.imp_right fun h => ?_
  rcases List.mem_cons.1 (show q ∈ assetRegion cfg :: _ from h) with h | h
  · exact .inl h
  · cases hf : cfg.fmt with
    | p1 => simp only [hf] at h; exact .inr (by rw [List.mem_singleton.1 h])
    | p2 => simp only [hf] at h; cases h

theorem mem_romRegions_of_kind {cfg : Config} {q : Region} (hq : q ∈ regions cfg)
    (hk : q.kind = .romVsync ∨ q.kind = .romVblank ∨ q.kind = .romActive) : q ∈ romRegions cfg := by
  rcases mem_regions_cases hq with h | rfl | h
  · exact h
  · simp [assetRegion] at hk
  · simp [h] at hk

theorem kind_of_mem_romRegions {cfg : Config} {q : Region} (hq : q ∈ romRegions cfg) :
    q.kind = .romVsync ∨ q.kind = .romVblank ∨ q.kind = .romActive := by
  have hrom : q ∈ [_, _, _] := hq
  simp only [List.mem_cons, List.not_mem_nil, or_false] at hrom
  rcases hrom with rfl | rfl | rfl
  · exact .inl rfl
  · exact .inr (.inl rfl)
  · exact .inr (.inr rfl)

theorem writeRefusal_of_regionOf {cfg : Config} {x : Word} {r : Region} (h : regionOf cfg x.toNat 1 = some r) :
    ((r.kind = .romVsync ∨ r.kind = .romVblank ∨ r.kind = .romActive) → writeRefusal cfg x = some .romWrite)
      ∧ (r.kind = .asset → writeRefusal cfg x = some .assetWrite)
      ∧ (r.kind = .scratch → writeRefusal cfg x = none) := by
  refine ⟨?_, fun hk => ?_, fun hk => ?_⟩
  · rintro (hk | hk | hk) <;> simp [writeRefusal, h, hk]
  · simp [writeRefusal, h, hk]
  · simp [writeRefusal, h, hk]

/-- A byte of a ROM sequence lies in it first of all regions, so a write of it is refused `ROM_WRITE`. -/
theorem writeRefusal_rom {cfg : Config} {x : Word} {q : Region} (hq : q ∈ romRegions cfg)
    (hx : q.holds x.toNat 1 = true) : writeRefusal cfg x = some .romWrite := by
  obtain ⟨r, hr⟩ := Option.isSome_iff_exists.1
    (List.find?_isSome.2 ⟨q, hq, hx⟩ : ((romRegions cfg).find? (·.holds x.toNat 1)).isSome = true)
  have hreg : regionOf cfg x.toNat 1 = some r := by rw [regionOf_eq_or, hr]; rfl
  exact (writeRefusal_of_regionOf hreg).1 (kind_of_mem_romRegions (List.mem_of_find?_eq_some hr))

/-- A byte of the asset that lies in no ROM sequence lies in the asset first. -/
theorem writeRefusal_asset {cfg : Config} {x : Word} {q : Region}
    (hrom : ∀ r ∈ romRegions cfg, ¬ r.holds x.toNat 1 = true) (hq : q ∈ regions cfg) (hk : q.kind = .asset)
    (hx : q.holds x.toNat 1 = true) : writeRefusal cfg x = some .assetWrite := by
  obtain rfl : q = assetRegion cfg := by
    rcases mem_regions_cases hq with h | h | h
    · have := kind_of_mem_romRegions h
      simp [hk] at this
    · exact h
    · simp [hk] at h
  have hnone : (romRegions cfg).find? (·.holds x.toNat 1) = none := List.find?_eq_none.2 hrom
  have hreg : regionOf cfg x.toNat 1 = some (assetRegion cfg) := by
    rw [regionOf_eq_or, hnone, Option.none_or]
    exact List.find?_cons_of_pos hx
  exact (writeRefusal_of_regionOf hreg).2.1 hk

/-- A byte of the scratch buffer that lies in no other region may be written. -/
theorem writeRefusal_scratch_alone {cfg : Config} {x : Word} (hf : cfg.fmt = .p1)
    (hx : cfg.scratchBase.toNat ≤ x.toNat ∧ x.toNat < cfg.scratchBase.toNat + 640)
    (halone : ∀ q ∈ regions cfg, q.kind ≠ .scratch → ¬ q.holds x.toNat 1 = true) : writeRefusal cfg x = none := by
  obtain ⟨r, hr⟩ := Option.isSome_iff_exists.1 (regionOf_isSome_iff (cfg := cfg) (a := x.toNat) (n := 1) |>.2
    ⟨⟨.scratch, cfg.scratchBase.toNat, rowBytes cfg⟩, by simp [regions, hf],
      by simp only [rowBytes_p1 hf]; exact hx⟩)
  obtain ⟨hmem, hholds⟩ := regionOf_mem hr
  exact (writeRefusal_of_regionOf hr).2.2 (by_contra fun hk => halone r hmem hk hholds)

/-- Settles O20: the race; the first target that is no scratch byte, by its region or by its refusal; the first source
nothing has written; the busy channel. -/
theorem opPixP1Stops : Obligations.OpPixP1Stops := by
  unfold Obligations.OpPixP1Stops
  intro c s r a hf hs hrow
  rw [← activeRow_index hs] at hrow
  refine ⟨exec_opPix_race c hf hrow, fun hrace n hn hend hread halone => ?_, fun hrace n f hn hread hw hf' => ?_,
    fun hrace n hn hun hw => ?_, fun hrace hp ⟨n, hn, hun⟩ => ?_, fun hrace hp hb hwritten => ?_⟩
  · have haddr := fun j (hj : j < 640) => toNat_scratchBase_add hend hj
    have hw : ∀ j, j < n → writeRefusal s.cfg (s.cfg.scratchBase + BitVec.ofNat 32 j) = none := fun j hj =>
      writeRefusal_scratch_alone hf (by rw [haddr j (by omega)]; omega) fun q hq hk hx =>
        halone j hj q hq hk (by rw [haddr j (by omega)] at hx; exact (Region.holds_iff ..).1 hx)
    refine ⟨fun ⟨q, hq, hk, hx⟩ => ?_, fun hrom ⟨q, hq, hk, hx⟩ => ?_⟩
    · refine exec_opPix_refused c hf hrow hrace hn hread hw (writeRefusal_rom (mem_romRegions_of_kind hq hk) ?_)
      rw [haddr n hn]; exact (Region.holds_iff ..).2 hx
    · refine exec_opPix_refused c hf hrow hrace hn hread hw (writeRefusal_asset (fun p hp hx => ?_) hq hk ?_)
      · rw [haddr n hn] at hx
        exact hrom p (List.mem_of_mem_take hp) (kind_of_mem_romRegions hp) ((Region.holds_iff ..).1 hx)
      · rw [haddr n hn]; exact (Region.holds_iff ..).2 hx
  · exact exec_opPix_refused c hf hrow hrace hn hread hw hf'
  · exact exec_opPix_unwritten c hf hrow hrace hn hun hw
  · exact exec_opPix_unwritten c hf hrow hrace hn hun fun j hj => writeRefusal_scratch hp hf (by omega)
  · exact exec_opPix_busy c hf hrow hrace hp hb hwritten

end Sys2Proof.Machine
